-- ==== Sys2Proof/Word.lean ====
section
/-! DEFINITION. The word types of HUFF-CORE: a byte of a byte array, and the 32-bit unsigned value of every register,
command word and bus access (spec R30 to R32, R86). -/

namespace Sys2Proof

/-- One byte: an element of DATA_BUF, LEN_BUF or OUT_BUF, and a symbol (R14, R48). -/
abbrev Byte := BitVec 8

/-- One 32-bit word: a register, a bus access, a STREAM slot, a BLK element (R32, R80, R86). -/
abbrev Word := BitVec 32

end Sys2Proof
end

