-- ==== Sys2Proof/Config.lean ====
section
/-! DEFINITION. What is fixed for one HUFF-CORE: the parameters of spec R12, the alphabet and the two banks, and the
free values a host read can draw (R392, R403). -/

namespace Sys2Proof

/-- ALPHABET_SIZE, fixed at 256 (R12, R14): the symbols are 0 to 255. -/
def alphabetSize : Nat := 256

/-- The two code-table banks (R12 NUM_BANKS, R51). -/
inductive Bank where
  /-- TABLE[0], selected by TB = 0. -/
  | bank0
  /-- TABLE[1], selected by TB = 1. -/
  | bank1
  deriving DecidableEq, Repr

/-- The parameters of one HUFF-CORE (R12). They are data of the state, changed by nothing, so a statement about every
state is about every HUFF-CORE (log 7). WORD_WIDTHS, ALPHABET_SIZE and NUM_BANKS are fixed by R12 and stand elsewhere. -/
structure Params where
  /-- MAXLEN: every legal codelength is below it. -/
  maxLen : Nat
  /-- MAX_DATA_BYTES: the capacity of DATA_BUF. -/
  maxDataBytes : Nat
  /-- MAX_STREAM_WORDS: the capacity of STREAM in slots. -/
  maxStreamWords : Nat
  /-- MAX_BLOCKS: the capacity of each BLK array. -/
  maxBlocks : Nat
  /-- MAX_OUT_BYTES: the capacity of OUT_BUF. -/
  maxOutBytes : Nat
  /-- NUM_ENGINES: how many decode engines there are. -/
  numEngines : Nat
  deriving DecidableEq, Repr

/-- The reference configuration of R12. -/
def Params.reference : Params where
  maxLen := 32
  maxDataBytes := 1048576
  maxStreamWords := 262144
  maxBlocks := 4096
  maxOutBytes := 1048576
  numEngines := 4

/-- The value that the `n`-th host read draws where the spec says "any value, drawn once per read" (R392, R403). It has
no body: nothing can be proved of it (log 4). DESIGN CHOICE of form, safe. -/
opaque Config.freeWord (n : Nat) : Word

end Sys2Proof
end

