-- ==== Sys2Proof/Syntax.lean ====
section
/-! DEFINITION. The commands of HUFF-CORE, one constructor per row of spec/opcode_table.json (spec R122). -/

namespace Sys2Proof

/-- A command. TB is an operand of ASSIGN, BUILD and DECODE only; COUNT, TREE and COMPARE require TB = 0 and so carry no
operand (R121, R123). The registers and arrays a command reads are fixed by its rule (R120). -/
inductive Instr where
  /-- ASSIGN: canonical codewords from LEN_BUF into bank `tb` (R240). -/
  | assign (tb : Bank)
  /-- COUNT: the frequency list of DATA_BUF (R190). -/
  | count
  /-- TREE: Huffman depths of the frequency list into LEN_BUF (R210). -/
  | tree
  /-- BUILD: COUNT, TREE, then ASSIGN into bank `tb` (R250). -/
  | build (tb : Bank)
  /-- DECODE: the blocks of the stream with the table of bank `tb` (R300). -/
  | decode (tb : Bank)
  /-- COMPARE: equality of the two banks (R280). -/
  | compare
  deriving DecidableEq, Repr

end Sys2Proof
end

