-- ==== Sys2Proof/WellFormed.lean ====
section
/-! DEFINITION. What is well formed: command words (spec R123), host accesses (R80), parameters (R12), and commands. -/

namespace Sys2Proof

/-- The checks of R123 on a command word: bits 31:5 are zero, OP is one of 1 to 6, and TB = 0 for COUNT, TREE and
COMPARE. -/
def legalWord (v : Word) : Bool :=
  v.extractLsb' 5 27 == 0#27 &&
  (v.extractLsb' 0 4 != 0#4 && (v.extractLsb' 0 4).ult 7#4) &&
  !(v.getLsbD 4 && (v.extractLsb' 0 4 == 2#4 || v.extractLsb' 0 4 == 3#4 || v.extractLsb' 0 4 == 6#4))

/-- The host accesses the interface admits (R80): four bytes wide, at an offset that is a multiple of 4. That the offset
lies in the 4 MiB window is its type. -/
def admittedAccess (off : BitVec 22) (bytes : Nat) : Bool :=
  bytes == 4 && off.toNat % 4 == 0

/-- The legal ranges of the parameters (R12). -/
def Params.wf (p : Params) : Bool :=
  (2 ≤ p.maxLen && p.maxLen ≤ 33) &&
  (1 ≤ p.maxDataBytes && p.maxDataBytes ≤ 1048576) &&
  (1 ≤ p.maxStreamWords && p.maxStreamWords ≤ 262144) &&
  (1 ≤ p.maxBlocks && p.maxBlocks ≤ 4096) &&
  (1 ≤ p.maxOutBytes && p.maxOutBytes ≤ 1048576) &&
  (1 ≤ p.numEngines && p.numEngines ≤ 256)

/-- The opcode OP of a command (R122). -/
def Instr.op : Instr → BitVec 4
  | .assign _ => 1#4
  | .count => 2#4
  | .tree => 3#4
  | .build _ => 4#4
  | .decode _ => 5#4
  | .compare => 6#4

/-- The bit TB of a bank (R120). -/
def Bank.bit : Bank → Bool
  | .bank0 => false
  | .bank1 => true

/-- The bit TB of a command; zero for the commands without a bank (R121). -/
def Instr.tb : Instr → Bool
  | .assign b => b.bit
  | .count => false
  | .tree => false
  | .build b => b.bit
  | .decode b => b.bit
  | .compare => false

/-- A command is well formed when the word made of its OP and TB is legal (R123). The type admits no ill-formed command:
the nine terms are the nine legal words of R126. -/
def Instr.wf (i : Instr) : Bool :=
  legalWord ((0#27 ++ BitVec.ofBool i.tb ++ i.op : BitVec 32))

end Sys2Proof
end

