-- ==== Sys2Proof/Decode.lean ====
section
/-! DEFINITION. The decoder of command words, total on all 32-bit words (spec R125), and the encoder (R120, R122). -/

namespace Sys2Proof

/-- The bank a TB bit selects (R120, R121). -/
def Bank.ofBit : Bool → Bank
  | false => .bank0
  | true => .bank1

/-- DecodeCmd of R125; `none` is ILLEGAL. -/
def decodeCmd (v : Word) : Option Instr :=
  let op := v.extractLsb' 0 4
  let tb := v.getLsbD 4
  if v.extractLsb' 5 27 ≠ 0#27 then none
  else if op = 1#4 then some (.assign (Bank.ofBit tb))
  else if op = 2#4 then (if tb then none else some .count)
  else if op = 3#4 then (if tb then none else some .tree)
  else if op = 4#4 then some (.build (Bank.ofBit tb))
  else if op = 5#4 then some (.decode (Bank.ofBit tb))
  else if op = 6#4 then (if tb then none else some .compare)
  else none

/-- The word of a command: bits 31:5 zero, TB in bit 4, OP in bits 3:0 (R120, R122). -/
def encode (i : Instr) : Word :=
  0#27 ++ BitVec.ofBool i.tb ++ i.op

/-- The command the decoder reads from a row's bits. A command word is exactly 32 bits (R127): bits above `nbits` are
zero, and a row longer than 32 bits is none. -/
def decodeTableWord (nbits w : Nat) : Option Instr :=
  if nbits ≤ 32 then decodeCmd (BitVec.ofNat 32 (w % 2 ^ nbits)) else none

end Sys2Proof
end

