-- ==== Sys2Proof/Machine/State.lean ====
section
/-! DEFINITION. The state of HUFF-CORE as plain data: every register and array of spec 10_state.md, the controller, the
engines, and what the outside world still has to do. -/

namespace Sys2Proof.Machine

/-- Byte memory of the window: (window offset, byte), addresses strictly rising. An unlisted byte is unwritten and has no
value (R392, log 6). It holds DATA_BUF, LEN_BUF, STREAM, the BLK arrays and OUT_BUF at the offsets of R81. -/
abbrev Memory := List Host.Cell

/-- One entry of a code table: the source's Code (R51). -/
structure Code where
  /-- `.cw`, the codeword value. -/
  cw : Word
  /-- `.len`, the codelength; 0 means the symbol is absent. -/
  len : Byte
  deriving DecidableEq, Repr

/-- One pair of the frequency list (R50). -/
structure FreqEntry where
  /-- FREQ_SYM[i]. -/
  sym : Byte
  /-- FREQ_CNT[i]. -/
  cnt : Word
  deriving DecidableEq, Repr

/-- TABLE_INFO of one bank (R46). -/
structure TableInfo where
  /-- MAXLEN_USED, bits [7:0]. -/
  maxlen : Byte
  /-- VALID, bit [31]. -/
  valid : Bool
  deriving DecidableEq, Repr

/-- The stored fields of STATUS (R36). BUSY is `State.busy`: 1 exactly when a command is in progress (R60). -/
structure Status where
  /-- DONE, bit [1]. -/
  done : Bool
  /-- ERR, bit [2]. -/
  err : Bool
  /-- EQUAL, bit [3]. -/
  equal : Bool
  /-- OVERRUN, bit [4]. -/
  overrun : Bool
  /-- ERR_CLASS, bits [10:8]. -/
  errClass : BitVec 3
  /-- ERR_CODE, bits [23:16]. -/
  errCode : BitVec 8
  deriving DecidableEq, Repr

/-- The walk of one engine through one block (R64, R306). The quantities are exact numbers; that they fit the widths R64
gives (p 32 bits, c 32 bits, l 6 bits) is an invariant (log 21). -/
structure Walk where
  /-- The block index i. -/
  block : Nat
  /-- The bit cursor p. -/
  p : Nat
  /-- The value c of the running codeword. -/
  c : Nat
  /-- The length l of the running codeword. -/
  l : Nat
  /-- The number k of symbols emitted for the block. -/
  k : Nat
  /-- The start position q of the running codeword. -/
  q : Nat
  /-- The output base of the block. -/
  base : Nat
  deriving DecidableEq, Repr

/-- One access the host makes (R150, R151), or its polling of STATUS (R132 `WAIT`). -/
inductive HostOp where
  /-- A bus read of `bytes` bytes at window offset `off`. -/
  | read (off : BitVec 22) (bytes : Nat)
  /-- A bus write of `bytes` bytes of `v` at window offset `off`. -/
  | write (off : BitVec 22) (bytes : Nat) (v : Word)
  /-- Reads of STATUS repeated until DONE reads 1. -/
  | wait
  deriving DecidableEq, Repr

/-- Who makes the next indivisible step (R165, R356). -/
inductive Turn where
  /-- The host performs its next access. -/
  | host
  /-- The controller completes the command in progress. -/
  | controller
  /-- Engine `e` steps; if it is idle it takes block `pick`. -/
  | engine (e : Nat) (pick : Nat)
  /-- The platform drives the reset input. -/
  | reset
  deriving DecidableEq, Repr

/-- The arrays held in byte memory (R48, R49, R53 to R56). -/
inductive Arr where
  | lenBuf
  | blkOffset
  | blkCount
  | blkStatus
  | blkErrpos
  | blkDone
  | blkEnd
  | dataBuf
  | stream
  | outBuf
  deriving DecidableEq, Repr

/-- Why a run stops: the one case spec R392 and I10 name. -/
inductive Fault where
  /-- A command read element `index` of `arr`, which nothing has written since reset. Raised by COUNT, ASSIGN, BUILD and
  DECODE and by an engine's step. Safe: the spec gives such a run no defined result. -/
  | unwritten (arr : Arr) (index : Nat)
  deriving DecidableEq, Repr

/-- Why an input is not admitted. -/
inductive Refusal where
  /-- An instruction with no meaning in this model, by its mnemonic. Raised by no arm. Safe. -/
  | notModelled (mnemonic : String)
  /-- A host access that is not 32 bits wide or not at a multiple of 4: outside the interface contract, refused as R80
  asks. Raised by the host's turn. Safe. -/
  | unadmittedAccess (off : BitVec 22) (bytes : Nat)
  deriving DecidableEq, Repr

/-- The state of HUFF-CORE. -/
structure State where
  /-- The parameters of this HUFF-CORE, constant (R12, R44). -/
  params : Params
  /-- STATUS but for BUSY (R36). -/
  status : Status
  /-- CTRL.IE (R38). -/
  ie : Bool
  /-- ERR_INFO (R39). -/
  errInfo : Word
  /-- DATA_LEN (R40). -/
  dataLen : Word
  /-- LEN_SIZE (R41). -/
  lenSize : Word
  /-- STREAM_WORDS (R43). -/
  streamWords : Word
  /-- TRAILING (R43). -/
  trailing : Word
  /-- WORD_WIDTH (R43). -/
  wordWidth : Word
  /-- NUM_BLOCKS (R43). -/
  numBlocks : Word
  /-- OUT_LEN (R45). -/
  outLen : Word
  /-- BLK_FAILS (R45). -/
  blkFails : Word
  /-- TABLE_INFO0 (R46). -/
  info0 : TableInfo
  /-- TABLE_INFO1 (R46). -/
  info1 : TableInfo
  /-- The frequency list: the first FREQ_N pairs of FREQ_SYM and FREQ_CNT; later ones are never observable (R50). -/
  freq : List FreqEntry
  /-- TABLE[0], 256 entries once VALID (R51). -/
  table0 : List Code
  /-- TABLE[1], 256 entries once VALID (R51). -/
  table1 : List Code
  /-- The byte arrays and word arrays of the window. -/
  mem : Memory
  /-- `cur`, the command in progress, or none (R60). -/
  cur : Option Instr
  /-- The decode engines, each idle or in a walk (R64). -/
  engines : List (Option Walk)
  /-- The blocks of the DECODE in progress that an engine has taken (R305). -/
  taken : List Nat
  /-- The model's own: the accesses the host has still to make, next one first (log 3). -/
  script : List HostOp
  /-- The model's own: what host reads returned, newest first (log 3). -/
  responses : List Word
  /-- The model's own: how many host reads there have been, the index of the free values (log 4). -/
  draws : Nat
  /-- The model's own: whose turns come next (log 1). -/
  schedule : List Turn
  deriving DecidableEq, Repr

/-- The state after reset of a HUFF-CORE with parameters `p` (R390). -/
def State.resetOf (p : Params) : State where
  params := p
  status := ⟨false, false, false, false, 0#3, 0#8⟩
  ie := false
  errInfo := 0#32
  dataLen := 0#32
  lenSize := 0#32
  streamWords := 0#32
  trailing := 0#32
  wordWidth := 0#32
  numBlocks := 0#32
  outLen := 0#32
  blkFails := 0#32
  info0 := ⟨0#8, false⟩
  info1 := ⟨0#8, false⟩
  freq := []
  table0 := []
  table1 := []
  mem := []
  cur := none
  engines := List.replicate p.numEngines none
  taken := []
  script := []
  responses := []
  draws := 0
  schedule := []

/-- The machine right after reset, in the reference configuration of R12 (log 7). -/
def State.reset : State := State.resetOf Params.reference

end Sys2Proof.Machine
end

