-- ==== Sys2Proof/Machine/Flags.lean ====
section
/-! DEFINITION. Every flag: STATUS as a word and its W1C bits (spec R36), error codes and classes (R351, R352), the
BLK_STATUS values (R55), TABLE_INFO as a word (R46) and the interrupt level (R360). -/

namespace Sys2Proof.Machine

/-- The error codes of R352. -/
inductive ErrCode where
  | illegalCmd
  | lenSizeMismatch
  | lenTooLong
  | notPrefixFree
  | oversubscribed
  | badWordWidth
  | noTable
  | dataTooLong
  | streamTooLong
  | tooManyBlocks
  | outputTooLong
  | badTrailing
  | truncated
  | badCode
  deriving DecidableEq, Repr

/-- The value of a code in STATUS.ERR_CODE (R352). -/
def codeBits : ErrCode → BitVec 8
  | .illegalCmd => 0x01#8
  | .lenSizeMismatch => 0x10#8
  | .lenTooLong => 0x11#8
  | .notPrefixFree => 0x12#8
  | .oversubscribed => 0x13#8
  | .badWordWidth => 0x14#8
  | .noTable => 0x15#8
  | .dataTooLong => 0x20#8
  | .streamTooLong => 0x21#8
  | .tooManyBlocks => 0x22#8
  | .outputTooLong => 0x23#8
  | .badTrailing => 0x30#8
  | .truncated => 0x31#8
  | .badCode => 0x32#8

/-- class(code) of R352: 4 for 0x01, else the code shifted right by 4. -/
def classBits (c : BitVec 8) : BitVec 3 :=
  if c = 0x01#8 then 4#3 else (c >>> 4).setWidth 3

/-- How a block's decode ends (R55, R310, R311). -/
inductive BlockEnd where
  | ok
  | truncated
  | badCode
  deriving DecidableEq, Repr

/-- The value written to BLK_STATUS (R55). -/
def blockStatus : BlockEnd → Word
  | .ok => 0x01#32
  | .truncated => 0x31#32
  | .badCode => 0x32#32

/-- STATUS.BUSY: 1 exactly when a command is in progress (R60). -/
def State.busy (s : State) : Bool := s.cur.isSome

/-- STATUS as the word a host read returns (R36). -/
def statusWord (s : State) : Word :=
  0#8 ++ s.status.errCode ++ 0#5 ++ s.status.errClass ++ 0#3 ++ BitVec.ofBool s.status.overrun ++
    BitVec.ofBool s.status.equal ++ BitVec.ofBool s.status.err ++ BitVec.ofBool s.status.done ++ BitVec.ofBool s.busy

/-- A host write of `v` to STATUS: writing 1 clears DONE (bit 1) and OVERRUN (bit 4); nothing else changes (R36, R151). -/
def clearStatus (v : Word) (st : Status) : Status :=
  { st with done := st.done && !v.getLsbD 1, overrun := st.overrun && !v.getLsbD 4 }

/-- The report cleared: DONE, ERR, ERR_CLASS and ERR_CODE are 0, EQUAL and OVERRUN keep their values (R156, R157). -/
def clearReport (st : Status) : Status :=
  { st with done := false, err := false, errClass := 0#3, errCode := 0#8 }

/-- The report of an error: ERR, ERR_CLASS and ERR_CODE (R158, R353). -/
def reportError (code : ErrCode) (st : Status) : Status :=
  { st with err := true, errClass := classBits (codeBits code), errCode := codeBits code }

/-- TABLE_INFO as the word a host read returns (R46). -/
def infoWord (i : TableInfo) : Word :=
  BitVec.ofBool i.valid ++ 0#23 ++ i.maxlen

/-- IRQ, a level: CTRL.IE and STATUS.DONE (R65, R360). -/
def State.irq (s : State) : Bool := s.ie && s.status.done

end Sys2Proof.Machine
end

