-- ==== Sys2Proof/Machine/Ops.lean ====
section
/-! DEFINITION. The named operations: byte memory, the banks, and the life of a command: acceptance, rejection,
completion, error report, and reset (spec R155 to R158, R353, R390). -/

namespace Sys2Proof.Machine

/-- The byte at address `a`, if one has been written. -/
def Memory.read : Memory → Nat → Option Byte
  | [], _ => none
  | (x, b) :: rest, a => bif Nat.beq x a then some b else Memory.read rest a

/-- The cells of the bytes `bs` at `a`, `a + 1`, and on. -/
def cellsAt (a : Nat) : List Byte → Memory
  | [] => []
  | b :: bs => (a, b) :: cellsAt (a + 1) bs

/-- Memory with the bytes `bs` written at `a`, `a + 1`, and on; every other byte as before. -/
def Memory.setRange (m : Memory) (a : Nat) (bs : List Byte) : Memory :=
  m.filter (fun c => decide (c.1 < a)) ++ cellsAt a bs ++ m.filter (fun c => decide (a + bs.length ≤ c.1))

/-- The canonical form: addresses strictly rising. -/
abbrev Memory.wf (m : Memory) : Prop := m.Pairwise (fun c d => c.1 < d.1)

/-- Byte lane `t` of a word: bits [8t+7 : 8t] (R85). -/
def laneOf (v : Word) (t : Nat) : Byte := v.extractLsb' (8 * t) 8

/-- The four lanes of a word, lane 0 first (R85). -/
def lanes (v : Word) : List Byte := [laneOf v 0, laneOf v 1, laneOf v 2, laneOf v 3]

/-- The word of four lanes (R85). -/
def ofLanes (b0 b1 b2 b3 : Byte) : Word := b3 ++ b2 ++ b1 ++ b0

/-- The word held in the four bytes from `a`, if all four have been written (R85, R86, log 22). -/
def Memory.readWord (m : Memory) (a : Nat) : Option Word :=
  match m.read a, m.read (a + 1), m.read (a + 2), m.read (a + 3) with
  | some b0, some b1, some b2, some b3 => some (ofLanes b0 b1 b2 b3)
  | _, _, _, _ => none

/-- Memory with the word `v` written in the four bytes from `a`. -/
def Memory.writeWord (m : Memory) (a : Nat) (v : Word) : Memory := m.setRange a (lanes v)

/-- The table of a bank (R51). -/
def State.table (s : State) : Bank → List Code
  | .bank0 => s.table0
  | .bank1 => s.table1

/-- TABLE_INFO of a bank (R46). -/
def State.info (s : State) : Bank → TableInfo
  | .bank0 => s.info0
  | .bank1 => s.info1

/-- A bank and its TABLE_INFO written as one update (R248). -/
def State.setBank (s : State) (b : Bank) (t : List Code) (i : TableInfo) : State :=
  match b with
  | .bank0 => { s with table0 := t, info0 := i }
  | .bank1 => { s with table1 := t, info1 := i }

/-- The bank's number, 0 or 1 (R121). -/
def bankNumber : Bank → Nat
  | .bank0 => 0
  | .bank1 => 1

/-- FREQ_N, 9 bits (R42): how many pairs the frequency list holds. -/
def State.freqN (s : State) : BitVec 9 := BitVec.ofNat 9 s.freq.length

/-- Acceptance of a legal command word, one indivisible step (R156). -/
def State.accept (i : Instr) (s : State) : State :=
  { s with status := clearReport s.status, errInfo := 0#32, cur := some i }

/-- Rejection of an illegal command word, one indivisible step (R157). -/
def State.reject (v : Word) (s : State) : State :=
  { s with status := { reportError .illegalCmd (clearReport s.status) with done := true }, errInfo := v }

/-- Completion without error: BUSY falls and DONE rises in one step (R158). -/
def State.complete (s : State) : State :=
  { s with cur := none, status := { s.status with done := true } }

/-- THE error report: what every command error records, ERR, ERR_CLASS, ERR_CODE and ERR_INFO, with completion in the same
step (R158, R353). HUFF-CORE has no traps: nothing is saved and control goes nowhere (R357). -/
def State.completeError (code : ErrCode) (info : Word) (s : State) : State :=
  { s with cur := none, errInfo := info, status := { reportError code s.status with done := true } }

/-- The host's acknowledgement: a write of `v` to STATUS (R36, R358). -/
def State.acknowledge (v : Word) (s : State) : State :=
  { s with status := clearStatus v s.status }

/-- A host write ignored because BUSY = 1 (R401, R402). -/
def State.overrun (s : State) : State :=
  { s with status := { s.status with overrun := true } }

/-- The reset input: the block takes the state of R390 whatever it was, also during a command (R394). What the host and
the platform have still to do, and what the host has read, lie outside the block and stay (log 20). -/
def State.platformReset (s : State) : State :=
  { State.resetOf s.params with
    script := s.script, responses := s.responses, draws := s.draws, schedule := s.schedule }

/-- What a command's rule yields: its state writes alone, or a `raise` with the writes that persist (R18), or a read of an
unwritten element (R392). -/
inductive CmdResult where
  | done (s : State)
  | error (s : State) (code : ErrCode) (info : Word)
  | fault (f : Fault)
  deriving DecidableEq, Repr

/-- The completion step of a command (R158). -/
def CmdResult.finish : CmdResult → Host.Outcome State Fault Refusal
  | .done s => .next s.complete
  | .error s code info => .next (s.completeError code info)
  | .fault f => .fault f

end Sys2Proof.Machine
end

