-- ==== Sys2Proof/Machine/Operands.lean ====
section
/-! DEFINITION. The operands: where each array lies (spec R81, R82), what a window offset names, and how a command reads
the elements of an array (R392). -/

namespace Sys2Proof.Machine

/-- The window offset of an array's first element (R81). -/
def Arr.base : Arr → Nat
  | .lenBuf => 0x001000
  | .blkOffset => 0x010000
  | .blkCount => 0x014000
  | .blkStatus => 0x018000
  | .blkErrpos => 0x01C000
  | .blkDone => 0x020000
  | .blkEnd => 0x024000
  | .dataBuf => 0x100000
  | .stream => 0x200000
  | .outBuf => 0x300000

/-- The size in bytes of an array's window (R81). -/
def Arr.window : Arr → Nat
  | .lenBuf => 0x100
  | .blkOffset => 0x4000
  | .blkCount => 0x4000
  | .blkStatus => 0x4000
  | .blkErrpos => 0x4000
  | .blkDone => 0x4000
  | .blkEnd => 0x4000
  | .dataBuf => 0x100000
  | .stream => 0x100000
  | .outBuf => 0x100000

/-- The capacity in bytes of an array (R48 to R56, R82): no more than its window. -/
def Arr.bytes (p : Params) (a : Arr) : Nat :=
  min a.window (match a with
    | .lenBuf => 256
    | .blkOffset => 4 * p.maxBlocks
    | .blkCount => 4 * p.maxBlocks
    | .blkStatus => 4 * p.maxBlocks
    | .blkErrpos => 4 * p.maxBlocks
    | .blkDone => 4 * p.maxBlocks
    | .blkEnd => 4 * p.maxBlocks
    | .dataBuf => p.maxDataBytes
    | .stream => 4 * p.maxStreamWords
    | .outBuf => p.maxOutBytes)

/-- The arrays the host may write (R152). -/
def Arr.isInput : Arr → Bool
  | .lenBuf => true
  | .blkOffset => true
  | .blkCount => true
  | .blkStatus => false
  | .blkErrpos => false
  | .blkDone => false
  | .blkEnd => false
  | .dataBuf => true
  | .stream => true
  | .outBuf => false

/-- The registers, in the order of their offsets (R32). -/
inductive Reg where
  | id | version | cmd | status | ctrl | errInfo | dataLen | lenSize | freqN | streamWords | trailing | wordWidth
  | numBlocks | outLen | blkFails | tableInfo0 | tableInfo1 | pMaxLen | pMaxDataBytes | pMaxStreamWords | pMaxBlocks
  | pMaxOutBytes | pNumEngines | pWordWidths
  deriving DecidableEq, Repr

/-- The register at word index `n` of the register block, offset 4n (R32). -/
def Reg.atIndex : Nat → Option Reg
  | 0 => some .id
  | 1 => some .version
  | 2 => some .cmd
  | 3 => some .status
  | 4 => some .ctrl
  | 5 => some .errInfo
  | 6 => some .dataLen
  | 7 => some .lenSize
  | 8 => some .freqN
  | 9 => some .streamWords
  | 10 => some .trailing
  | 11 => some .wordWidth
  | 12 => some .numBlocks
  | 13 => some .outLen
  | 14 => some .blkFails
  | 15 => some .tableInfo0
  | 16 => some .tableInfo1
  | 17 => some .pMaxLen
  | 18 => some .pMaxDataBytes
  | 19 => some .pMaxStreamWords
  | 20 => some .pMaxBlocks
  | 21 => some .pMaxOutBytes
  | 22 => some .pNumEngines
  | 23 => some .pWordWidths
  | _ => none

/-- What a window offset names (R81). -/
inductive Location where
  | reg (r : Reg)
  /-- Byte index `i` of an array held in byte memory, below its capacity. -/
  | array (a : Arr) (i : Nat)
  | freqSym (i : Nat)
  | freqCnt (i : Nat)
  | tableCw (b : Bank) (sym : Nat)
  | tableLen (b : Bank) (sym : Nat)
  | reserved
  deriving DecidableEq, Repr

/-- The word of a TABLE window at byte index `i`: the CW word of an entry, then its LEN word (R81, R84). -/
def tableLocation (b : Bank) (i : Nat) : Location :=
  if i % 8 < 4 then .tableCw b (i / 8) else .tableLen b (i / 8)

/-- The first of the arrays `as` in whose window the offset `o` lies, within its capacity; reserved otherwise (R82). -/
def arrayLocation (p : Params) (o : Nat) : List Arr → Location
  | [] => .reserved
  | a :: as =>
    if a.base ≤ o ∧ o < a.base + a.window then
      (if o - a.base < a.bytes p then .array a (o - a.base) else .reserved)
    else arrayLocation p o as

/-- The arrays held in byte memory, in the order of R81. -/
def allArrays : List Arr :=
  [.lenBuf, .blkOffset, .blkCount, .blkStatus, .blkErrpos, .blkDone, .blkEnd, .dataBuf, .stream, .outBuf]

/-- What the offset `o` names (R81 to R83). -/
def locate (p : Params) (o : Nat) : Location :=
  if o < 0x60 then
    match Reg.atIndex (o / 4) with
    | some r => .reg r
    | none => .reserved
  else if 0x2000 ≤ o ∧ o < 0x2400 then .freqSym ((o - 0x2000) / 4)
  else if 0x2400 ≤ o ∧ o < 0x2800 then .freqCnt ((o - 0x2400) / 4)
  else if 0x3000 ≤ o ∧ o < 0x3800 then tableLocation .bank0 (o - 0x3000)
  else if 0x3800 ≤ o ∧ o < 0x4000 then tableLocation .bank1 (o - 0x3800)
  else arrayLocation p o allArrays

/-- The bytes of `n` cells that stand at consecutive addresses from element `i` of a byte array on; a fault at the first
element that is missing. -/
def takeBytes (arr : Arr) : (i n : Nat) → Memory → Except Fault (List Byte)
  | _, 0, _ => .ok []
  | i, _ + 1, [] => .error (.unwritten arr i)
  | i, n + 1, (x, b) :: rest =>
    if x = arr.base + i then
      match takeBytes arr (i + 1) n rest with
      | .error f => .error f
      | .ok bs => .ok (b :: bs)
    else .error (.unwritten arr i)

/-- The `n` bytes from element `i` of a byte array; a fault at the first unwritten one (R392, log 12). One pass over the
canonical memory; that it reads byte by byte is `readBytes_ok` of Laws/Memory.lean. -/
def Memory.readBytes (m : Memory) (arr : Arr) (i n : Nat) : Except Fault (List Byte) :=
  takeBytes arr i n (m.dropWhile (fun c => decide (c.1 < arr.base + i)))

/-- Element `i` of a word array. -/
def Memory.readElem (m : Memory) (arr : Arr) (i : Nat) : Option Word := m.readWord (arr.base + 4 * i)

/-- Memory with element `i` of a word array written. -/
def Memory.writeElem (m : Memory) (arr : Arr) (i : Nat) (v : Word) : Memory := m.writeWord (arr.base + 4 * i) v

/-- The `n` elements from element `i` of a word array, as numbers; a fault at the first unwritten one (R392, log 12). -/
def Memory.readElems (m : Memory) (arr : Arr) : (i n : Nat) → Except Fault (List Nat)
  | _, 0 => .ok []
  | i, n + 1 =>
    match m.readElem arr i with
    | none => .error (.unwritten arr i)
    | some v =>
      match Memory.readElems m arr (i + 1) n with
      | .error f => .error f
      | .ok vs => .ok (v.toNat :: vs)

end Sys2Proof.Machine
end

