-- ==== Sys2Proof/Machine/Bus.lean ====
section
/-! DEFINITION. The host bus: host read (spec R150), host write (R151), the command write (R155), what is ignored and what
reads as any value while a command runs (R401 to R403), and the host's turn (R165, R132). -/

namespace Sys2Proof.Machine

/-- The value of a register (R33 to R46). CMD reads 0 (R35). -/
def State.regRead (s : State) : Reg → Word
  | .id => 0x48554646#32
  | .version => 0x00070001#32
  | .cmd => 0#32
  | .status => statusWord s
  | .ctrl => 0#31 ++ BitVec.ofBool s.ie
  | .errInfo => s.errInfo
  | .dataLen => s.dataLen
  | .lenSize => s.lenSize
  | .freqN => 0#23 ++ s.freqN
  | .streamWords => s.streamWords
  | .trailing => s.trailing
  | .wordWidth => s.wordWidth
  | .numBlocks => s.numBlocks
  | .outLen => s.outLen
  | .blkFails => s.blkFails
  | .tableInfo0 => infoWord s.info0
  | .tableInfo1 => infoWord s.info1
  | .pMaxLen => BitVec.ofNat 32 s.params.maxLen
  | .pMaxDataBytes => BitVec.ofNat 32 s.params.maxDataBytes
  | .pMaxStreamWords => BitVec.ofNat 32 s.params.maxStreamWords
  | .pMaxBlocks => BitVec.ofNat 32 s.params.maxBlocks
  | .pMaxOutBytes => BitVec.ofNat 32 s.params.maxOutBytes
  | .pNumEngines => BitVec.ofNat 32 s.params.numEngines
  | .pWordWidths => 7#32

/-- The locations of the frequency list (R403). -/
def isFreqLocation : Location → Bool
  | .reg .freqN => true
  | .freqSym _ => true
  | .freqCnt _ => true
  | _ => false

/-- The locations TREE writes (R403). -/
def isLenLocation : Location → Bool
  | .reg .lenSize => true
  | .array .lenBuf _ => true
  | _ => false

/-- The locations of bank `b`: its table and its TABLE_INFO (R403). -/
def isBankLocation (b : Bank) : Location → Bool
  | .reg .tableInfo0 => decide (b = .bank0)
  | .reg .tableInfo1 => decide (b = .bank1)
  | .tableCw b' _ => decide (b' = b)
  | .tableLen b' _ => decide (b' = b)
  | _ => false

/-- The locations DECODE writes (R403). -/
def isDecodeLocation : Location → Bool
  | .reg .outLen => true
  | .reg .blkFails => true
  | .array .outBuf _ => true
  | .array .blkStatus _ => true
  | .array .blkErrpos _ => true
  | .array .blkDone _ => true
  | .array .blkEnd _ => true
  | _ => false

/-- The locations a command in progress writes (R403). -/
def cmdWrites (i : Instr) (l : Location) : Bool :=
  match i with
  | .assign b => isBankLocation b l
  | .count => isFreqLocation l
  | .tree => isLenLocation l
  | .build b => isFreqLocation l || isLenLocation l || isBankLocation b l
  | .decode _ => isDecodeLocation l
  | .compare => false

/-- Whether the running command, if any, writes the location (R403). -/
def State.inFlight (s : State) (l : Location) : Bool :=
  match s.cur with
  | some i => cmdWrites i l
  | none => false

/-- Byte `i + t` of an array in a host read: the byte written there, any value when none has been (R392), 0 beyond the
capacity (R82). -/
def State.readLane (s : State) (a : Arr) (i : Nat) (free : Word) (t : Nat) : Byte :=
  if i + t < a.bytes s.params then (s.mem.read (a.base + (i + t))).getD (laneOf free t) else 0#8

/-- One word of a code table in a host read: any value when the bank has not been built since reset (R51, I11, log 10). -/
def State.readCode (s : State) (b : Bank) (sym : Nat) (free : Word) (field : Code → Word) : Word :=
  if (s.info b).valid then (match (s.table b)[sym]? with | some e => field e | none => free) else free

/-- The value a host read of a location returns, `free` being the value it draws where the spec leaves it open (R150,
R403). -/
def State.readLocation (s : State) (free : Word) (l : Location) : Word :=
  match l with
  | .array a i =>
    if s.inFlight l then
      (if i + 4 ≤ a.bytes s.params then free
       else ofLanes (if i < a.bytes s.params then laneOf free 0 else 0#8) (if i + 1 < a.bytes s.params then laneOf free 1 else 0#8)
         (if i + 2 < a.bytes s.params then laneOf free 2 else 0#8) (if i + 3 < a.bytes s.params then laneOf free 3 else 0#8))
    else ofLanes (s.readLane a i free 0) (s.readLane a i free 1) (s.readLane a i free 2) (s.readLane a i free 3)
  | .reg r => if s.inFlight l then free else s.regRead r
  | .freqSym i => if s.inFlight l then free else (match s.freq[i]? with | some e => 0#24 ++ e.sym | none => 0#32)
  | .freqCnt i => if s.inFlight l then free else (match s.freq[i]? with | some e => e.cnt | none => 0#32)
  | .tableCw b sym => if s.inFlight l then free else s.readCode b sym free (fun e => e.cw)
  | .tableLen b sym => if s.inFlight l then free else s.readCode b sym free (fun e => 0#24 ++ e.len)
  | .reserved => 0#32

/-- MemRead(off, 4) of R150. -/
def State.hostRead (s : State) (off : BitVec 22) : Word :=
  s.readLocation (Config.freeWord s.draws) (locate s.params off.toNat)

/-- CommandWrite(v) of R155: ignored while BUSY (R402), else accepted (R156) or rejected (R157). -/
def State.commandWrite (v : Word) (s : State) : State :=
  if s.busy then s.overrun
  else
    match decodeCmd v with
    | some i => s.accept i
    | none => s.reject v

/-- The store of `v` into an input register (R40, R41, R43). -/
def State.storeReg (r : Reg) (v : Word) (s : State) : State :=
  match r with
  | .dataLen => { s with dataLen := v }
  | .lenSize => { s with lenSize := v }
  | .streamWords => { s with streamWords := v }
  | .trailing => { s with trailing := v }
  | .wordWidth => { s with wordWidth := v }
  | .numBlocks => { s with numBlocks := v }
  | _ => s

/-- The input registers (R152). -/
def Reg.isInput : Reg → Bool
  | .dataLen => true
  | .lenSize => true
  | .streamWords => true
  | .trailing => true
  | .wordWidth => true
  | .numBlocks => true
  | _ => false

/-- A write to an input location: ignored with OVERRUN while BUSY (R401), else `store`. -/
def State.inputWrite (s store : State) : State := if s.busy then s.overrun else store

/-- The store of `v` at byte index `i` of an array: the bytes below the capacity (R82, R85). -/
def State.storeArray (a : Arr) (i : Nat) (v : Word) (s : State) : State :=
  { s with mem := s.mem.setRange (a.base + i) ((lanes v).take (a.bytes s.params - i)) }

/-- MemWrite(off, 4, v) of R151, by what the offset names. Read-only registers and arrays and reserved offsets ignore the
write (R47, R83). -/
def State.writeLocation (v : Word) (l : Location) (s : State) : State :=
  match l with
  | .reg .cmd => s.commandWrite v
  | .reg .status => s.acknowledge v
  | .reg .ctrl => { s with ie := v.getLsbD 0 }
  | .reg r => if r.isInput then s.inputWrite (s.storeReg r v) else s
  | .array a i => if a.isInput then s.inputWrite (s.storeArray a i v) else s
  | .freqSym _ => s
  | .freqCnt _ => s
  | .tableCw _ _ => s
  | .tableLen _ _ => s
  | .reserved => s

/-- MemWrite(off, 4, v) of R151. -/
def State.hostWrite (s : State) (off : BitVec 22) (v : Word) : State :=
  s.writeLocation v (locate s.params off.toNat)

/-- The bookkeeping of one host read (log 3, 4). -/
def State.respond (v : Word) (s : State) : State :=
  { s with responses := v :: s.responses, draws := s.draws + 1 }

/-- The offset of STATUS (R32). -/
def statusOffset : BitVec 22 := 0x00C#22

/-- The offset of CMD (R32). -/
def cmdOffset : BitVec 22 := 0x008#22

/-- The host's turn: its next access (R95, R150, R151), refused if the interface does not admit it (R80); with no access
left, nothing. A `wait` reads STATUS and is over when DONE reads 1 (R132). -/
def hostTurn (s : State) : Host.Outcome State Fault Refusal :=
  match s.script with
  | [] => .next s
  | .read off bytes :: rest =>
    if admittedAccess off bytes then .next { s.respond (s.hostRead off) with script := rest }
    else .refused (.unadmittedAccess off bytes)
  | .write off bytes v :: rest =>
    if admittedAccess off bytes then .next { s.hostWrite off v with script := rest }
    else .refused (.unadmittedAccess off bytes)
  | .wait :: rest =>
    if s.status.done then .next { s.respond (s.hostRead statusOffset) with script := rest }
    else .next (s.respond (s.hostRead statusOffset))

end Sys2Proof.Machine
end

