-- ==== Sys2Proof/Machine/Assign.lean ====
section
/-! DEFINITION. ASSIGN, the CanonicalCodeAssigner (spec R240 to R249). -/

namespace Sys2Proof.Machine

/-- The entry of an absent symbol (R51). -/
def absentCode : Code := ⟨0#32, 0#8⟩

/-- The 256 entries (0, 0) the staging copy starts from (R240). -/
def emptyTable : List Code := List.replicate alphabetSize absentCode

/-- The pairs (s, length) with a non-zero length, from symbol `s` on, in symbol order (R240, R243). -/
def presentPairs : (s : Nat) → List Nat → List (Nat × Nat)
  | _, [] => []
  | s, l :: ls => if l = 0 then presentPairs (s + 1) ls else (s, l) :: presentPairs (s + 1) ls

/-- The sort key of R243 on (symbol, length): length descending, equal lengths by symbol ascending. -/
def codeOrder (x y : Nat × Nat) : Bool :=
  decide (y.2 < x.2) || (decide (x.2 = y.2) && decide (x.1 ≤ y.1))

/-- P of R240: the present pairs in the order of R243. -/
def sortedPairs (lens : List Nat) : List (Nat × Nat) :=
  (presentPairs 0 lens).insertionSort (fun x y => codeOrder x y = true)

/-- The assigner's state (R63): the previous codeword and codelength, and the staging copy of the 256 entries. -/
structure Assigner where
  pc : Nat
  pl : Nat
  staging : List Code
  deriving DecidableEq, Repr

/-- The walk from longest to shortest (R245), with the checks of R246 on each codeword, NOT_PREFIX_FREE before
OVERSUBSCRIBED. With equal lengths d = 0, so that t mod 2^d = 0 and t >> d = t. An error carries its symbol. -/
def assignWalk : List (Nat × Nat) → Assigner → Except (ErrCode × Nat) (List Code)
  | [], a => .ok a.staging
  | (s, l) :: rest, a =>
    let t := a.pc + 1
    let d := a.pl - l
    if t % 2 ^ d ≠ 0 then .error (.notPrefixFree, s)
    else
      let c := t >>> d
      if 2 ^ l ≤ c then .error (.oversubscribed, s)
      else assignWalk rest ⟨c, l, a.staging.set s ⟨BitVec.ofNat 32 c, BitVec.ofNat 8 l⟩⟩

/-- The table and the maximum length of a codelength array (R244, R245, R247), or the first error. -/
def canonical (lens : List Nat) : Except (ErrCode × Nat) (List Code × Nat) :=
  match sortedPairs lens with
  | [] => .ok (emptyTable, 0)
  | (s, l) :: rest =>
    match assignWalk rest ⟨0, l, emptyTable.set s ⟨0#32, BitVec.ofNat 8 l⟩⟩ with
    | .error e => .error e
    | .ok t => .ok (t, l)

/-- The least symbol whose length is not below MAXLEN (R242). -/
def tooLong (maxLen : Nat) (lens : List Nat) : Option Nat := lens.findIdx? (fun l => decide (maxLen ≤ l))

/-- ASSIGN's rule (R240), its checks in order (R355), its commit at success only (R248). -/
def assignCmd (b : Bank) (s : State) : CmdResult :=
  if s.lenSize ≠ 256#32 then .error s .lenSizeMismatch s.lenSize
  else
    match s.mem.readBytes .lenBuf 0 alphabetSize with
    | .error f => .fault f
    | .ok bytes =>
      let lens := bytes.map BitVec.toNat
      match tooLong s.params.maxLen lens with
      | some sym => .error s .lenTooLong (BitVec.ofNat 32 sym)
      | none =>
        match canonical lens with
        | .error (code, sym) => .error s code (BitVec.ofNat 32 sym)
        | .ok (t, m) => .done (s.setBank b t ⟨BitVec.ofNat 8 m, true⟩)

/-- ASSIGN into bank `b` (R240), through its completion (R158). -/
def execAssign (b : Bank) (s : State) : Host.Outcome State Fault Refusal := (assignCmd b s).finish

end Sys2Proof.Machine
end

