-- ==== Sys2Proof/Machine/BlockDecode.lean ====
section
/-! DEFINITION. DECODE, the BlockDecoder: the invocation checks, the bit walk of one block, one engine's iteration, and
the completion of the command (spec R300 to R318). -/

namespace Sys2Proof.Machine

/-- What every block of one DECODE shares, read-only (R98, R303, R314): the table, its maximum length, W, total_bits and
the block counts. -/
structure DecodeEnv where
  table : List Code
  maxlen : Nat
  width : Nat
  totalBits : Nat
  counts : List Nat
  deriving DecidableEq, Repr

/-- The outcome of the invocation checks (R304). -/
inductive Checked where
  | pass (env : DecodeEnv)
  | error (code : ErrCode) (info : Word)
  | fault (f : Fault)
  deriving DecidableEq, Repr

/-- The least i, counted from `i`, at which the running sum from `acc` exceeds `limit` (R304). -/
def firstOver (limit : Nat) : (i acc : Nat) → List Nat → Option Nat
  | _, _, [] => none
  | i, acc, n :: ns => if limit < acc + n then some i else firstOver limit (i + 1) (acc + n) ns

/-- W is one of 8, 16, 32 (R12, R43). -/
def legalWidth (w : Nat) : Bool := w == 8 || w == 16 || w == 32

/-- TRAILING is inconsistent with the declared words (R304). -/
def badTrailing (words trailing width : Nat) : Bool :=
  (decide (0 < words) && decide (width ≤ trailing)) || (decide (words = 0) && decide (trailing ≠ 0))

/-- InvocationChecks(b), in the order of R304. -/
def invocationChecks (b : Bank) (s : State) : Checked :=
  if (s.info b).valid = false then .error .noTable (BitVec.ofNat 32 (bankNumber b))
  else if legalWidth s.wordWidth.toNat = false then .error .badWordWidth s.wordWidth
  else if s.params.maxStreamWords < s.streamWords.toNat then .error .streamTooLong s.streamWords
  else if s.params.maxBlocks < s.numBlocks.toNat then .error .tooManyBlocks s.numBlocks
  else
    match s.mem.readElems .blkCount 0 s.numBlocks.toNat with
    | .error f => .fault f
    | .ok counts =>
      match firstOver s.params.maxOutBytes 0 0 counts with
      | some i => .error .outputTooLong (BitVec.ofNat 32 i)
      | none =>
        if badTrailing s.streamWords.toNat s.trailing.toNat s.wordWidth.toNat then .error .badTrailing s.trailing
        else
          .pass
            { table := s.table b, maxlen := (s.info b).maxlen.toNat, width := s.wordWidth.toNat,
              totalBits := s.streamWords.toNat * s.wordWidth.toNat - s.trailing.toNat, counts := counts }

/-- BLK_COUNT[i] of the DECODE. -/
def DecodeEnv.count (env : DecodeEnv) (i : Nat) : Nat := env.counts.getD i 0

/-- base_i: the sum of the counts of the blocks before block `i` (R308). -/
def DecodeEnv.base (env : DecodeEnv) (i : Nat) : Nat := (env.counts.take i).sum

/-- StreamBit(p) of R88: bit W-1-(p mod W) of packed word p div W; `none` when the slot is unwritten. -/
def streamBit (m : Memory) (w p : Nat) : Option Nat :=
  (m.readElem .stream (p / w)).map fun v => (v.toNat >>> (w - 1 - p % w)) % 2

/-- The symbol whose codelength is `l` and codeword `c`, if there is one (R306). A valid table has at most one (R52); the
least is taken (log 25). -/
def findSymbol (t : List Code) (l c : Nat) : Option Nat :=
  t.findIdx? fun e => decide (e.len.toNat = l) && decide (e.cw.toNat = c)

/-- The result entries of a block that ends (R310, R311): BLK_STATUS, BLK_ERRPOS (0 when OK), BLK_DONE, BLK_END. -/
def endBlock (r : BlockEnd) (w : Walk) (m : Memory) : Memory :=
  (((m.writeElem .blkStatus w.block (blockStatus r)).writeElem .blkErrpos w.block
      (if r = .ok then 0#32 else BitVec.ofNat 32 w.q)).writeElem .blkDone w.block
      (BitVec.ofNat 32 w.k)).writeElem .blkEnd w.block (BitVec.ofNat 32 w.p)

/-- What one iteration of the loop of R306 leads to. -/
inductive Iter where
  | running (w : Walk) (m : Memory)
  | ended (m : Memory)
  | fault (f : Fault)
  deriving DecidableEq, Repr

/-- The loop body of R306 after its bit is read: a match emits its symbol (R307), an unmatched codeword of length maxlen
ends the block with BAD_CODE (R310), any other goes on. -/
def DecodeEnv.takeBit (env : DecodeEnv) (w : Walk) (m : Memory) (bit : Nat) : Iter :=
  let w' : Walk := { w with p := w.p + 1, c := 2 * w.c + bit, l := w.l + 1 }
  match findSymbol env.table w'.l w'.c with
  | some sym =>
    .running { w' with k := w.k + 1, c := 0, l := 0, q := w'.p }
      (m.setRange (Arr.base .outBuf + (w.base + w.k)) [BitVec.ofNat 8 sym])
  | none => if env.maxlen ≤ w'.l then .ended (endBlock .badCode w' m) else .running w' m

/-- One iteration of the loop of R306: an engine's step (R305). The bit position is tested before each read. -/
def DecodeEnv.iterate (env : DecodeEnv) (w : Walk) (m : Memory) : Iter :=
  if w.k < env.count w.block then
    if env.totalBits ≤ w.p then .ended (endBlock .truncated w m)
    else
      match streamBit m env.width w.p with
      | none => .fault (.unwritten .stream (w.p / env.width))
      | some bit => env.takeBit w m bit
  else .ended (endBlock .ok w m)

/-- The rest of a block's walk, with `n` stream bits left from the cursor: with none left the block ends, TRUNCATED or OK
(R306, R310). -/
def DecodeEnv.finishWalk (env : DecodeEnv) : (n : Nat) → Walk → Memory → Except Fault Memory
  | 0, w, m => .ok (endBlock (if w.k < env.count w.block then .truncated else .ok) w m)
  | n + 1, w, m =>
    match env.iterate w m with
    | .ended m' => .ok m'
    | .fault f => .error f
    | .running w' m' => finishWalk env n w' m'

/-- The start of block `i`: the cursor at BLK_OFFSET[i], nothing read, nothing emitted (R306). -/
def DecodeEnv.startWalk (env : DecodeEnv) (i : Nat) (m : Memory) : Except Fault Walk :=
  match m.readElem .blkOffset i with
  | none => .error (.unwritten .blkOffset i)
  | some off => .ok { block := i, p := off.toNat, c := 0, l := 0, k := 0, q := off.toNat, base := env.base i }

/-- DecodeBlock(i) of R306, from start to finish. -/
def DecodeEnv.decodeBlock (env : DecodeEnv) (i : Nat) (m : Memory) : Except Fault Memory :=
  match env.startWalk i m with
  | .error f => .error f
  | .ok w => env.finishWalk (env.totalBits - w.p) w m

/-- The walks the engines have begun, finished one after another. -/
def DecodeEnv.finishEngines (env : DecodeEnv) : List (Option Walk) → Memory → Except Fault Memory
  | [], m => .ok m
  | none :: es, m => finishEngines env es m
  | some w :: es, m =>
    match env.finishWalk (env.totalBits - w.p) w m with
    | .error f => .error f
    | .ok m' => finishEngines env es m'

/-- The blocks of a list, decoded one after another. -/
def DecodeEnv.decodeBlocks (env : DecodeEnv) : List Nat → Memory → Except Fault Memory
  | [], m => .ok m
  | i :: is, m =>
    match env.decodeBlock i m with
    | .error f => .error f
    | .ok m' => decodeBlocks env is m'

/-- Every block not yet finished: first those in an engine, then those no engine has taken (R162, R312, log 2). -/
def DecodeEnv.finishAll (env : DecodeEnv) (s : State) : Except Fault Memory :=
  match env.finishEngines s.engines s.mem with
  | .error f => .error f
  | .ok m =>
    env.decodeBlocks ((List.range env.counts.length).filter (fun i => !s.taken.contains i)) m

/-- The blocks below `n` whose BLK_STATUS is not OK, in ascending order (R300). -/
def failingBlocks (m : Memory) (n : Nat) : List Nat :=
  (List.range n).filter fun i => decide (m.readElem .blkStatus i ≠ some (blockStatus .ok))

/-- The error of a failing block, from its BLK_STATUS (R300, R313). -/
def failureCode (m : Memory) (i : Nat) : ErrCode :=
  if m.readElem .blkStatus i = some (blockStatus .truncated) then .truncated else .badCode

/-- The engines idle, as at completion (R373). -/
def State.idleEngines (s : State) : State :=
  { s with engines := List.replicate s.engines.length none, taken := [] }

/-- DECODE's rule (R300): the checks, every block, OUT_LEN and BLK_FAILS (R313), and the least failing block's error. -/
def decodeRule (b : Bank) (s : State) : CmdResult :=
  match invocationChecks b s with
  | .fault f => .fault f
  | .error code info => .error s code info
  | .pass env =>
    match env.finishAll s with
    | .error f => .fault f
    | .ok m =>
      let fails := failingBlocks m env.counts.length
      let s' : State :=
        { s.idleEngines with
          mem := m, outLen := BitVec.ofNat 32 env.counts.sum, blkFails := BitVec.ofNat 32 fails.length }
      match fails with
      | [] => .done s'
      | i :: _ => .error s' (failureCode m i) (BitVec.ofNat 32 i)

/-- DECODE with the table of bank `b` (R300), through its completion (R158). -/
def execDecode (b : Bank) (s : State) : Host.Outcome State Fault Refusal := (decodeRule b s).finish

end Sys2Proof.Machine
end

