-- ==== Sys2Proof/Machine/Count.lean ====
section
/-! DEFINITION. COUNT, the FrequencyCounter (spec R190 to R195). -/

namespace Sys2Proof.Machine

/-- cnt[s] of R192: how many of the bytes are the symbol `s`. Local to COUNT (R61, log 14). -/
def symbolCount (data : List Byte) (s : Nat) : Nat := data.count (BitVec.ofNat 8 s)

/-- The sort key of R193: count ascending, equal counts by symbol ascending. -/
def freqOrder (x y : FreqEntry) : Bool :=
  decide (x.cnt.toNat < y.cnt.toNat) || (decide (x.cnt.toNat = y.cnt.toNat) && decide (x.sym.toNat ≤ y.sym.toNat))

/-- The pairs (s, cnt[s]) with a count above 0, in symbol order (R190). -/
def countPairs (data : List Byte) : List FreqEntry :=
  (List.range alphabetSize).filterMap fun s =>
    if 0 < symbolCount data s then some ⟨BitVec.ofNat 8 s, BitVec.ofNat 32 (symbolCount data s)⟩ else none

/-- The frequency list of a byte sequence (R190, R193). -/
def countList (data : List Byte) : List FreqEntry :=
  (countPairs data).insertionSort (fun x y => freqOrder x y = true)

/-- COUNT's rule (R190): the size check first (R191), then the list into FREQ_N, FREQ_SYM and FREQ_CNT (R194). -/
def countCmd (s : State) : CmdResult :=
  if s.params.maxDataBytes < s.dataLen.toNat then .error s .dataTooLong s.dataLen
  else
    match s.mem.readBytes .dataBuf 0 s.dataLen.toNat with
    | .error f => .fault f
    | .ok data => .done { s with freq := countList data }

/-- COUNT (R190), through its completion (R158). -/
def execCount (s : State) : Host.Outcome State Fault Refusal := (countCmd s).finish

end Sys2Proof.Machine
end

