-- ==== Sys2Proof/Machine/Tree.lean ====
section
/-! DEFINITION. TREE, the TreeBuilder: Huffman merge and depth assignment (spec R210 to R218). -/

namespace Sys2Proof.Machine

/-- A node of the tree: a leaf holds one symbol, an internal node owns two children (R62, R215). -/
inductive Tree where
  | leaf (sym : Nat)
  | internal (left right : Tree)
  deriving DecidableEq, Repr

/-- An entry of the heap: (frequency, sequence number, node) (R62, R214). -/
structure HeapEntry where
  freq : Nat
  seq : Nat
  node : Tree
  deriving DecidableEq, Repr

/-- The heap's key order: frequency, then sequence number (R214). -/
def heapOrder (x y : HeapEntry) : Bool :=
  decide (x.freq < y.freq) || (decide (x.freq = y.freq) && decide (x.seq ≤ y.seq))

/-- The heap is kept as a list with the least key first; popmin takes its head (R19). -/
def pushHeap (e : HeapEntry) (h : List HeapEntry) : List HeapEntry :=
  h.orderedInsert (fun x y => heapOrder x y = true) e

/-- The leaves' entries, pushed in frequency-list order with sequence numbers from `i` (R214). -/
def pushLeaves : (i : Nat) → List FreqEntry → List HeapEntry → List HeapEntry
  | _, [], h => h
  | i, e :: es, h => pushLeaves (i + 1) es (pushHeap ⟨e.cnt.toNat, i, .leaf e.sym.toNat⟩ h)

/-- The merge loop (R215): while more than one entry remains, the two least become one. `rounds` bounds the loop: each
merge leaves one entry less, so the number of entries is enough. -/
def mergeHeap : (rounds next : Nat) → List HeapEntry → List HeapEntry
  | 0, _, h => h
  | rounds + 1, next, a :: b :: rest =>
    mergeHeap rounds (next + 1) (pushHeap ⟨a.freq + b.freq, next, .internal a.node b.node⟩ rest)
  | _ + 1, _, h => h

/-- The (symbol, depth) pairs of the leaves below a node at depth `d` (R216). -/
def leafDepths (d : Nat) : Tree → List (Nat × Nat)
  | .leaf s => [(s, d)]
  | .internal x y => leafDepths (d + 1) x ++ leafDepths (d + 1) y

/-- The depths the tree builder yields for a frequency list: none for no symbol (R212), 1 for a single symbol (R213), the
leaves' depths below the root otherwise (R216). -/
def treeDepths (l : List FreqEntry) : List (Nat × Nat) :=
  match l with
  | [] => []
  | [e] => [(e.sym.toNat, 1)]
  | es =>
    match mergeHeap es.length es.length (pushLeaves 0 es []) with
    | [] => []
    | root :: _ => leafDepths 0 root.node

/-- D[s] of R210: the depth of symbol `s`, 0 when it has no leaf. -/
def depthOf (ds : List (Nat × Nat)) (s : Nat) : Nat := (ds.lookup s).getD 0

/-- The 256 bytes TREE writes to LEN_BUF (R216). -/
def treeLens (l : List FreqEntry) : List Byte :=
  let ds := treeDepths l
  (List.range alphabetSize).map fun s => BitVec.ofNat 8 (depthOf ds s)

/-- TREE's rule (R210): all of LEN_BUF (R216) and LEN_SIZE = 256 (R217). It raises no error (R218). -/
def treeCmd (s : State) : State :=
  { s with mem := s.mem.setRange (Arr.base .lenBuf) (treeLens s.freq), lenSize := 256#32 }

/-- TREE (R210), through its completion (R158). -/
def execTree (s : State) : Host.Outcome State Fault Refusal := (CmdResult.done (treeCmd s)).finish

end Sys2Proof.Machine
end

