-- ==== Sys2Proof/Machine/Build.lean ====
section
/-! DEFINITION. BUILD, the frequency-based table constructor (spec R250 to R252). -/

namespace Sys2Proof.Machine

/-- BUILD's rule (R250): COUNT, TREE, ASSIGN. COUNT's error ends it; each stage's writes persist when a later stage fails
(R252). -/
def buildCmd (b : Bank) (s : State) : CmdResult :=
  match countCmd s with
  | .done s1 => assignCmd b (treeCmd s1)
  | r => r

/-- BUILD into bank `b` (R250), through its completion (R158). -/
def execBuild (b : Bank) (s : State) : Host.Outcome State Fault Refusal := (buildCmd b s).finish

end Sys2Proof.Machine
end

