-- ==== Sys2Proof/Machine/Compare.lean ====
section
/-! DEFINITION. COMPARE, equality of the two banks (spec R280 to R284). -/

namespace Sys2Proof.Machine

/-- Whether every one of the 256 entries agrees, cw and len bit for bit (R283). -/
def sameEntries (t0 t1 : List Code) : Bool :=
  (List.range alphabetSize).all fun s => decide (t0[s]? = t1[s]?)

/-- COMPARE's rule (R280): NO_TABLE for bank 0, then for bank 1 (R282), else EQUAL (R281). -/
def compareCmd (s : State) : CmdResult :=
  if s.info0.valid = false then .error s .noTable 0#32
  else if s.info1.valid = false then .error s .noTable 1#32
  else .done { s with status := { s.status with equal := sameEntries s.table0 s.table1 } }

/-- COMPARE (R280), through its completion (R158). -/
def execCompare (s : State) : Host.Outcome State Fault Refusal := (compareCmd s).finish

end Sys2Proof.Machine
end

