-- ==== Sys2Proof/Machine/Dispatch.lean ====
section
/-! DEFINITION. The dispatch of a command in progress to its meaning, one arm per constructor of Instr: the controller's
execution and completion of the command (spec R122, R158, R162). -/

namespace Sys2Proof.Machine

def exec (i : Instr) (s : State) : Host.Outcome State Fault Refusal :=
  match i with
  | .assign tb => Sys2Proof.Machine.execAssign tb s
  | .count => Sys2Proof.Machine.execCount s
  | .tree => Sys2Proof.Machine.execTree s
  | .build tb => Sys2Proof.Machine.execBuild tb s
  | .decode tb => Sys2Proof.Machine.execDecode tb s
  | .compare => Sys2Proof.Machine.execCompare s

end Sys2Proof.Machine
end

