-- ==== Sys2Proof/Machine/Engine.lean ====
section
/-! DEFINITION. One step of a decode engine (spec R305, R306, R373). -/

namespace Sys2Proof.Machine

/-- Engine `e` with its state replaced. -/
def State.setEngine (s : State) (e : Nat) (w : Option Walk) : State :=
  { s with engines := s.engines.set e w }

/-- An idle engine takes block `pick`, if it is a block of the DECODE that no engine has taken (R305, log 13). -/
def takeBlock (env : DecodeEnv) (e pick : Nat) (s : State) : Host.Outcome State Fault Refusal :=
  if pick < env.counts.length ∧ s.taken.contains pick = false then
    match env.startWalk pick s.mem with
    | .error f => .fault f
    | .ok w => .next { s.setEngine e (some w) with taken := pick :: s.taken }
  else .next s

/-- An engine in a walk makes one iteration of R306's loop; when its block ends it is idle. -/
def stepWalk (env : DecodeEnv) (e : Nat) (w : Walk) (s : State) : Host.Outcome State Fault Refusal :=
  match env.iterate w s.mem with
  | .fault f => .fault f
  | .ended m => .next { s.setEngine e none with mem := m }
  | .running w' m => .next { s.setEngine e (some w') with mem := m }

/-- The turn of engine `e`. Engines act only while a DECODE that passes its invocation checks is in progress (R373); else
nothing happens. -/
def engineTurn (e pick : Nat) (s : State) : Host.Outcome State Fault Refusal :=
  match s.cur with
  | some (.decode b) =>
    match invocationChecks b s with
    | .pass env =>
      match s.engines[e]? with
      | some none => takeBlock env e pick s
      | some (some w) => stepWalk env e w s
      | none => .next s
    | .error _ _ => .next s
    | .fault _ => .next s
  | _ => .next s

end Sys2Proof.Machine
end

