-- ==== Sys2Proof/Machine/Turn.lean ====
section
/-! DEFINITION. The turns: who makes the next indivisible step and what it does (spec R165, R356, R390). -/

namespace Sys2Proof.Machine

/-- The controller's turn: the command in progress is executed and completes (R158, R162); with none, nothing. -/
def controllerTurn (s : State) : Host.Outcome State Fault Refusal :=
  match s.cur with
  | some i => exec i s
  | none => .next s

/-- Whose turn it is when the schedule names nobody: the controller's while BUSY, so that every command completes (R159),
else the host's (log 1). -/
def State.defaultTurn (s : State) : Turn := if s.busy then .controller else .host

/-- The step of the agent whose turn it is. -/
def runTurn (t : Turn) (s : State) : Host.Outcome State Fault Refusal :=
  match t with
  | .host => hostTurn s
  | .controller => controllerTurn s
  | .engine e pick => engineTurn e pick s
  | .reset => .next s.platformReset

/-- The next turn of the schedule, or the default turn. -/
def takeTurn (s : State) : Host.Outcome State Fault Refusal :=
  match s.schedule with
  | [] => runTurn s.defaultTurn s
  | t :: rest => runTurn t { s with schedule := rest }

/-- The state with the command `i` accepted and the controller's turn next (R156). -/
def State.withCommand (i : Instr) (s : State) : State := { s.accept i with schedule := [] }

/-- The state in which the host's next access, and the next step, is the write of `v` to CMD (R155). -/
def State.withCommandWord (v : Word) (s : State) : State :=
  { s with cur := none, schedule := [], script := [.write cmdOffset 4 v] }

end Sys2Proof.Machine
end

