-- ==== Sys2Proof/Machine/Step.lean ====
section
/-! DEFINITION. One step of HUFF-CORE and its surroundings, and how a command word is placed to be run next. -/

namespace Sys2Proof.Machine

/-- One indivisible step of one agent (spec R356). -/
def step (s : State) : Host.Outcome State Fault Refusal := takeTurn s

/-- The state in which the very next step runs the command of a table word: HUFF-CORE fetches nothing, so the command
stands where the controller takes it from, accepted as R156 says (log 19). A word that is no command is left as the
host's next write to CMD, which the next step rejects (R157). -/
def State.withFetchWord (s : State) (nbits w : Nat) : State :=
  match decodeTableWord nbits w with
  | some i => s.withCommand i
  | none => s.withCommandWord (BitVec.ofNat 32 w)

end Sys2Proof.Machine
end

