-- ==== Sys2Proof/Safety.lean ====
section
/-! DEFINITION. What a good state and a safe run are, in the terms the claims use: the invariant of HUFF-CORE, what the
report, the frequency list, the banks and the engines look like between steps, and codes as bit strings. -/

namespace Sys2Proof.Machine

/-- A byte address that belongs to some element of an array, within its capacity (spec R81, R82). -/
def inArrays (p : Params) (x : Nat) : Bool :=
  allArrays.any fun arr => decide (arr.base ≤ x) && decide (x < arr.base + arr.bytes p)

/-- Memory is in its canonical form and holds bytes of the arrays only (R81, R82). -/
def State.memOk (s : State) : Prop := s.mem.wf ∧ ∀ c ∈ s.mem, inArrays s.params c.1 = true

/-- The report (R36, R37, R39): ERR = 1 exactly when ERR_CLASS is not 0; without an error ERR_CODE and ERR_INFO are 0;
with one, class and code are those of a row of R352; while BUSY, DONE and ERR are 0 (R156). -/
def State.reportOk (s : State) : Prop :=
  (s.status.err = true ↔ s.status.errClass ≠ 0#3) ∧
  (s.status.err = false → s.status.errCode = 0#8 ∧ s.errInfo = 0#32) ∧
  (s.status.err = true → ∃ code, s.status.errCode = codeBits code ∧ s.status.errClass = classBits (codeBits code)) ∧
  (s.busy = true → s.status.done = false ∧ s.status.err = false)

/-- The strict order of the frequency list: count ascending, symbol ascending among equal counts (R193). -/
abbrev freqLt (x y : FreqEntry) : Prop :=
  x.cnt.toNat < y.cnt.toNat ∨ (x.cnt.toNat = y.cnt.toNat ∧ x.sym.toNat < y.sym.toNat)

/-- The invariants of the frequency list (R195): counts above 0, symbols distinct, the order of R193; and the counts sum
to at most MAX_DATA_BYTES (R215). -/
def State.freqOk (s : State) : Prop :=
  s.freq.Pairwise freqLt ∧ (s.freq.map FreqEntry.sym).Nodup ∧ (∀ e ∈ s.freq, 0 < e.cnt.toNat) ∧
    (s.freq.map (fun e => e.cnt.toNat)).sum ≤ s.params.maxDataBytes

/-- The codelengths of a table. -/
def tableLens (t : List Code) : List Nat := t.map fun e => e.len.toNat

/-- A VALID bank (R52): 256 entries, every codelength below MAXLEN, the entries and MAXLEN_USED those of the canonical
assignment of its own codelengths. -/
def State.bankOk (s : State) (b : Bank) : Prop :=
  (s.info b).valid = true →
    (s.table b).length = alphabetSize ∧ (∀ l ∈ tableLens (s.table b), l < s.params.maxLen) ∧
      canonical (tableLens (s.table b)) = .ok (s.table b, (s.info b).maxlen.toNat)

/-- The blocks in the engines' hands. -/
def activeBlocks (es : List (Option Walk)) : List Nat := es.filterMap fun e => e.map Walk.block

/-- A walk under way (R64, R306): it works on a block of the DECODE, at that block's output base, has emitted no more
than its count, and its cursor and running codeword fit their widths. -/
def DecodeEnv.walkOk (env : DecodeEnv) (w : Walk) : Prop :=
  w.block < env.counts.length ∧ w.base = env.base w.block ∧ w.k ≤ env.count w.block ∧
    w.p < 2 ^ 32 ∧ w.q ≤ w.p ∧ w.c < 2 ^ w.l ∧ (w.l = 0 ∨ w.l < env.maxlen)

/-- A finished block has one of the three BLK_STATUS values (R55). -/
def blockFinished (m : Memory) (i : Nat) : Prop := ∃ r : BlockEnd, m.readElem .blkStatus i = some (blockStatus r)

/-- The engines during a DECODE (R305, R311): no block is in two hands, every block taken is under way or finished. -/
def State.decodingOk (s : State) (env : DecodeEnv) : Prop :=
  s.taken.Nodup ∧ (∀ i ∈ s.taken, i < env.counts.length) ∧
    (activeBlocks s.engines).Nodup ∧ (∀ i ∈ activeBlocks s.engines, i ∈ s.taken) ∧
    (∀ w, some w ∈ s.engines → env.walkOk w) ∧
    (∀ i ∈ s.taken, i ∉ activeBlocks s.engines → blockFinished s.mem i)

/-- Every engine is idle and no block is taken. -/
def State.allIdle (s : State) : Prop := (∀ e ∈ s.engines, e = none) ∧ s.taken = []

/-- The engines act only while a DECODE that passes its invocation checks is in progress (R373); there are NUM_ENGINES of
them (R12). -/
def State.enginesOk (s : State) : Prop :=
  s.engines.length = s.params.numEngines ∧
    (match s.cur with
     | some (.decode b) =>
       match invocationChecks b s with
       | .pass env => s.decodingOk env
       | .error _ _ => s.allIdle
       | .fault _ => s.allIdle
     | _ => s.allIdle)

/-- The invariant of HUFF-CORE: it holds at reset and every step keeps it. -/
structure State.Inv (s : State) : Prop where
  params : s.params.wf = true
  mem : s.memOk
  report : s.reportOk
  freq : s.freqOk
  banks : ∀ b, s.bankOk b
  engines : s.enginesOk

/-- The bits of a codeword, most significant first (R129). -/
def codeString (e : Code) : List Bool := (List.range e.len.toNat).map fun j => e.cw.getLsbD (e.len.toNat - 1 - j)

/-- No present codeword is a prefix of another symbol's (R21, R52). -/
def prefixFree (t : List Code) : Prop :=
  ∀ i j, ∀ (hi : i < t.length) (hj : j < t.length), i ≠ j → t[i].len ≠ 0#8 → t[j].len ≠ 0#8 →
    ¬ codeString t[i] <+: codeString t[j]

/-- The stream bits of a symbol sequence under a table: the concatenation of its codewords (R129). -/
def encodeSymbols (t : List Code) (xs : List Nat) : List Bool :=
  xs.flatMap fun x => codeString (t.getD x absentCode)

/-- The sum of 2^(M - l) over the non-zero lengths: 2^M times the sum of 2^(-l) (R218). -/
def kraft (m : Nat) (lens : List Nat) : Nat := (lens.map fun l => if l = 0 then 0 else 2 ^ (m - l)).sum

/-- The state in which a command has ended with an error and has written nothing but STATUS and ERR_INFO (R353, R354). -/
def State.failed (s : State) (cls : BitVec 3) (code : BitVec 8) (info : Word) : State :=
  { s with
    cur := none, errInfo := info,
    status := { s.status with done := true, err := true, errClass := cls, errCode := code } }

/-- The state in which a command has ended without an error and has written nothing but STATUS (R158). -/
def State.succeeded (s : State) : State := { s with cur := none, status := { s.status with done := true } }

/-- The input locations, as R152 lists them. -/
def isInputLocation : Location → Bool
  | .reg .dataLen => true
  | .reg .lenSize => true
  | .reg .streamWords => true
  | .reg .trailing => true
  | .reg .wordWidth => true
  | .reg .numBlocks => true
  | .array .lenBuf _ => true
  | .array .dataBuf _ => true
  | .array .stream _ => true
  | .array .blkOffset _ => true
  | .array .blkCount _ => true
  | _ => false

/-- All four bytes of the location lie within the capacity; true of every location that is no array word (R82). -/
def wholeWord (p : Params) : Location → Bool
  | .array a i => decide (i + 4 ≤ a.bytes p)
  | _ => true

/-- The offsets the address map lists as reserved (R81). -/
def reservedOffset (o : Nat) : Prop :=
  (0x60 ≤ o ∧ o < 0x1000) ∨ (0x1100 ≤ o ∧ o < 0x2000) ∨ (0x2800 ≤ o ∧ o < 0x3000) ∨ (0x4000 ≤ o ∧ o < 0x10000) ∨
    (0x28000 ≤ o ∧ o < 0x100000)

/-- The elements a command may find unwritten, by array (R392). -/
def readsArray (i : Instr) (a : Arr) : Bool :=
  match i with
  | .assign _ => decide (a = .lenBuf)
  | .count => decide (a = .dataBuf)
  | .tree => false
  | .build _ => decide (a = .dataBuf)
  | .decode _ => decide (a = .blkCount) || decide (a = .blkOffset) || decide (a = .stream)
  | .compare => false

/-- Element `n` of an array is unwritten (R392). -/
def elementUnwritten (m : Memory) (a : Arr) (n : Nat) : Prop :=
  match a with
  | .lenBuf => m.read (Arr.base .lenBuf + n) = none
  | .dataBuf => m.read (Arr.base .dataBuf + n) = none
  | .outBuf => m.read (Arr.base .outBuf + n) = none
  | a => m.readElem a n = none

/-- The bytes of an array from element 0 are exactly `bs`. -/
def holdsBytes (m : Memory) (a : Arr) (bs : List Byte) : Prop :=
  ∀ k, k < bs.length → m.read (a.base + k) = bs[k]?

/-- The elements of a word array from element 0 are exactly `vs`. -/
def holdsWords (m : Memory) (a : Arr) (vs : List Word) : Prop :=
  ∀ k, k < vs.length → m.readElem a k = vs[k]?

/-- An address that belongs to a result entry of a block below `n` (R55). -/
def inResultEntry (n x : Nat) : Prop :=
  ∃ i, i < n ∧ ((Arr.base .blkStatus + 4 * i ≤ x ∧ x < Arr.base .blkStatus + 4 * i + 4) ∨
    (Arr.base .blkErrpos + 4 * i ≤ x ∧ x < Arr.base .blkErrpos + 4 * i + 4) ∨
    (Arr.base .blkDone + 4 * i ≤ x ∧ x < Arr.base .blkDone + 4 * i + 4) ∨
    (Arr.base .blkEnd + 4 * i ≤ x ∧ x < Arr.base .blkEnd + 4 * i + 4))

/-- The heap's key order, spelled out (R214): the lesser frequency first and, among equal frequencies, the lesser sequence
number. -/
abbrev keyLe (x y : HeapEntry) : Prop := x.freq < y.freq ∨ (x.freq = y.freq ∧ x.seq ≤ y.seq)

/-- `ps` is the list of the present (symbol, length) pairs in the order of R243: length descending, symbol ascending. -/
def inAssignOrder (lens : List Nat) (ps : List (Nat × Nat)) : Prop :=
  (∀ sym l, (sym, l) ∈ ps ↔ lens[sym]? = some l ∧ l ≠ 0) ∧
    ps.Pairwise (fun x y => y.2 < x.2 ∨ (x.2 = y.2 ∧ x.1 < y.1))

/-- By how much the length drops from pair `j` to pair `j + 1`. -/
def lengthDrop (ps : List (Nat × Nat)) (j : Nat) : Nat := (ps.getD j (0, 0)).2 - (ps.getD (j + 1) (0, 0)).2

/-- The codeword of pair `j` (R244, R245): 0 for the first; then the previous one plus 1, divided by 2 to the drop in
length. -/
def walkCode (ps : List (Nat × Nat)) : Nat → Nat
  | 0 => 0
  | j + 1 => (walkCode ps j + 1) / 2 ^ lengthDrop ps j

/-- Pair `j + 1` passes the checks of R246. -/
def walkPasses (ps : List (Nat × Nat)) (j : Nat) : Prop :=
  (walkCode ps j + 1) % 2 ^ lengthDrop ps j = 0 ∧ walkCode ps (j + 1) < 2 ^ (ps.getD (j + 1) (0, 0)).2

/-- Symbol `sym` of a table has codelength `l` and codeword `c` (R306). -/
def isEntry (t : List Code) (sym l c : Nat) : Prop := ∃ e, t[sym]? = some e ∧ e.len.toNat = l ∧ e.cw.toNat = c

/-- Block `i` has ended with the given result entries (R306, R310), and memory `m'` differs from `m` in them only. -/
def blockEnded (m m' : Memory) (i : Nat) (status errpos done stop : Word) : Prop :=
  m'.readElem .blkStatus i = some status ∧ m'.readElem .blkErrpos i = some errpos ∧
    m'.readElem .blkDone i = some done ∧ m'.readElem .blkEnd i = some stop ∧
    ∀ x, (∀ a ∈ [Arr.blkStatus, Arr.blkErrpos, Arr.blkDone, Arr.blkEnd], x < a.base + 4 * i ∨ a.base + 4 * i + 4 ≤ x) →
      m'.read x = m.read x

/-- The codeword value of a symbol in a table. -/
def cwOf (t : List Code) (s : Nat) : Nat := (t.getD s absentCode).cw.toNat

end Sys2Proof.Machine
end

