-- ==== Sys2Proof/Certificates/Slice0/Obligations.lean ====
section
/-! DEFINITION. The statements for the provers, each from the spec's numbered rules. -/

open Sys2Proof Sys2Proof.Machine

/-! ## Command words -/

/-- One word of each command, written out from R120 and R122: OP in bits 3:0, TB in bit 4. -/
def Obligations.SampleWordsDecode : Prop :=
  decodeCmd 0b00000000000000000000000000010001#32 = some (.assign .bank1) ∧
  decodeCmd 0b00000000000000000000000000000010#32 = some .count ∧
  decodeCmd 0b00000000000000000000000000000011#32 = some .tree ∧
  decodeCmd 0b00000000000000000000000000010100#32 = some (.build .bank1) ∧
  decodeCmd 0b00000000000000000000000000000101#32 = some (.decode .bank0) ∧
  decodeCmd 0b00000000000000000000000000000110#32 = some .compare

/-- The decoder and the encoder agree on all 32-bit words and all commands: the word of a command decodes to it, and no
other word does (R120, R124, R125). -/
def Obligations.DecodeIffEncode : Prop :=
  ∀ (v : Word) (i : Instr), decodeCmd v = some i ↔ encode i = v

/-- The nine legal command words and their commands (R126). -/
def Obligations.NineLegalWords : Prop :=
  (∀ v : Word, (decodeCmd v).isSome = true ↔
    v ∈ [0x01#32, 0x11#32, 0x02#32, 0x03#32, 0x04#32, 0x14#32, 0x05#32, 0x15#32, 0x06#32]) ∧
  decodeCmd 0x01#32 = some (.assign .bank0) ∧ decodeCmd 0x11#32 = some (.assign .bank1) ∧
  decodeCmd 0x02#32 = some .count ∧ decodeCmd 0x03#32 = some .tree ∧
  decodeCmd 0x04#32 = some (.build .bank0) ∧ decodeCmd 0x14#32 = some (.build .bank1) ∧
  decodeCmd 0x05#32 = some (.decode .bank0) ∧ decodeCmd 0x15#32 = some (.decode .bank1) ∧
  decodeCmd 0x06#32 = some .compare

/-- R123: which words are illegal, and that an illegal word written while BUSY = 0 is rejected with CommandError
ILLEGAL_CMD, starts nothing and changes no state but STATUS and ERR_INFO. -/
def Obligations.IllegalWordsRejected : Prop :=
  (∀ v : Word, decodeCmd v = none ↔
    (v.extractLsb' 0 4 = 0#4 ∨ 7 ≤ (v.extractLsb' 0 4).toNat ∨ v.extractLsb' 5 27 ≠ 0#27 ∨
      (v.extractLsb' 0 4 ∈ [2#4, 3#4, 6#4] ∧ v.getLsbD 4 = true))) ∧
  (∀ (v : Word) (s : State), decodeCmd v = none → s.cur = none →
    ∃ st : Status, s.commandWrite v = { s with status := st, errInfo := v } ∧
      st.err = true ∧ st.errClass = 4#3 ∧ st.errCode = 0x01#8)

/-! ## Steps -/

/-- What a step runs: with a command in progress and the controller's turn next, `exec` of that command; an idle block
whose next access is the write of a legal word to CMD accepts it, and the step after that is `exec` of the word's
command. The schedule and the default turn, the one-step execution and the host's script are the model's choice (log 1,
log 2, log 3). -/
def Obligations.StepRunsCommand : Prop :=
  (∀ (s : State) (i : Instr), s.cur = some i → s.schedule = [] → step s = exec i s) ∧
  (∀ (s : State) (i : Instr) (ts : List Turn), s.cur = some i → s.schedule = .controller :: ts →
    step s = exec i { s with schedule := ts }) ∧
  (∀ (s : State) (v : Word) (i : Instr) (ops : List HostOp), s.cur = none → s.schedule = [] →
    s.script = .write cmdOffset 4 v :: ops → decodeCmd v = some i →
    ∃ s1, step s = .next s1 ∧ s1.cur = some i ∧ step s1 = exec i s1)

/-- R156: the acceptance of a legal command word is one step that clears the report and ERR_INFO, sets `cur` and BUSY, and
keeps EQUAL, OVERRUN and everything else. That the very next step executes the command is the model's choice, its default
turn and its one-step execution (log 1, log 2), no rule of the spec. -/
def Obligations.AcceptLegalWord : Prop :=
  ∀ (s : State) (v : Word) (i : Instr) (ops : List HostOp), s.cur = none → s.schedule = [] →
    s.script = .write cmdOffset 4 v :: ops → decodeCmd v = some i →
    ∃ t, step s = .next t ∧ t.busy = true ∧ step t = exec i t ∧
      t = { s with
        script := ops, cur := some i, errInfo := 0#32,
        status := { done := false, err := false, equal := s.status.equal, overrun := s.status.overrun,
                    errClass := 0#3, errCode := 0#8 } }

/-- R157: the rejection of an illegal command word is one step; ERR, class 4, code 0x01, ERR_INFO = the word, DONE, BUSY
stays 0, EQUAL, OVERRUN and everything else keep their values; and the rule's example. -/
def Obligations.RejectIllegalWord : Prop :=
  (∀ (s : State) (v : Word) (ops : List HostOp), s.cur = none → s.schedule = [] →
    s.script = .write cmdOffset 4 v :: ops → decodeCmd v = none →
    ∃ t, step s = .next t ∧ t.busy = false ∧
      t = { s with
        script := ops, errInfo := v,
        status := { done := true, err := true, equal := s.status.equal, overrun := s.status.overrun,
                    errClass := 4#3, errCode := 0x01#8 } }) ∧
  statusWord (State.reset.hostWrite cmdOffset 0x00000007#32) = 0x00010406#32 ∧
  (State.reset.hostWrite cmdOffset 0x00000007#32).errInfo = 0x00000007#32

/-- R402: a write to CMD while BUSY = 1 changes OVERRUN and nothing else, whatever the word. -/
def Obligations.BusyCommandWriteIgnored : Prop :=
  ∀ (s : State) (v : Word) (ops : List HostOp) (ts : List Turn), s.busy = true → s.schedule = .host :: ts →
    s.script = .write cmdOffset 4 v :: ops →
    step s = .next { s with schedule := ts, script := ops, status := { s.status with overrun := true } }

/-- R401: a write to an input location (R152) while BUSY = 1 changes OVERRUN and nothing else; CTRL and STATUS are
honoured. -/
def Obligations.BusyInputWriteIgnored : Prop :=
  (∀ (s : State) (off : BitVec 22) (v : Word), s.busy = true →
    isInputLocation (locate s.params off.toNat) = true →
    s.hostWrite off v = { s with status := { s.status with overrun := true } }) ∧
  (∀ (s : State) (v : Word), s.hostWrite 0x010#22 v = { s with ie := v.getLsbD 0 }) ∧
  (∀ (s : State) (v : Word), s.hostWrite 0x00C#22 v =
    { s with status :=
      { s.status with done := s.status.done && !v.getLsbD 1, overrun := s.status.overrun && !v.getLsbD 4 } })

/-! ## Host accesses -/

/-- A write to an input location of an idle block is read back; a write to an array leaves every register and every byte
outside the written word alone, a write to an input register changes that register alone (R40, R41, R43, R85, R92, R151). -/
def Obligations.InputWriteReadsBack : Prop :=
  (∀ (s : State) (off : BitVec 22) (v : Word), s.cur = none → isInputLocation (locate s.params off.toNat) = true →
    wholeWord s.params (locate s.params off.toNat) = true →
    (s.hostWrite off v).hostRead off = v ∧
    (∀ (a : Arr) (i : Nat), locate s.params off.toNat = .array a i →
      (∃ m, s.hostWrite off v = { s with mem := m }) ∧
      ∀ x, (x < a.base + i ∨ a.base + i + 4 ≤ x) → (s.hostWrite off v).mem.read x = s.mem.read x)) ∧
  (∀ (s : State) (v : Word), s.cur = none →
    s.hostWrite 0x018#22 v = { s with dataLen := v } ∧ s.hostWrite 0x01C#22 v = { s with lenSize := v } ∧
    s.hostWrite 0x024#22 v = { s with streamWords := v } ∧ s.hostWrite 0x028#22 v = { s with trailing := v } ∧
    s.hostWrite 0x02C#22 v = { s with wordWidth := v } ∧ s.hostWrite 0x030#22 v = { s with numBlocks := v })

/-- Read-only locations ignore a write with no other effect (R47, R50, R84): the read-only registers, the result arrays,
the frequency list and the tables. -/
def Obligations.ReadOnlyWritesIgnored : Prop :=
  ∀ (s : State) (v : Word) (off : BitVec 22), isInputLocation (locate s.params off.toNat) = false →
    locate s.params off.toNat ∉ [.reg .cmd, .reg .status, .reg .ctrl] → s.hostWrite off v = s

/-- R83: a reserved offset reads 0 and ignores writes without OVERRUN; and no admitted access stops the machine. -/
def Obligations.ReservedOffsets : Prop :=
  (∀ (s : State) (off : BitVec 22) (v : Word), reservedOffset off.toNat →
    s.hostRead off = 0#32 ∧ s.hostWrite off v = s) ∧
  (∀ (s : State) (off : BitVec 22) (v : Word) (ops : List HostOp), off.toNat % 4 = 0 →
    (∃ t, hostTurn { s with script := .read off 4 :: ops } = .next t) ∧
    (∃ t, hostTurn { s with script := .write off 4 v :: ops } = .next t))

/-- The capacity of an array (R82, R83, R85): the bytes of an array word at or beyond it read 0 and ignore writes; the bytes
below it, also of a word that straddles it, are stored by a write to an input array of an idle block and read back; and an
offset of any array's window at or beyond it reads 0 and ignores writes. -/
def Obligations.BeyondCapacity : Prop :=
  (∀ (s : State) (off : BitVec 22) (v : Word) (a : Arr) (i t : Nat), locate s.params off.toNat = .array a i → t < 4 →
    a.bytes s.params ≤ i + t →
    laneOf (s.hostRead off) t = 0#8 ∧ (s.hostWrite off v).mem.read (a.base + (i + t)) = s.mem.read (a.base + (i + t))) ∧
  (∀ (s : State) (off : BitVec 22) (v : Word) (a : Arr) (i t : Nat), s.cur = none →
    locate s.params off.toNat = .array a i → a ∈ [Arr.lenBuf, Arr.blkOffset, Arr.blkCount, Arr.dataBuf, Arr.stream] →
    t < 4 → i + t < a.bytes s.params →
    (s.hostWrite off v).mem.read (a.base + (i + t)) = some (laneOf v t) ∧
      laneOf ((s.hostWrite off v).hostRead off) t = laneOf v t) ∧
  (∀ (s : State) (off : BitVec 22) (v : Word) (a : Arr),
    a.base + a.bytes s.params ≤ off.toNat → off.toNat < a.base + a.window →
    s.hostRead off = 0#32 ∧ s.hostWrite off v = s)

/-- A host read changes nothing of HUFF-CORE (R92): only the host's script, what it got back and the counter of reads. -/
def Obligations.ReadHasNoSideEffect : Prop :=
  ∀ (s : State) (off : BitVec 22) (ops : List HostOp), off.toNat % 4 = 0 → s.script = .read off 4 :: ops →
    hostTurn s = .next
      { s with script := ops, responses := s.hostRead off :: s.responses, draws := s.draws + 1 }

/-- R80: a host access of another width, or at an offset not a multiple of 4, is refused. -/
def Obligations.UnadmittedAccessRefused : Prop :=
  ∀ (s : State) (off : BitVec 22) (n : Nat) (v : Word) (ops : List HostOp), (n ≠ 4 ∨ off.toNat % 4 ≠ 0) →
    hostTurn { s with script := .read off n :: ops } = .refused (.unadmittedAccess off n) ∧
    hostTurn { s with script := .write off n v :: ops } = .refused (.unadmittedAccess off n)

/-- R403, for a command in progress: a host read of a location it writes returns the free value of that read, whatever it
is; every other location but STATUS reads what it would read with no command in progress. The choice of the free value's
form is the model's (log 4, 11). -/
def Obligations.BusyReadsOfOutputs : Prop :=
  (∀ (s : State) (i : Instr) (off : BitVec 22), s.cur = some i →
    cmdWrites i (locate s.params off.toNat) = true → wholeWord s.params (locate s.params off.toNat) = true →
    s.hostRead off = Config.freeWord s.draws) ∧
  (∀ (s : State) (i : Instr) (off : BitVec 22), s.cur = some i →
    cmdWrites i (locate s.params off.toNat) = false → locate s.params off.toNat ≠ .reg .status →
    s.hostRead off = State.hostRead { s with cur := none } off)

/-- The frequency list through its windows (R42, R50, R81): entries below FREQ_N read the pair, later ones read 0. -/
def Obligations.FrequencyWindows : Prop :=
  ∀ (s : State) (i : Nat), s.cur = none → i < 256 → s.freq.length ≤ 256 →
    s.hostRead 0x020#22 = BitVec.ofNat 32 s.freq.length ∧
    s.hostRead (BitVec.ofNat 22 (0x2000 + 4 * i)) = (match s.freq[i]? with | some e => e.sym.setWidth 32 | none => 0#32) ∧
    s.hostRead (BitVec.ofNat 22 (0x2400 + 4 * i)) = (match s.freq[i]? with | some e => e.cnt | none => 0#32)

/-- Lookup of a symbol in a VALID bank by two host reads (R84, R285). -/
def Obligations.TableLookup : Prop :=
  ∀ (s : State) (b : Bank) (sym : Nat) (e : Code), s.cur = none → (s.info b).valid = true →
    sym < 256 → (s.table b)[sym]? = some e →
    s.hostRead (BitVec.ofNat 22 (0x3000 + 0x800 * bankNumber b + 8 * sym)) = e.cw ∧
    s.hostRead (BitVec.ofNat 22 (0x3000 + 0x800 * bankNumber b + 8 * sym + 4)) = e.len.setWidth 32

/-- R360: IRQ is CTRL.IE and STATUS.DONE; every completion and every rejection raises it if enabled, acceptance and the
acknowledgement clear it, CTRL.IE masks it. -/
def Obligations.InterruptLevel : Prop :=
  (∀ s : State, s.irq = (s.ie && s.status.done)) ∧
  (∀ (i : Instr) (s t : State), exec i s = .next t → t.irq = s.ie) ∧
  (∀ (v : Word) (s : State), s.cur = none → decodeCmd v = none → (s.commandWrite v).irq = s.ie) ∧
  (∀ (v : Word) (i : Instr) (s : State), s.cur = none → decodeCmd v = some i → (s.commandWrite v).irq = false) ∧
  (∀ (v : Word) (s : State), v.getLsbD 1 = true → (s.hostWrite 0x00C#22 v).irq = false) ∧
  (∀ (v : Word) (s : State), (s.hostWrite 0x010#22 v).irq = (v.getLsbD 0 && s.status.done))

/-! ## Reset and completion -/

/-- R390: after the reset input every register has its reset value, nothing of any array is written, the controller and
the engines are idle, whatever the state was before; the parameters stay. -/
def Obligations.ResetInput : Prop :=
  ∀ (s : State) (ts : List Turn), s.schedule = .reset :: ts →
    ∃ t, step s = .next t ∧ t.params = s.params ∧
      t.regRead .id = 0x48554646#32 ∧ t.regRead .version = 0x00070001#32 ∧ t.regRead .status = 0#32 ∧
      t.regRead .ctrl = 0#32 ∧ t.errInfo = 0#32 ∧ t.dataLen = 0#32 ∧ t.lenSize = 0#32 ∧ t.streamWords = 0#32 ∧
      t.trailing = 0#32 ∧ t.wordWidth = 0#32 ∧ t.numBlocks = 0#32 ∧ t.regRead .freqN = 0#32 ∧ t.outLen = 0#32 ∧
      t.blkFails = 0#32 ∧ t.regRead .pWordWidths = 7#32 ∧
      (∀ (free : Word) (i : Nat), t.readLocation free (.freqSym i) = 0#32 ∧ t.readLocation free (.freqCnt i) = 0#32) ∧
      t.regRead .tableInfo0 = 0#32 ∧ t.regRead .tableInfo1 = 0#32 ∧
      (∀ x, t.mem.read x = none) ∧ t.cur = none ∧ (∀ e ∈ t.engines, e = none) ∧ t.irq = false

/-- Every command ends: its execution is a completion step, after which BUSY = 0 and DONE = 1, or the fault of a read of
an unwritten element; it is never refused (R158, R159, R392). -/
def Obligations.EveryCommandCompletes : Prop :=
  ∀ (i : Instr) (s : State),
    (∃ t, exec i s = .next t ∧ t.busy = false ∧ t.status.done = true) ∨
    (∃ (a : Arr) (n : Nat), exec i s = .fault (.unwritten a n) ∧ readsArray i a = true)

/-- The fault is raised only for an element that is unwritten (R392). -/
def Obligations.FaultsOnlyOnUnwritten : Prop :=
  ∀ (i : Instr) (s : State) (a : Arr) (n : Nat), s.Inv → s.cur = some i → exec i s = .fault (.unwritten a n) →
    elementUnwritten s.mem a n

/-! ## COUNT -/

/-- COUNT (R192, R193, R194): the list holds exactly the symbols that occur, each with the number of its occurrences, in
the order (count, symbol); FREQ_N is its length; nothing else is written. -/
def Obligations.CountListsTheSymbols : Prop :=
  ∀ (s : State) (data : List Byte), s.mem.wf → s.dataLen.toNat ≤ s.params.maxDataBytes →
    data.length = s.dataLen.toNat → holdsBytes s.mem .dataBuf data →
    ∃ l : List FreqEntry,
      exec .count s = .next { s.succeeded with freq := l } ∧
      l.Pairwise freqLt ∧ (∀ e : FreqEntry, e ∈ l ↔ 0 < e.cnt.toNat ∧ e.cnt.toNat = data.count e.sym) ∧
      l.length ≤ 256 ∧ State.freqN { s.succeeded with freq := l } = BitVec.ofNat 9 l.length

/-- COUNT, and BUILD's COUNT stage, with DATA_LEN above MAX_DATA_BYTES raise DATA_TOO_LONG with ERR_INFO = DATA_LEN before
every other action and write nothing else (R191, R252, R354). -/
def Obligations.DataTooLong : Prop :=
  ∀ s : State, s.params.maxDataBytes < s.dataLen.toNat →
    exec .count s = .next (s.failed 2#3 0x20#8 s.dataLen) ∧
    ∀ b, exec (.build b) s = .next (s.failed 2#3 0x20#8 s.dataLen)

/-- COUNT faults when a byte it reads is unwritten (R392), naming the first such byte (the model's order of reads, log 12). -/
def Obligations.CountOfUnwrittenFaults : Prop :=
  ∀ (s : State) (k : Nat), s.mem.wf → s.dataLen.toNat ≤ s.params.maxDataBytes → k < s.dataLen.toNat →
    s.mem.read (Arr.base .dataBuf + k) = none →
    (∀ j, j < k → s.mem.read (Arr.base .dataBuf + j) ≠ none) →
    exec .count s = .fault (.unwritten .dataBuf k)

/-! ## TREE -/

/-- TREE (R210, R216, R217): it completes without error in every state, writes the depth of every symbol to LEN_BUF and
256 to LEN_SIZE, and leaves every other byte and register alone. -/
def Obligations.TreeWritesDepths : Prop :=
  ∀ s : State, ∃ m : Memory,
    exec .tree s = .next { s.succeeded with mem := m, lenSize := 256#32 } ∧
    (∀ sym, sym < 256 → m.read (Arr.base .lenBuf + sym) = some (BitVec.ofNat 8 (depthOf (treeDepths s.freq) sym))) ∧
    (∀ x, (x < Arr.base .lenBuf ∨ Arr.base .lenBuf + 256 ≤ x) → m.read x = s.mem.read x)

/-- R212 and R213: no symbol gives all lengths 0; a single symbol gets length 1 whatever its count, every other 0; LEN_SIZE
becomes 256. -/
def Obligations.TreeOfNoneOrOne : Prop :=
  (∀ s : State, s.freq = [] → ∃ t, exec .tree s = .next t ∧ t.lenSize = 256#32 ∧
    ∀ sym, sym < 256 → t.mem.read (Arr.base .lenBuf + sym) = some 0#8) ∧
  (∀ (s : State) (e : FreqEntry), s.freq = [e] → ∃ t, exec .tree s = .next t ∧ t.lenSize = 256#32 ∧
    ∀ sym, sym < 256 → t.mem.read (Arr.base .lenBuf + sym) = some (if sym = e.sym.toNat then 1#8 else 0#8))

/-- The heap and the merge (R19, R214, R215, R216), with the key order spelled out: frequency, then sequence number. A push
keeps the order and loses no entry; the leaves are numbered 0, 1, … in the order of the frequency list; a merge takes out
the two entries of least key, first a and then b, and puts in the node of a and b with the sum of their frequencies and the
next number; it ends with one entry, the root, from which the depths are counted; and R214's example of the tie-break. That
the heap is a list in key order is the model's form (log 24). -/
def Obligations.HeapKeepsKeyOrder : Prop :=
  (∀ (e : HeapEntry) (h : List HeapEntry), h.Pairwise keyLe →
    (pushHeap e h).Pairwise keyLe ∧ (pushHeap e h).Perm (e :: h)) ∧
  (∀ l : List FreqEntry, (pushLeaves 0 l []).Pairwise keyLe ∧
    (pushLeaves 0 l []).Perm (l.zipIdx.map fun x => ⟨x.1.cnt.toNat, x.2, .leaf x.1.sym.toNat⟩)) ∧
  (∀ (rounds next : Nat) (h : List HeapEntry), h.Pairwise keyLe → 2 ≤ h.length →
    ∃ a b rest h', h.Perm (a :: b :: rest) ∧ keyLe a b ∧ (∀ x ∈ rest, keyLe a x ∧ keyLe b x) ∧
      h'.Pairwise keyLe ∧ h'.Perm (⟨a.freq + b.freq, next, .internal a.node b.node⟩ :: rest) ∧
      mergeHeap (rounds + 1) next h = mergeHeap rounds (next + 1) h') ∧
  (∀ l : List FreqEntry, 2 ≤ l.length →
    ∃ root, mergeHeap l.length l.length (pushLeaves 0 l []) = [root] ∧ treeDepths l = leafDepths 0 root.node) ∧
  (∀ (d sym : Nat) (x y : Tree), leafDepths d (.leaf sym) = [(sym, d)] ∧
    leafDepths d (.internal x y) = leafDepths (d + 1) x ++ leafDepths (d + 1) y) ∧
  (∀ sym ∈ [0x41, 0x42, 0x43, 0x44],
    depthOf (treeDepths [⟨0x41#8, 1#32⟩, ⟨0x42#8, 1#32⟩, ⟨0x43#8, 2#32⟩, ⟨0x44#8, 2#32⟩]) sym = 2)

/-- The tree is full (R218): for two or more distinct symbols exactly the listed symbols get a length, every length is at
most n - 1, and the sum of 2^(-length) is 1. -/
def Obligations.TreeIsFull : Prop :=
  ∀ l : List FreqEntry, 2 ≤ l.length → (l.map FreqEntry.sym).Nodup →
    (∀ sym : Byte, depthOf (treeDepths l) sym.toNat ≠ 0 ↔ sym ∈ l.map FreqEntry.sym) ∧
    (∀ sym, depthOf (treeDepths l) sym ≤ l.length - 1) ∧
    kraft 255 ((treeLens l).map BitVec.toNat) = 2 ^ 255

/-! ## ASSIGN -/

/-- R241: ASSIGN with LEN_SIZE other than 256 raises LEN_SIZE_MISMATCH with ERR_INFO = LEN_SIZE before reading LEN_BUF. -/
def Obligations.AssignSizeMismatch : Prop :=
  ∀ (s : State) (b : Bank), s.lenSize ≠ 256#32 →
    exec (.assign b) s = .next (s.failed 1#3 0x10#8 s.lenSize)

/-- R242: ASSIGN raises LEN_TOO_LONG with ERR_INFO = the least symbol whose length is not below MAXLEN. -/
def Obligations.AssignLengthTooLong : Prop :=
  ∀ (s : State) (b : Bank) (lens : List Byte) (sym : Nat) (h : sym < lens.length), s.mem.wf → s.lenSize = 256#32 →
    lens.length = 256 → holdsBytes s.mem .lenBuf lens → s.params.maxLen ≤ lens[sym].toNat →
    (∀ j (_ : j < sym), lens[j].toNat < s.params.maxLen) →
    exec (.assign b) s = .next (s.failed 1#3 0x11#8 (BitVec.ofNat 32 sym))

/-- R248: on success ASSIGN writes the whole bank, MAXLEN_USED and VALID, and nothing else. -/
def Obligations.AssignCommits : Prop :=
  ∀ (s : State) (b : Bank) (lens : List Byte) (tab : List Code) (m : Nat), s.mem.wf → s.lenSize = 256#32 →
    lens.length = 256 → holdsBytes s.mem .lenBuf lens → (∀ l ∈ lens, l.toNat < s.params.maxLen) →
    canonical (lens.map BitVec.toNat) = .ok (tab, m) →
    ∃ t, exec (.assign b) s = .next t ∧ t.table b = tab ∧ t.info b = ⟨BitVec.ofNat 8 m, true⟩ ∧
      (∀ b', b' ≠ b → t.table b' = s.table b' ∧ t.info b' = s.info b') ∧
      t = { s.succeeded with table0 := t.table0, table1 := t.table1, info0 := t.info0, info1 := t.info1 }

/-- The checks of the walk (R243 to R246, R248, R355). With the present pairs in the order of R243 and the codewords of R244
and R245, the first pair that fails a check decides: NOT_PREFIX_FREE when the previous codeword plus 1 is no multiple of
2 to the drop in length, else OVERSUBSCRIBED when the codeword does not fit its length; ASSIGN ends with that error, with
ERR_INFO = the pair's symbol, and writes no bank. When every pair passes the assignment succeeds. NOT_PREFIX_FREE and
OVERSUBSCRIBED are the only errors of the walk. -/
def Obligations.AssignRejectsBadLengths : Prop :=
  (∀ (s : State) (b : Bank) (lens : List Byte) (code : ErrCode) (sym : Nat), s.mem.wf → s.lenSize = 256#32 →
    lens.length = 256 → holdsBytes s.mem .lenBuf lens → (∀ l ∈ lens, l.toNat < s.params.maxLen) →
    canonical (lens.map BitVec.toNat) = .error (code, sym) →
    (code = .notPrefixFree ∧ exec (.assign b) s = .next (s.failed 1#3 0x12#8 (BitVec.ofNat 32 sym))) ∨
    (code = .oversubscribed ∧ exec (.assign b) s = .next (s.failed 1#3 0x13#8 (BitVec.ofNat 32 sym)))) ∧
  (∀ (s : State) (b : Bank) (lens : List Byte) (ps : List (Nat × Nat)) (n : Nat) (x y : Nat × Nat),
    s.mem.wf → s.lenSize = 256#32 → lens.length = 256 → holdsBytes s.mem .lenBuf lens →
    (∀ l ∈ lens, l.toNat < s.params.maxLen) → inAssignOrder (lens.map BitVec.toNat) ps →
    ps[n]? = some x → ps[n + 1]? = some y → (∀ j, j < n → walkPasses ps j) →
    ((walkCode ps n + 1) % 2 ^ (x.2 - y.2) ≠ 0 →
      exec (.assign b) s = .next (s.failed 1#3 0x12#8 (BitVec.ofNat 32 y.1))) ∧
    ((walkCode ps n + 1) % 2 ^ (x.2 - y.2) = 0 → 2 ^ y.2 ≤ walkCode ps (n + 1) →
      exec (.assign b) s = .next (s.failed 1#3 0x13#8 (BitVec.ofNat 32 y.1)))) ∧
  (∀ (lens : List Nat) (ps : List (Nat × Nat)), lens.length = 256 → inAssignOrder lens ps →
    (∀ j, j + 1 < ps.length → walkPasses ps j) → ∃ tab m, canonical lens = .ok (tab, m))

/-- The canonical assignment (R243, R244, R245, R247): the present symbols in the order (length descending, symbol
ascending), the first gets codeword 0, each next one the previous codeword plus 1, shifted right by the drop in length;
absent symbols are (0, 0); the maximum length is the first pair's. -/
def Obligations.CanonicalRule : Prop :=
  ∀ (lens : List Nat) (tab : List Code) (m : Nat), lens.length = 256 → (∀ l ∈ lens, l ≤ 32) →
    canonical lens = .ok (tab, m) →
    tab.length = 256 ∧ tableLens tab = lens ∧
    (∀ s, s < 256 → lens.getD s 0 = 0 → tab.getD s absentCode = absentCode) ∧
    (∀ s l, (s, l) ∈ sortedPairs lens ↔ s < 256 ∧ lens[s]? = some l ∧ l ≠ 0) ∧
    (sortedPairs lens).Pairwise (fun x y => y.2 < x.2 ∨ (x.2 = y.2 ∧ x.1 < y.1)) ∧
    (sortedPairs lens = [] → m = 0) ∧
    (∀ s l rest, sortedPairs lens = (s, l) :: rest → m = l ∧ cwOf tab s = 0) ∧
    (∀ j x y, (sortedPairs lens)[j]? = some x → (sortedPairs lens)[j + 1]? = some y →
      cwOf tab y.1 = (cwOf tab x.1 + 1) >>> (x.2 - y.2))

/-- A table the canonical assignment builds is prefix-free, and every codeword fits its length (R52, R249). -/
def Obligations.CanonicalIsPrefixFree : Prop :=
  ∀ (lens : List Nat) (tab : List Code) (m : Nat), lens.length = 256 → (∀ l ∈ lens, l ≤ 32) →
    canonical lens = .ok (tab, m) →
    prefixFree tab ∧ ∀ e ∈ tab, e.cw.toNat < 2 ^ e.len.toNat

/-! ## BUILD -/

/-- BUILD is COUNT, TREE and ASSIGN in one command (R250): when COUNT ends without error, BUILD ends as ASSIGN does after
COUNT and TREE. -/
def Obligations.BuildIsThreeStages : Prop :=
  ∀ (s s1 s2 : State) (b : Bank), s.status.err = false → exec .count s = .next s1 → s1.status.err = false →
    exec .tree s1 = .next s2 → exec (.build b) s = exec (.assign b) s2

/-- BUILD from readable data whose tree is no deeper than MAXLEN - 1 completes without error, with a VALID bank that is
the canonical assignment of the tree's depths, and the frequency list, LEN_BUF and LEN_SIZE of its stages; nothing else
changes (R249, R250). -/
def Obligations.BuildCompletes : Prop :=
  ∀ (s : State) (b : Bank) (data : List Byte), s.params.wf = true → s.mem.wf →
    s.dataLen.toNat ≤ s.params.maxDataBytes → data.length = s.dataLen.toNat → holdsBytes s.mem .dataBuf data →
    (∀ sym, depthOf (treeDepths (countList data)) sym < s.params.maxLen) →
    ∃ t, exec (.build b) s = .next t ∧ (t.info b).valid = true ∧
      canonical ((treeLens (countList data)).map BitVec.toNat) = .ok (t.table b, (t.info b).maxlen.toNat) ∧
      holdsBytes t.mem .lenBuf (treeLens (countList data)) ∧
      (∀ x, (x < Arr.base .lenBuf ∨ Arr.base .lenBuf + 256 ≤ x) → t.mem.read x = s.mem.read x) ∧
      (∀ b', b' ≠ b → t.table b' = s.table b' ∧ t.info b' = s.info b') ∧
      t = { s.succeeded with
        freq := countList data, mem := t.mem, lenSize := 256#32, table0 := t.table0, table1 := t.table1,
        info0 := t.info0, info1 := t.info1 }

/-- BUILD of a tree that reaches MAXLEN ends with LEN_TOO_LONG and the least such symbol; the frequency list, LEN_BUF and
LEN_SIZE hold the stages' results and no bank is written (R251, R252). -/
def Obligations.BuildDepthOverflow : Prop :=
  ∀ (s : State) (b : Bank) (data : List Byte) (sym : Nat), s.mem.wf →
    s.dataLen.toNat ≤ s.params.maxDataBytes → data.length = s.dataLen.toNat → holdsBytes s.mem .dataBuf data →
    sym < 256 → s.params.maxLen ≤ depthOf (treeDepths (countList data)) sym →
    (∀ j, j < sym → depthOf (treeDepths (countList data)) j < s.params.maxLen) →
    ∃ m, exec (.build b) s =
        .next { s.failed 1#3 0x11#8 (BitVec.ofNat 32 sym) with freq := countList data, mem := m, lenSize := 256#32 } ∧
      holdsBytes m .lenBuf (treeLens (countList data)) ∧
      (∀ x, (x < Arr.base .lenBuf ∨ Arr.base .lenBuf + 256 ≤ x) → m.read x = s.mem.read x)

/-! ## COMPARE -/

/-- COMPARE of two VALID banks writes EQUAL, 1 exactly when cw and len of all 256 entries agree, and nothing else (R281,
R283). -/
def Obligations.CompareWritesEqual : Prop :=
  ∀ s : State, s.info0.valid = true → s.info1.valid = true →
    ∃ eq : Bool,
      exec .compare s = .next { s with cur := none, status := { s.status with done := true, equal := eq } } ∧
      (eq = true ↔ ∀ sym, sym < 256 → s.table0[sym]? = s.table1[sym]?)

/-- R282: COMPARE with bank 0 not VALID, or else bank 1 not VALID, raises NO_TABLE with the bank's number. -/
def Obligations.CompareWithoutTable : Prop :=
  (∀ s : State, s.info0.valid = false → exec .compare s = .next (s.failed 1#3 0x15#8 0#32)) ∧
  (∀ s : State, s.info0.valid = true → s.info1.valid = false → exec .compare s = .next (s.failed 1#3 0x15#8 1#32))

/-- A table compared with a copy rebuilt from the same codelengths is equal (R284). -/
def Obligations.RebuiltTableIsEqual : Prop :=
  ∀ s t1 : State, s.status.err = false → exec (.assign .bank0) s = .next t1 → t1.status.err = false →
    ∃ t2 t3, exec (.assign .bank1) t1 = .next t2 ∧ exec .compare t2 = .next t3 ∧
      t3.status.err = false ∧ t3.status.equal = true

/-! ## DECODE -/

/-- R304: the invocation checks in their order, each with its code and ERR_INFO, and no other write. -/
def Obligations.DecodeChecksInOrder : Prop :=
  ∀ (s : State) (b : Bank),
    ((s.info b).valid = false →
      exec (.decode b) s = .next (s.failed 1#3 0x15#8 (BitVec.ofNat 32 (bankNumber b)))) ∧
    ((s.info b).valid = true → s.wordWidth ∉ [8#32, 16#32, 32#32] →
      exec (.decode b) s = .next (s.failed 1#3 0x14#8 s.wordWidth)) ∧
    ((s.info b).valid = true → s.wordWidth ∈ [8#32, 16#32, 32#32] → s.params.maxStreamWords < s.streamWords.toNat →
      exec (.decode b) s = .next (s.failed 2#3 0x21#8 s.streamWords)) ∧
    ((s.info b).valid = true → s.wordWidth ∈ [8#32, 16#32, 32#32] → s.streamWords.toNat ≤ s.params.maxStreamWords →
      s.params.maxBlocks < s.numBlocks.toNat →
      exec (.decode b) s = .next (s.failed 2#3 0x22#8 s.numBlocks)) ∧
    (∀ counts : List Word, (s.info b).valid = true → s.wordWidth ∈ [8#32, 16#32, 32#32] →
      s.streamWords.toNat ≤ s.params.maxStreamWords → s.numBlocks.toNat ≤ s.params.maxBlocks →
      counts.length = s.numBlocks.toNat → holdsWords s.mem .blkCount counts →
      (∀ i, i < counts.length → s.params.maxOutBytes < ((counts.take (i + 1)).map BitVec.toNat).sum →
        (∀ j, j < i → ((counts.take (j + 1)).map BitVec.toNat).sum ≤ s.params.maxOutBytes) →
        exec (.decode b) s = .next (s.failed 2#3 0x23#8 (BitVec.ofNat 32 i))) ∧
      ((counts.map BitVec.toNat).sum ≤ s.params.maxOutBytes →
        ((0 < s.streamWords.toNat ∧ s.wordWidth.toNat ≤ s.trailing.toNat) ∨
          (s.streamWords = 0#32 ∧ s.trailing ≠ 0#32)) →
        exec (.decode b) s = .next (s.failed 3#3 0x30#8 s.trailing)))

/-- DECODE past its checks, with every offset and every stream slot written, completes: every block ends with one of the
three results, OUT_LEN is the sum of the counts, BLK_FAILS the number of failing blocks, and the least failing block's
code and index are the command's error, or there is none (R311, R312, R313). A block's output bytes at or beyond its
BLK_DONE keep their contents (R310). When no engine has taken a block yet, the result entries of each block and every byte
of its output region are those DecodeBlock of it alone gives on the memory before (R306, R314); that engine steps in
between do not change the result is EngineStepsKeepResult. -/
def Obligations.DecodeCompletes : Prop :=
  ∀ (s : State) (b : Bank) (env : DecodeEnv), s.Inv → s.cur = some (.decode b) →
    invocationChecks b s = .pass env →
    (∀ i, i < env.counts.length → s.mem.readElem .blkOffset i ≠ none) →
    (∀ j, j < s.streamWords.toNat → s.mem.readElem .stream j ≠ none) →
    ∃ t, exec (.decode b) s = .next t ∧ t.status.done = true ∧ t.outLen = BitVec.ofNat 32 env.counts.sum ∧
      (∀ i, i < env.counts.length → blockFinished t.mem i) ∧
      t.blkFails.toNat = (failingBlocks t.mem env.counts.length).length ∧
      (failingBlocks t.mem env.counts.length = [] → t.status.err = false ∧ t.errInfo = 0#32) ∧
      (∀ i rest, failingBlocks t.mem env.counts.length = i :: rest →
        t.status.err = true ∧ t.status.errClass = 3#3 ∧ t.errInfo = BitVec.ofNat 32 i ∧
        (t.mem.readElem .blkStatus i).map (fun v => v.setWidth 8) = some t.status.errCode) ∧
      (∀ (i j : Nat) (k : Word), i < env.counts.length → t.mem.readElem .blkDone i = some k → k.toNat ≤ j →
        j < env.count i →
        t.mem.read (Arr.base .outBuf + (env.base i + j)) = s.mem.read (Arr.base .outBuf + (env.base i + j))) ∧
      (s.taken = [] → ∀ i, i < env.counts.length →
        ∃ m, env.decodeBlock i s.mem = .ok m ∧
          (∀ a ∈ [Arr.blkStatus, Arr.blkErrpos, Arr.blkDone, Arr.blkEnd], t.mem.readElem a i = m.readElem a i) ∧
          (∀ j, j < env.count i →
            t.mem.read (Arr.base .outBuf + (env.base i + j)) = m.read (Arr.base .outBuf + (env.base i + j))))

/-- The frame of DECODE (R98, R307, R311): outside the output region of its blocks and the result entries of its blocks no
byte changes, and of the registers only STATUS, ERR_INFO, OUT_LEN and BLK_FAILS. -/
def Obligations.DecodeFrame : Prop :=
  ∀ (s t : State) (b : Bank) (env : DecodeEnv), s.Inv → s.cur = some (.decode b) →
    invocationChecks b s = .pass env → exec (.decode b) s = .next t →
    t = { s with
      mem := t.mem, outLen := t.outLen, blkFails := t.blkFails, status := t.status, errInfo := t.errInfo, cur := none,
      engines := t.engines, taken := [] } ∧
    t.status.equal = s.status.equal ∧ t.status.overrun = s.status.overrun ∧
    ∀ x, ¬ (Arr.base .outBuf ≤ x ∧ x < Arr.base .outBuf + env.counts.sum) → ¬ inResultEntry env.counts.length x →
      t.mem.read x = s.mem.read x

/-- R309: a block of count 0 reads no bit and writes no output byte; it ends OK with BLK_DONE = 0 and BLK_END its offset,
whatever the offset. -/
def Obligations.ZeroCountBlock : Prop :=
  ∀ (env : DecodeEnv) (m : Memory) (i : Nat) (off : Word), env.count i = 0 → i < 4096 →
    m.readElem .blkOffset i = some off →
    ∃ m', env.decodeBlock i m = .ok m' ∧
      m'.readElem .blkStatus i = some 0x01#32 ∧ m'.readElem .blkErrpos i = some 0#32 ∧
      m'.readElem .blkDone i = some 0#32 ∧ m'.readElem .blkEnd i = some off ∧
      ∀ x, ¬ inResultEntry 4096 x → m'.read x = m.read x

/-- A block with a count above 0 whose offset is at or beyond total_bits is TRUNCATED at its offset with nothing decoded
(R306, R310). -/
def Obligations.OffsetBeyondStream : Prop :=
  ∀ (env : DecodeEnv) (m : Memory) (i : Nat) (off : Word), 0 < env.count i → i < 4096 →
    m.readElem .blkOffset i = some off → env.totalBits ≤ off.toNat →
    ∃ m', env.decodeBlock i m = .ok m' ∧
      m'.readElem .blkStatus i = some 0x31#32 ∧ m'.readElem .blkErrpos i = some off ∧
      m'.readElem .blkDone i = some 0#32 ∧ m'.readElem .blkEnd i = some off ∧
      ∀ x, ¬ inResultEntry 4096 x → m'.read x = m.read x

/-- Round trip (R315): a block whose bits are the concatenated codewords of present symbols decodes to those symbols. The
bit of stream position p is spelled out on its slot: bit W-1-(p mod W) of slot p div W (R87, R88). -/
def Obligations.DecodeRoundTrip : Prop :=
  ∀ (lens : List Nat) (tab : List Code) (ml : Nat) (env : DecodeEnv) (m : Memory) (i off : Nat) (xs : List Nat),
    lens.length = 256 → (∀ l ∈ lens, l ≤ 32) → canonical lens = .ok (tab, ml) → env.table = tab → env.maxlen = ml →
    legalWidth env.width = true → env.totalBits ≤ 262144 * env.width → i < 4096 → env.count i = xs.length →
    (∀ x ∈ xs, x < 256 ∧ (tab.getD x absentCode).len ≠ 0#8) →
    off < 2 ^ 32 → m.readElem .blkOffset i = some (BitVec.ofNat 32 off) →
    off + (encodeSymbols tab xs).length ≤ env.totalBits →
    (∀ j (h : j < (encodeSymbols tab xs).length),
      ∃ v : Word, m.readElem .stream ((off + j) / env.width) = some v ∧
        v.getLsbD (env.width - 1 - (off + j) % env.width) = (encodeSymbols tab xs)[j]) →
    ∃ m', env.decodeBlock i m = .ok m' ∧
      m'.readElem .blkStatus i = some 0x01#32 ∧ m'.readElem .blkErrpos i = some 0#32 ∧
      m'.readElem .blkDone i = some (BitVec.ofNat 32 xs.length) ∧
      m'.readElem .blkEnd i = some (BitVec.ofNat 32 (off + (encodeSymbols tab xs).length)) ∧
      ∀ j (h : j < xs.length), m'.read (Arr.base .outBuf + (env.base i + j)) = some (BitVec.ofNat 8 xs[j])

/-- With a table whose lengths sum 2^(-len) to 1 no block fails with BAD_CODE (R316). -/
def Obligations.CompleteCodeNeverBad : Prop :=
  ∀ (lens : List Nat) (tab : List Code) (ml : Nat) (env : DecodeEnv) (m m' : Memory) (i : Nat),
    lens.length = 256 → (∀ l ∈ lens, l ≤ 32) → canonical lens = .ok (tab, ml) → kraft 32 lens = 2 ^ 32 →
    env.table = tab → env.maxlen = ml → i < 4096 → env.decodeBlock i m = .ok m' →
    m'.readElem .blkStatus i ≠ some 0x32#32

/-- One iteration of an engine (R306, R31), every outcome. With the count reached the block ends OK; with the cursor at or
beyond total_bits it ends TRUNCATED; with the slot unwritten it faults (R392). Else it takes the bit of R88, bit
W-1-(p mod W) of slot p div W: when exactly one symbol has the running codeword, that symbol is emitted at the block's next
output place (R307) and the codeword starts anew at the cursor; when none has, the block ends BAD_CODE once the length
reaches maxlen (R310), and goes on otherwise. The result entries are those of R306 and R310, and no other byte changes. An
iteration that goes on moves the cursor by exactly one and stays in its block. -/
def Obligations.EngineIteration : Prop :=
  (∀ (m : Memory) (width p : Nat) (v : Word), m.readElem .stream (p / width) = some v →
    streamBit m width p = some (v.getLsbD (width - 1 - p % width)).toNat) ∧
  (∀ (env : DecodeEnv) (w w' : Walk) (m m' : Memory), env.iterate w m = .running w' m' →
    w.p < env.totalBits ∧ w'.p = w.p + 1 ∧ w.k < env.count w.block ∧ w'.block = w.block ∧ w'.base = w.base ∧
    ((w'.k = w.k ∧ m' = m) ∨
     (w'.k = w.k + 1 ∧ w'.c = 0 ∧ w'.l = 0 ∧ w'.q = w'.p ∧
      ∀ x, x ≠ Arr.base .outBuf + (w.base + w.k) → m'.read x = m.read x))) ∧
  (∀ (env : DecodeEnv) (w : Walk) (m : Memory), w.block < 4096 → env.count w.block ≤ w.k →
    ∃ m', env.iterate w m = .ended m' ∧
      blockEnded m m' w.block 0x01#32 0#32 (BitVec.ofNat 32 w.k) (BitVec.ofNat 32 w.p)) ∧
  (∀ (env : DecodeEnv) (w : Walk) (m : Memory), w.block < 4096 → w.k < env.count w.block → env.totalBits ≤ w.p →
    ∃ m', env.iterate w m = .ended m' ∧
      blockEnded m m' w.block 0x31#32 (BitVec.ofNat 32 w.q) (BitVec.ofNat 32 w.k) (BitVec.ofNat 32 w.p)) ∧
  (∀ (env : DecodeEnv) (w : Walk) (m : Memory), w.k < env.count w.block → w.p < env.totalBits →
    m.readElem .stream (w.p / env.width) = none →
    env.iterate w m = .fault (.unwritten .stream (w.p / env.width))) ∧
  (∀ (env : DecodeEnv) (w : Walk) (m : Memory) (v : Word) (c : Nat), w.k < env.count w.block → w.p < env.totalBits →
    m.readElem .stream (w.p / env.width) = some v →
    c = 2 * w.c + (v.getLsbD (env.width - 1 - w.p % env.width)).toNat →
    (∀ sym, isEntry env.table sym (w.l + 1) c → (∀ j, isEntry env.table j (w.l + 1) c → j = sym) →
      ∃ m', env.iterate w m = .running { w with p := w.p + 1, k := w.k + 1, c := 0, l := 0, q := w.p + 1 } m' ∧
        m'.read (Arr.base .outBuf + (w.base + w.k)) = some (BitVec.ofNat 8 sym) ∧
        ∀ x, x ≠ Arr.base .outBuf + (w.base + w.k) → m'.read x = m.read x) ∧
    ((∀ j, ¬ isEntry env.table j (w.l + 1) c) →
      (w.l + 1 < env.maxlen → env.iterate w m = .running { w with p := w.p + 1, c := c, l := w.l + 1 } m) ∧
      (env.maxlen ≤ w.l + 1 → w.block < 4096 →
        ∃ m', env.iterate w m = .ended m' ∧
          blockEnded m m' w.block 0x32#32 (BitVec.ofNat 32 w.q) (BitVec.ofNat 32 w.k) (BitVec.ofNat 32 (w.p + 1)))))

/-- Schedules do not matter (R98, R314): whatever step an engine makes during a DECODE, the command's completion yields
the same state as without it. -/
def Obligations.EngineStepsKeepResult : Prop :=
  ∀ (s s' t : State) (b : Bank) (e pick : Nat), s.Inv → s.cur = some (.decode b) →
    engineTurn e pick s = .next s' → exec (.decode b) s = .next t → exec (.decode b) s' = .next t

/-! ## Invariants and whole-machine rules -/

/-- The invariant holds after reset, for every legal choice of the parameters (R12, R390). The configuration of
`State.reset` and its empty lists are the model's choice (log 7, log 8). -/
def Obligations.InvariantAtReset : Prop :=
  State.reset.Inv ∧ ∀ p : Params, p.wf = true → (State.resetOf p).Inv

/-- Every step keeps memory canonical and within the arrays' capacities (R81, R82), and the parameters (R12, R44). The
canonical form is the model's (log 6). -/
def Obligations.StepKeepsMemory : Prop :=
  ∀ s t : State, s.Inv → step s = .next t → t.memOk ∧ t.params = s.params

/-- Every step keeps the report's invariants (R36, R37, R39, R156). -/
def Obligations.StepKeepsReport : Prop :=
  ∀ s t : State, s.Inv → step s = .next t → t.reportOk

/-- Every step keeps the invariants of the frequency list (R195). -/
def Obligations.StepKeepsFrequencyList : Prop :=
  ∀ s t : State, s.Inv → step s = .next t → t.freqOk

/-- Every step keeps the invariant of a VALID bank (R52). -/
def Obligations.StepKeepsBanks : Prop :=
  ∀ s t : State, s.Inv → step s = .next t → ∀ b, t.bankOk b

/-- Every step keeps the invariants of the engines (R64, R305, R373). -/
def Obligations.StepKeepsEngines : Prop :=
  ∀ s t : State, s.Inv → step s = .next t → t.enginesOk

/-- Only a COMPARE's completion, or reset, changes EQUAL (R36, R281). -/
def Obligations.EqualOnlyByCompare : Prop :=
  ∀ s t : State, step s = .next t → t.status.equal ≠ s.status.equal →
    (s.cur = some .compare ∧ t.cur = none ∧ t.status.done = true) ∨ s.schedule.head? = some .reset

/-- Only ASSIGN or BUILD into a bank, or reset, changes the bank, and only reset clears VALID (R46, R51, R84). -/
def Obligations.BankOnlyByItsCommands : Prop :=
  ∀ (s t : State) (b : Bank), step s = .next t → s.schedule.head? ≠ some .reset →
    ((t.table b ≠ s.table b ∨ t.info b ≠ s.info b) → s.cur = some (.assign b) ∨ s.cur = some (.build b)) ∧
    ((s.info b).valid = true → (t.info b).valid = true)

/-- While a command is in progress no step but reset changes an input (R96, R401): the input registers and the bytes of
DATA_BUF, STREAM, BLK_OFFSET and BLK_COUNT for every command; LEN_SIZE and LEN_BUF unless the command is TREE or BUILD,
which write them; the frequency list, TREE's input, unless it is COUNT or BUILD, which write it. -/
def Obligations.InputsFixedWhileBusy : Prop :=
  ∀ s t : State, s.Inv → s.busy = true → step s = .next t → s.schedule.head? ≠ some .reset →
    t.dataLen = s.dataLen ∧ t.streamWords = s.streamWords ∧ t.trailing = s.trailing ∧ t.wordWidth = s.wordWidth ∧
    t.numBlocks = s.numBlocks ∧
    (∀ (a : Arr) (i : Nat), a ∈ [Arr.dataBuf, Arr.stream, Arr.blkOffset, Arr.blkCount] → i < a.bytes s.params →
      t.mem.read (a.base + i) = s.mem.read (a.base + i)) ∧
    (s.cur ≠ some .tree → (∀ b, s.cur ≠ some (.build b)) →
      t.lenSize = s.lenSize ∧
      ∀ i, i < 256 → t.mem.read (Arr.base .lenBuf + i) = s.mem.read (Arr.base .lenBuf + i)) ∧
    (s.cur ≠ some .count → (∀ b, s.cur ≠ some (.build b)) → t.freq = s.freq)

/-! ## What the host reads -/

/-- What a host read returns (R32 to R46, R81, R85, R150): STATUS, field by field, in every state; with no command in
progress, every other register, TABLE_INFO field by field, each written element of a word array, and each written byte of
a byte array in its lane. While a command runs, BusyReadsOfOutputs says which locations read the same. -/
def Obligations.HostReadReturnsState : Prop :=
  (∀ s : State,
    (s.hostRead 0x00C#22).getLsbD 0 = s.cur.isSome ∧ (s.hostRead 0x00C#22).getLsbD 1 = s.status.done ∧
    (s.hostRead 0x00C#22).getLsbD 2 = s.status.err ∧ (s.hostRead 0x00C#22).getLsbD 3 = s.status.equal ∧
    (s.hostRead 0x00C#22).getLsbD 4 = s.status.overrun ∧ (s.hostRead 0x00C#22).extractLsb' 5 3 = 0#3 ∧
    (s.hostRead 0x00C#22).extractLsb' 8 3 = s.status.errClass ∧ (s.hostRead 0x00C#22).extractLsb' 11 5 = 0#5 ∧
    (s.hostRead 0x00C#22).extractLsb' 16 8 = s.status.errCode ∧ (s.hostRead 0x00C#22).extractLsb' 24 8 = 0#8) ∧
  (∀ s : State, s.cur = none →
    s.hostRead 0x000#22 = 0x48554646#32 ∧ s.hostRead 0x004#22 = 0x00070001#32 ∧ s.hostRead 0x008#22 = 0#32 ∧
    s.hostRead 0x010#22 = (if s.ie then 1#32 else 0#32) ∧ s.hostRead 0x014#22 = s.errInfo ∧
    s.hostRead 0x018#22 = s.dataLen ∧ s.hostRead 0x01C#22 = s.lenSize ∧ s.hostRead 0x024#22 = s.streamWords ∧
    s.hostRead 0x028#22 = s.trailing ∧ s.hostRead 0x02C#22 = s.wordWidth ∧ s.hostRead 0x030#22 = s.numBlocks ∧
    s.hostRead 0x034#22 = s.outLen ∧ s.hostRead 0x038#22 = s.blkFails ∧
    s.hostRead 0x044#22 = BitVec.ofNat 32 s.params.maxLen ∧ s.hostRead 0x048#22 = BitVec.ofNat 32 s.params.maxDataBytes ∧
    s.hostRead 0x04C#22 = BitVec.ofNat 32 s.params.maxStreamWords ∧
    s.hostRead 0x050#22 = BitVec.ofNat 32 s.params.maxBlocks ∧ s.hostRead 0x054#22 = BitVec.ofNat 32 s.params.maxOutBytes ∧
    s.hostRead 0x058#22 = BitVec.ofNat 32 s.params.numEngines ∧ s.hostRead 0x05C#22 = 7#32) ∧
  (∀ (s : State) (b : Bank), s.cur = none →
    (s.hostRead (BitVec.ofNat 22 (0x03C + 4 * bankNumber b))).extractLsb' 0 8 = (s.info b).maxlen ∧
    (s.hostRead (BitVec.ofNat 22 (0x03C + 4 * bankNumber b))).extractLsb' 8 23 = 0#23 ∧
    (s.hostRead (BitVec.ofNat 22 (0x03C + 4 * bankNumber b))).getLsbD 31 = (s.info b).valid) ∧
  (∀ (s : State) (a : Arr) (n : Nat) (v : Word), s.cur = none →
    a ∈ [Arr.blkOffset, Arr.blkCount, Arr.blkStatus, Arr.blkErrpos, Arr.blkDone, Arr.blkEnd, Arr.stream] →
    4 * n < a.bytes s.params → s.mem.readElem a n = some v → s.hostRead (BitVec.ofNat 22 (a.base + 4 * n)) = v) ∧
  (∀ (s : State) (a : Arr) (n t : Nat) (x : Byte), s.cur = none → a ∈ [Arr.lenBuf, Arr.dataBuf, Arr.outBuf] → t < 4 →
    4 * n + t < a.bytes s.params → s.mem.read (a.base + (4 * n + t)) = some x →
    laneOf (s.hostRead (BitVec.ofNat 22 (a.base + 4 * n))) t = x)
end

