-- ==== Sys2Proof/Laws/Memory.lean ====
section
/-! SUPPORT. The laws of byte memory: read after write, what a write leaves alone, the canonical form kept, and words over
bytes. -/

namespace Sys2Proof.Machine

@[simp] theorem read_nil (a : Nat) : Memory.read [] a = none := rfl

theorem read_cons (x : Nat) (b : Byte) (m : Memory) (a : Nat) :
    Memory.read ((x, b) :: m) a = if x = a then some b else Memory.read m a := by
  by_cases h : x = a
  · simp [Memory.read, h]
  · have : Nat.beq x a = false := by
      rw [Bool.eq_false_iff]
      exact fun e => h (Nat.eq_of_beq_eq_true e)
    simp [Memory.read, h, this]

theorem read_append (m n : Memory) (a : Nat) :
    Memory.read (m ++ n) a = (Memory.read m a).or (Memory.read n a) := by
  induction m with
  | nil => simp
  | cons c m ih =>
    obtain ⟨x, b⟩ := c
    simp only [List.cons_append, read_cons]
    split <;> simp [ih]

/-- Filtering by a property of the address leaves the bytes that have it and hides the others. -/
theorem read_filter (f : Nat → Bool) (m : Memory) (a : Nat) :
    Memory.read (m.filter (fun c => f c.1)) a = if f a then Memory.read m a else none := by
  induction m with
  | nil => simp
  | cons c m ih =>
    obtain ⟨x, b⟩ := c
    by_cases hx : f x
    · rw [List.filter_cons_of_pos (by simpa using hx), read_cons, read_cons, ih]
      by_cases hxa : x = a
      · subst hxa; simp [hx]
      · simp [hxa]
    · rw [List.filter_cons_of_neg (by simpa using hx), ih, read_cons]
      by_cases hxa : x = a
      · subst hxa; simp [hx]
      · simp [hxa]

theorem read_cellsAt (bs : List Byte) (a x : Nat) :
    Memory.read (cellsAt a bs) x = if a ≤ x then bs[x - a]? else none := by
  induction bs generalizing a with
  | nil => simp [cellsAt]
  | cons b bs ih =>
    rw [cellsAt, read_cons, ih]
    rcases Nat.lt_trichotomy a x with h | h | h
    · have e : x - a = (x - (a + 1)) + 1 := by omega
      rw [if_neg (by omega), if_pos (by omega), if_pos (by omega), e, List.getElem?_cons_succ]
    · subst h; simp
    · rw [if_neg (by omega), if_neg (by omega), if_neg (by omega)]

/-- A read after a write: inside the written range the byte written, outside it what was there before. -/
theorem read_setRange (m : Memory) (a : Nat) (bs : List Byte) (x : Nat) :
    (m.setRange a bs).read x = if a ≤ x ∧ x < a + bs.length then bs[x - a]? else m.read x := by
  rw [Memory.setRange, read_append, read_append, read_filter (fun y => decide (y < a)),
    read_filter (fun y => decide (a + bs.length ≤ y)), read_cellsAt]
  by_cases h1 : x < a
  · rw [if_neg (c := a ≤ x ∧ _) (by omega)]
    simp [h1, Nat.not_le.mpr h1, show ¬ a + bs.length ≤ x by omega]
  · by_cases h2 : x < a + bs.length
    · simp [h1, Nat.not_lt.mp h1, h2, show ¬ a + bs.length ≤ x by omega]
    · have : bs[x - a]? = none := by rw [List.getElem?_eq_none_iff]; omega
      simp [h1, Nat.not_lt.mp h1, h2, Nat.not_lt.mp h2, this]

theorem read_setRange_of_outside {m : Memory} {a : Nat} {bs : List Byte} {x : Nat}
    (h : x < a ∨ a + bs.length ≤ x) : (m.setRange a bs).read x = m.read x := by
  rw [read_setRange, if_neg (by omega)]

theorem mem_cellsAt {bs : List Byte} {a : Nat} {c : Host.Cell} (h : c ∈ cellsAt a bs) :
    a ≤ c.1 ∧ c.1 < a + bs.length := by
  induction bs generalizing a with
  | nil => simp [cellsAt] at h
  | cons b bs ih =>
    rcases List.mem_cons.mp h with rfl | h
    · simp
    · have := ih h
      simp only [List.length_cons]; omega

theorem cellsAt_wf (bs : List Byte) (a : Nat) : Memory.wf (cellsAt a bs) := by
  induction bs generalizing a with
  | nil => exact List.Pairwise.nil
  | cons b bs ih =>
    refine List.Pairwise.cons (fun c hc => ?_) (ih (a + 1))
    have := mem_cellsAt hc
    simp only; omega

/-- A write keeps the canonical form. -/
theorem setRange_wf {m : Memory} (h : m.wf) (a : Nat) (bs : List Byte) : (m.setRange a bs).wf := by
  unfold Memory.setRange Memory.wf
  rw [List.pairwise_append, List.pairwise_append]
  refine ⟨⟨h.filter _, cellsAt_wf bs a, fun c hc d hd => ?_⟩, h.filter _, fun c hc d hd => ?_⟩
  · have h1 := (List.mem_filter.mp hc).2
    have h2 := mem_cellsAt hd
    simp only [decide_eq_true_eq] at h1; omega
  · have h1 := (List.mem_filter.mp hd).2
    simp only [decide_eq_true_eq] at h1
    rcases List.mem_append.mp hc with hc | hc
    · have h2 := (List.mem_filter.mp hc).2
      simp only [decide_eq_true_eq] at h2; omega
    · have h2 := mem_cellsAt hc; omega

/-- The cells a write leaves are the old ones outside the range and the new ones inside it. -/
theorem mem_setRange {m : Memory} {a : Nat} {bs : List Byte} {c : Host.Cell} (h : c ∈ m.setRange a bs) :
    c ∈ m ∨ (a ≤ c.1 ∧ c.1 < a + bs.length) := by
  rcases List.mem_append.mp h with h | h
  · rcases List.mem_append.mp h with h | h
    · exact .inl (List.mem_of_mem_filter h)
    · exact .inr (mem_cellsAt h)
  · exact .inl (List.mem_of_mem_filter h)

theorem read_eq_none_of_lt {m : Memory} {x : Nat} (h : ∀ c ∈ m, x < c.1) : m.read x = none := by
  induction m with
  | nil => rfl
  | cons c m ih =>
    obtain ⟨y, b⟩ := c
    have hy : x < y := h (y, b) (by simp)
    rw [read_cons, if_neg (by omega)]
    exact ih fun d hd => h d (List.mem_cons_of_mem _ hd)

/-- Two canonical memories that read alike everywhere are equal. -/
theorem wf_ext {m n : Memory} (hm : m.wf) (hn : n.wf) (h : ∀ a, m.read a = n.read a) : m = n := by
  induction m generalizing n with
  | nil =>
    cases n with
    | nil => rfl
    | cons d n => have := h d.1; obtain ⟨y, b⟩ := d; simp [read_cons] at this
  | cons c m ih =>
    obtain ⟨x, b⟩ := c
    cases n with
    | nil => have := h x; simp [read_cons] at this
    | cons d n =>
      obtain ⟨y, b'⟩ := d
      have hx := List.pairwise_cons.mp hm
      have hy := List.pairwise_cons.mp hn
      have hxy : x = y := by
        rcases Nat.lt_trichotomy x y with l | l | l
        · have := h x
          rw [read_cons, if_pos rfl, read_eq_none_of_lt (m := (y, b') :: n)] at this
          · cases this
          · intro d hd
            rcases List.mem_cons.mp hd with rfl | hd
            · exact l
            · exact Nat.lt_trans l (hy.1 d hd)
        · exact l
        · have := h y
          rw [read_cons (a := y) (x := y), if_pos rfl, read_eq_none_of_lt (m := (x, b) :: m)] at this
          · cases this
          · intro d hd
            rcases List.mem_cons.mp hd with rfl | hd
            · exact l
            · exact Nat.lt_trans l (hx.1 d hd)
      subst hxy
      have hb : b = b' := by simpa [read_cons] using h x
      subst hb
      congr 1
      refine ih hx.2 hy.2 fun a => ?_
      by_cases e : x = a
      · subst e
        rw [read_eq_none_of_lt hx.1, read_eq_none_of_lt hy.1]
      · simpa [read_cons, e] using h a

@[simp] theorem length_lanes (v : Word) : (lanes v).length = 4 := rfl

/-- The four lanes of a word make the word (R85). -/
@[simp] theorem ofLanes_laneOf (v : Word) : ofLanes (laneOf v 0) (laneOf v 1) (laneOf v 2) (laneOf v 3) = v := by
  apply BitVec.eq_of_getLsbD_eq
  intro i hi
  simp only [ofLanes, laneOf, BitVec.getLsbD_append, BitVec.getLsbD_extractLsb']
  rcases Nat.lt_or_ge i 8 with h | h
  · simp [h]
  · rcases Nat.lt_or_ge i 16 with h' | h'
    · simp [show ¬ i < 8 by omega, show i - 8 < 8 by omega, show 8 + (i - 8) = i by omega]
    · rcases Nat.lt_or_ge i 24 with h'' | h''
      · simp [show ¬ i < 8 by omega, show ¬ i - 8 < 8 by omega, show i - 8 - 8 < 8 by omega,
          show 16 + (i - 8 - 8) = i by omega]
      · simp [show ¬ i < 8 by omega, show ¬ i - 8 < 8 by omega, show ¬ i - 8 - 8 < 8 by omega,
          show i - 8 - 8 - 8 < 8 by omega, show 24 + (i - 8 - 8 - 8) = i by omega]

/-- A word written and read at the same address. -/
@[simp] theorem readWord_writeWord (m : Memory) (a : Nat) (v : Word) : (m.writeWord a v).readWord a = some v := by
  simp [Memory.readWord, Memory.writeWord, read_setRange, lanes]

/-- A word write leaves every word that does not overlap it alone. -/
theorem readWord_writeWord_of_disjoint {m : Memory} {a x : Nat} {v : Word} (h : x + 4 ≤ a ∨ a + 4 ≤ x) :
    (m.writeWord a v).readWord x = m.readWord x := by
  simp only [Memory.readWord, Memory.writeWord]
  rw [read_setRange_of_outside, read_setRange_of_outside, read_setRange_of_outside, read_setRange_of_outside] <;>
    simp only [length_lanes] <;> omega

theorem writeWord_wf {m : Memory} (h : m.wf) (a : Nat) (v : Word) : (m.writeWord a v).wf := setRange_wf h a _

theorem writeElem_wf {m : Memory} (h : m.wf) (arr : Arr) (i : Nat) (v : Word) : (m.writeElem arr i v).wf :=
  writeWord_wf h _ v

theorem read_writeElem_of_outside {m : Memory} {arr : Arr} {i x : Nat} {v : Word}
    (h : x < arr.base + 4 * i ∨ arr.base + 4 * i + 4 ≤ x) : (m.writeElem arr i v).read x = m.read x :=
  read_setRange_of_outside (by simpa using h)

/-- In a canonical memory the cells below `a` hide no read at or above `a`. -/
theorem read_dropWhile {m : Memory} (hm : m.wf) {a x : Nat} (hx : a ≤ x) :
    Memory.read (m.dropWhile (fun c => decide (c.1 < a))) x = m.read x := by
  induction m with
  | nil => rfl
  | cons c m ih =>
    obtain ⟨y, b⟩ := c
    by_cases hy : y < a
    · rw [List.dropWhile_cons_of_pos (by simpa using hy), ih (List.pairwise_cons.mp hm).2, read_cons,
        if_neg (by omega)]
    · rw [List.dropWhile_cons_of_neg (by simpa using hy)]

theorem dropWhile_ge {m : Memory} (hm : m.wf) (a : Nat) :
    ∀ c ∈ m.dropWhile (fun c => decide (c.1 < a)), a ≤ c.1 := by
  induction m with
  | nil => simp
  | cons c m ih =>
    obtain ⟨y, b⟩ := c
    have h := List.pairwise_cons.mp hm
    by_cases hy : y < a
    · rw [List.dropWhile_cons_of_pos (by simpa using hy)]; exact ih h.2
    · rw [List.dropWhile_cons_of_neg (by simpa using hy)]
      intro d hd
      rcases List.mem_cons.mp hd with rfl | hd
      · simpa using hy
      · have := h.1 d hd; simp only at this; omega

theorem takeBytes_ok {arr : Arr} {n i : Nat} {m : Memory} (hm : m.wf) (hge : ∀ c ∈ m, arr.base + i ≤ c.1)
    (bs : List Byte) :
    takeBytes arr i n m = .ok bs ↔ bs.length = n ∧ ∀ k, k < n → m.read (arr.base + (i + k)) = bs[k]? := by
  induction n generalizing i m bs with
  | zero => cases bs <;> simp [takeBytes]
  | succ n ih =>
    cases m with
    | nil =>
      constructor
      · intro h; simp [takeBytes] at h
      · rintro ⟨hl, h⟩
        have := h 0 (by omega)
        rw [read_nil, eq_comm, List.getElem?_eq_none_iff] at this
        omega
    | cons c m =>
      obtain ⟨x, b⟩ := c
      have hw := List.pairwise_cons.mp hm
      have hx : arr.base + i ≤ x := hge (x, b) (by simp)
      by_cases e : x = arr.base + i
      · subst e
        have hge' : ∀ c ∈ m, arr.base + (i + 1) ≤ c.1 := fun c hc => by
          have := hw.1 c hc; simp only at this; omega
        have shift : ∀ k, Memory.read ((arr.base + i, b) :: m) (arr.base + (i + (k + 1))) =
            Memory.read m (arr.base + (i + 1 + k)) := fun k => by
          rw [read_cons, if_neg (by omega)]; congr 1; omega
        rw [takeBytes, if_pos rfl]
        constructor
        · intro h
          cases hr : takeBytes arr (i + 1) n m with
          | error f => simp [hr] at h
          | ok bs' =>
            rw [hr] at h
            simp only [Except.ok.injEq] at h
            subst h
            obtain ⟨hl, hk⟩ := (ih hw.2 hge' bs').mp hr
            refine ⟨by simp [hl], fun k hk' => ?_⟩
            cases k with
            | zero => simp [read_cons]
            | succ k => rw [shift, List.getElem?_cons_succ]; exact hk k (by omega)
        · rintro ⟨hl, hk⟩
          cases bs with
          | nil => simp at hl
          | cons b' bs' =>
            have h0 : b = b' := by simpa [read_cons] using hk 0 (by omega)
            have hr : takeBytes arr (i + 1) n m = .ok bs' := by
              refine (ih hw.2 hge' bs').mpr ⟨by simpa using hl, fun k hk' => ?_⟩
              have := hk (k + 1) (by omega)
              rwa [shift, List.getElem?_cons_succ] at this
            rw [hr, h0]
      · rw [takeBytes, if_neg e]
        constructor
        · intro h; cases h
        · rintro ⟨hl, hk⟩
          have := hk 0 (by omega)
          rw [read_eq_none_of_lt, eq_comm, List.getElem?_eq_none_iff] at this
          · omega
          · intro d hd
            rcases List.mem_cons.mp hd with rfl | hd
            · simp only; omega
            · have := hw.1 d hd; simp only at this; omega

/-- `readBytes` reads byte by byte: it answers the bytes of `n` elements, all written (R392). -/
theorem readBytes_ok {m : Memory} (hm : m.wf) (arr : Arr) (i n : Nat) (bs : List Byte) :
    m.readBytes arr i n = .ok bs ↔ bs.length = n ∧ ∀ k, k < n → m.read (arr.base + (i + k)) = bs[k]? := by
  rw [Memory.readBytes, takeBytes_ok (List.Pairwise.sublist (List.dropWhile_sublist _) hm) (dropWhile_ge hm _)]
  refine and_congr_right fun _ => forall_congr' fun k => imp_congr_right fun _ => ?_
  rw [read_dropWhile hm (by omega)]

/-- `readElems` answers the `n` elements, all written (R392). -/
theorem readElems_ok {m : Memory} {arr : Arr} {n i : Nat} (vs : List Nat) :
    m.readElems arr i n = .ok vs ↔
      vs.length = n ∧ ∀ k, k < n → (m.readElem arr (i + k)).map BitVec.toNat = vs[k]? := by
  induction n generalizing i vs with
  | zero => cases vs <;> simp [Memory.readElems]
  | succ n ih =>
    rw [Memory.readElems]
    cases h : m.readElem arr i with
    | none =>
      constructor
      · intro h'; cases h'
      · rintro ⟨hl, hk⟩
        have := hk 0 (by omega)
        rw [Nat.add_zero, h, Option.map_none, eq_comm, List.getElem?_eq_none_iff] at this
        omega
    | some v =>
      cases hr : m.readElems arr (i + 1) n with
      | error f =>
        constructor
        · intro h'; cases h'
        · rintro ⟨hl, hk⟩
          cases vs with
          | nil => simp at hl
          | cons w ws =>
            have : m.readElems arr (i + 1) n = .ok ws := (ih ws).mpr ⟨by simpa using hl, fun k hk' => by
              have := hk (k + 1) (by omega)
              rwa [List.getElem?_cons_succ, show i + (k + 1) = i + 1 + k by omega] at this⟩
            rw [hr] at this; cases this
      | ok ws =>
        obtain ⟨hl', hk'⟩ := (ih ws).mp hr
        simp only [Except.ok.injEq]
        constructor
        · rintro rfl
          refine ⟨by simp [hl'], fun k hk => ?_⟩
          cases k with
          | zero => simp [h]
          | succ k =>
            rw [List.getElem?_cons_succ, show i + (k + 1) = i + 1 + k by omega]
            exact hk' k (by omega)
        · rintro ⟨hl, hk⟩
          cases vs with
          | nil => simp at hl
          | cons w us =>
            have h0 : v.toNat = w := by simpa [h] using hk 0 (by omega)
            have : m.readElems arr (i + 1) n = .ok us := (ih us).mpr ⟨by simpa using hl, fun k hk' => by
              have := hk (k + 1) (by omega)
              rwa [List.getElem?_cons_succ, show i + (k + 1) = i + 1 + k by omega] at this⟩
            rw [hr] at this
            cases this
            rw [h0]

end Sys2Proof.Machine
end

