-- ==== Sys2Proof/Laws/State.lean ====
section
/-! SUPPORT. What each named update of the state does to each field: one lemma per field per update, so that no proof
unfolds a record update. -/

namespace Sys2Proof.Machine

section
variable (s : State) (i : Instr)

@[simp] theorem State.accept_params : (s.accept i).params = s.params := rfl
@[simp] theorem State.accept_status : (s.accept i).status = clearReport s.status := rfl
@[simp] theorem State.accept_ie : (s.accept i).ie = s.ie := rfl
@[simp] theorem State.accept_errInfo : (s.accept i).errInfo = 0#32 := rfl
@[simp] theorem State.accept_dataLen : (s.accept i).dataLen = s.dataLen := rfl
@[simp] theorem State.accept_lenSize : (s.accept i).lenSize = s.lenSize := rfl
@[simp] theorem State.accept_streamWords : (s.accept i).streamWords = s.streamWords := rfl
@[simp] theorem State.accept_trailing : (s.accept i).trailing = s.trailing := rfl
@[simp] theorem State.accept_wordWidth : (s.accept i).wordWidth = s.wordWidth := rfl
@[simp] theorem State.accept_numBlocks : (s.accept i).numBlocks = s.numBlocks := rfl
@[simp] theorem State.accept_outLen : (s.accept i).outLen = s.outLen := rfl
@[simp] theorem State.accept_blkFails : (s.accept i).blkFails = s.blkFails := rfl
@[simp] theorem State.accept_info0 : (s.accept i).info0 = s.info0 := rfl
@[simp] theorem State.accept_info1 : (s.accept i).info1 = s.info1 := rfl
@[simp] theorem State.accept_freq : (s.accept i).freq = s.freq := rfl
@[simp] theorem State.accept_table0 : (s.accept i).table0 = s.table0 := rfl
@[simp] theorem State.accept_table1 : (s.accept i).table1 = s.table1 := rfl
@[simp] theorem State.accept_mem : (s.accept i).mem = s.mem := rfl
@[simp] theorem State.accept_cur : (s.accept i).cur = some i := rfl
@[simp] theorem State.accept_engines : (s.accept i).engines = s.engines := rfl
@[simp] theorem State.accept_taken : (s.accept i).taken = s.taken := rfl
@[simp] theorem State.accept_script : (s.accept i).script = s.script := rfl
@[simp] theorem State.accept_responses : (s.accept i).responses = s.responses := rfl
@[simp] theorem State.accept_draws : (s.accept i).draws = s.draws := rfl
@[simp] theorem State.accept_schedule : (s.accept i).schedule = s.schedule := rfl
@[simp] theorem State.accept_busy : (s.accept i).busy = true := rfl

end

section
variable (s : State) (v : Word)

@[simp] theorem State.reject_params : (s.reject v).params = s.params := rfl
@[simp] theorem State.reject_status : (s.reject v).status = { reportError .illegalCmd (clearReport s.status) with done := true } := rfl
@[simp] theorem State.reject_ie : (s.reject v).ie = s.ie := rfl
@[simp] theorem State.reject_errInfo : (s.reject v).errInfo = v := rfl
@[simp] theorem State.reject_dataLen : (s.reject v).dataLen = s.dataLen := rfl
@[simp] theorem State.reject_lenSize : (s.reject v).lenSize = s.lenSize := rfl
@[simp] theorem State.reject_streamWords : (s.reject v).streamWords = s.streamWords := rfl
@[simp] theorem State.reject_trailing : (s.reject v).trailing = s.trailing := rfl
@[simp] theorem State.reject_wordWidth : (s.reject v).wordWidth = s.wordWidth := rfl
@[simp] theorem State.reject_numBlocks : (s.reject v).numBlocks = s.numBlocks := rfl
@[simp] theorem State.reject_outLen : (s.reject v).outLen = s.outLen := rfl
@[simp] theorem State.reject_blkFails : (s.reject v).blkFails = s.blkFails := rfl
@[simp] theorem State.reject_info0 : (s.reject v).info0 = s.info0 := rfl
@[simp] theorem State.reject_info1 : (s.reject v).info1 = s.info1 := rfl
@[simp] theorem State.reject_freq : (s.reject v).freq = s.freq := rfl
@[simp] theorem State.reject_table0 : (s.reject v).table0 = s.table0 := rfl
@[simp] theorem State.reject_table1 : (s.reject v).table1 = s.table1 := rfl
@[simp] theorem State.reject_mem : (s.reject v).mem = s.mem := rfl
@[simp] theorem State.reject_cur : (s.reject v).cur = s.cur := rfl
@[simp] theorem State.reject_engines : (s.reject v).engines = s.engines := rfl
@[simp] theorem State.reject_taken : (s.reject v).taken = s.taken := rfl
@[simp] theorem State.reject_script : (s.reject v).script = s.script := rfl
@[simp] theorem State.reject_responses : (s.reject v).responses = s.responses := rfl
@[simp] theorem State.reject_draws : (s.reject v).draws = s.draws := rfl
@[simp] theorem State.reject_schedule : (s.reject v).schedule = s.schedule := rfl
@[simp] theorem State.reject_busy : (s.reject v).busy = s.busy := rfl

end

section
variable (s : State)

@[simp] theorem State.complete_params : (s.complete).params = s.params := rfl
@[simp] theorem State.complete_status : (s.complete).status = { s.status with done := true } := rfl
@[simp] theorem State.complete_ie : (s.complete).ie = s.ie := rfl
@[simp] theorem State.complete_errInfo : (s.complete).errInfo = s.errInfo := rfl
@[simp] theorem State.complete_dataLen : (s.complete).dataLen = s.dataLen := rfl
@[simp] theorem State.complete_lenSize : (s.complete).lenSize = s.lenSize := rfl
@[simp] theorem State.complete_streamWords : (s.complete).streamWords = s.streamWords := rfl
@[simp] theorem State.complete_trailing : (s.complete).trailing = s.trailing := rfl
@[simp] theorem State.complete_wordWidth : (s.complete).wordWidth = s.wordWidth := rfl
@[simp] theorem State.complete_numBlocks : (s.complete).numBlocks = s.numBlocks := rfl
@[simp] theorem State.complete_outLen : (s.complete).outLen = s.outLen := rfl
@[simp] theorem State.complete_blkFails : (s.complete).blkFails = s.blkFails := rfl
@[simp] theorem State.complete_info0 : (s.complete).info0 = s.info0 := rfl
@[simp] theorem State.complete_info1 : (s.complete).info1 = s.info1 := rfl
@[simp] theorem State.complete_freq : (s.complete).freq = s.freq := rfl
@[simp] theorem State.complete_table0 : (s.complete).table0 = s.table0 := rfl
@[simp] theorem State.complete_table1 : (s.complete).table1 = s.table1 := rfl
@[simp] theorem State.complete_mem : (s.complete).mem = s.mem := rfl
@[simp] theorem State.complete_cur : (s.complete).cur = none := rfl
@[simp] theorem State.complete_engines : (s.complete).engines = s.engines := rfl
@[simp] theorem State.complete_taken : (s.complete).taken = s.taken := rfl
@[simp] theorem State.complete_script : (s.complete).script = s.script := rfl
@[simp] theorem State.complete_responses : (s.complete).responses = s.responses := rfl
@[simp] theorem State.complete_draws : (s.complete).draws = s.draws := rfl
@[simp] theorem State.complete_schedule : (s.complete).schedule = s.schedule := rfl
@[simp] theorem State.complete_busy : (s.complete).busy = false := rfl

end

section
variable (s : State) (c : ErrCode) (v : Word)

@[simp] theorem State.completeError_params : (s.completeError c v).params = s.params := rfl
@[simp] theorem State.completeError_status : (s.completeError c v).status = { reportError c s.status with done := true } := rfl
@[simp] theorem State.completeError_ie : (s.completeError c v).ie = s.ie := rfl
@[simp] theorem State.completeError_errInfo : (s.completeError c v).errInfo = v := rfl
@[simp] theorem State.completeError_dataLen : (s.completeError c v).dataLen = s.dataLen := rfl
@[simp] theorem State.completeError_lenSize : (s.completeError c v).lenSize = s.lenSize := rfl
@[simp] theorem State.completeError_streamWords : (s.completeError c v).streamWords = s.streamWords := rfl
@[simp] theorem State.completeError_trailing : (s.completeError c v).trailing = s.trailing := rfl
@[simp] theorem State.completeError_wordWidth : (s.completeError c v).wordWidth = s.wordWidth := rfl
@[simp] theorem State.completeError_numBlocks : (s.completeError c v).numBlocks = s.numBlocks := rfl
@[simp] theorem State.completeError_outLen : (s.completeError c v).outLen = s.outLen := rfl
@[simp] theorem State.completeError_blkFails : (s.completeError c v).blkFails = s.blkFails := rfl
@[simp] theorem State.completeError_info0 : (s.completeError c v).info0 = s.info0 := rfl
@[simp] theorem State.completeError_info1 : (s.completeError c v).info1 = s.info1 := rfl
@[simp] theorem State.completeError_freq : (s.completeError c v).freq = s.freq := rfl
@[simp] theorem State.completeError_table0 : (s.completeError c v).table0 = s.table0 := rfl
@[simp] theorem State.completeError_table1 : (s.completeError c v).table1 = s.table1 := rfl
@[simp] theorem State.completeError_mem : (s.completeError c v).mem = s.mem := rfl
@[simp] theorem State.completeError_cur : (s.completeError c v).cur = none := rfl
@[simp] theorem State.completeError_engines : (s.completeError c v).engines = s.engines := rfl
@[simp] theorem State.completeError_taken : (s.completeError c v).taken = s.taken := rfl
@[simp] theorem State.completeError_script : (s.completeError c v).script = s.script := rfl
@[simp] theorem State.completeError_responses : (s.completeError c v).responses = s.responses := rfl
@[simp] theorem State.completeError_draws : (s.completeError c v).draws = s.draws := rfl
@[simp] theorem State.completeError_schedule : (s.completeError c v).schedule = s.schedule := rfl
@[simp] theorem State.completeError_busy : (s.completeError c v).busy = false := rfl

end

section
variable (s : State) (v : Word)

@[simp] theorem State.acknowledge_params : (s.acknowledge v).params = s.params := rfl
@[simp] theorem State.acknowledge_status : (s.acknowledge v).status = clearStatus v s.status := rfl
@[simp] theorem State.acknowledge_ie : (s.acknowledge v).ie = s.ie := rfl
@[simp] theorem State.acknowledge_errInfo : (s.acknowledge v).errInfo = s.errInfo := rfl
@[simp] theorem State.acknowledge_dataLen : (s.acknowledge v).dataLen = s.dataLen := rfl
@[simp] theorem State.acknowledge_lenSize : (s.acknowledge v).lenSize = s.lenSize := rfl
@[simp] theorem State.acknowledge_streamWords : (s.acknowledge v).streamWords = s.streamWords := rfl
@[simp] theorem State.acknowledge_trailing : (s.acknowledge v).trailing = s.trailing := rfl
@[simp] theorem State.acknowledge_wordWidth : (s.acknowledge v).wordWidth = s.wordWidth := rfl
@[simp] theorem State.acknowledge_numBlocks : (s.acknowledge v).numBlocks = s.numBlocks := rfl
@[simp] theorem State.acknowledge_outLen : (s.acknowledge v).outLen = s.outLen := rfl
@[simp] theorem State.acknowledge_blkFails : (s.acknowledge v).blkFails = s.blkFails := rfl
@[simp] theorem State.acknowledge_info0 : (s.acknowledge v).info0 = s.info0 := rfl
@[simp] theorem State.acknowledge_info1 : (s.acknowledge v).info1 = s.info1 := rfl
@[simp] theorem State.acknowledge_freq : (s.acknowledge v).freq = s.freq := rfl
@[simp] theorem State.acknowledge_table0 : (s.acknowledge v).table0 = s.table0 := rfl
@[simp] theorem State.acknowledge_table1 : (s.acknowledge v).table1 = s.table1 := rfl
@[simp] theorem State.acknowledge_mem : (s.acknowledge v).mem = s.mem := rfl
@[simp] theorem State.acknowledge_cur : (s.acknowledge v).cur = s.cur := rfl
@[simp] theorem State.acknowledge_engines : (s.acknowledge v).engines = s.engines := rfl
@[simp] theorem State.acknowledge_taken : (s.acknowledge v).taken = s.taken := rfl
@[simp] theorem State.acknowledge_script : (s.acknowledge v).script = s.script := rfl
@[simp] theorem State.acknowledge_responses : (s.acknowledge v).responses = s.responses := rfl
@[simp] theorem State.acknowledge_draws : (s.acknowledge v).draws = s.draws := rfl
@[simp] theorem State.acknowledge_schedule : (s.acknowledge v).schedule = s.schedule := rfl
@[simp] theorem State.acknowledge_busy : (s.acknowledge v).busy = s.busy := rfl

end

section
variable (s : State)

@[simp] theorem State.overrun_params : (s.overrun).params = s.params := rfl
@[simp] theorem State.overrun_status : (s.overrun).status = { s.status with overrun := true } := rfl
@[simp] theorem State.overrun_ie : (s.overrun).ie = s.ie := rfl
@[simp] theorem State.overrun_errInfo : (s.overrun).errInfo = s.errInfo := rfl
@[simp] theorem State.overrun_dataLen : (s.overrun).dataLen = s.dataLen := rfl
@[simp] theorem State.overrun_lenSize : (s.overrun).lenSize = s.lenSize := rfl
@[simp] theorem State.overrun_streamWords : (s.overrun).streamWords = s.streamWords := rfl
@[simp] theorem State.overrun_trailing : (s.overrun).trailing = s.trailing := rfl
@[simp] theorem State.overrun_wordWidth : (s.overrun).wordWidth = s.wordWidth := rfl
@[simp] theorem State.overrun_numBlocks : (s.overrun).numBlocks = s.numBlocks := rfl
@[simp] theorem State.overrun_outLen : (s.overrun).outLen = s.outLen := rfl
@[simp] theorem State.overrun_blkFails : (s.overrun).blkFails = s.blkFails := rfl
@[simp] theorem State.overrun_info0 : (s.overrun).info0 = s.info0 := rfl
@[simp] theorem State.overrun_info1 : (s.overrun).info1 = s.info1 := rfl
@[simp] theorem State.overrun_freq : (s.overrun).freq = s.freq := rfl
@[simp] theorem State.overrun_table0 : (s.overrun).table0 = s.table0 := rfl
@[simp] theorem State.overrun_table1 : (s.overrun).table1 = s.table1 := rfl
@[simp] theorem State.overrun_mem : (s.overrun).mem = s.mem := rfl
@[simp] theorem State.overrun_cur : (s.overrun).cur = s.cur := rfl
@[simp] theorem State.overrun_engines : (s.overrun).engines = s.engines := rfl
@[simp] theorem State.overrun_taken : (s.overrun).taken = s.taken := rfl
@[simp] theorem State.overrun_script : (s.overrun).script = s.script := rfl
@[simp] theorem State.overrun_responses : (s.overrun).responses = s.responses := rfl
@[simp] theorem State.overrun_draws : (s.overrun).draws = s.draws := rfl
@[simp] theorem State.overrun_schedule : (s.overrun).schedule = s.schedule := rfl
@[simp] theorem State.overrun_busy : (s.overrun).busy = s.busy := rfl

end

section
variable (s : State)

@[simp] theorem State.idleEngines_params : (s.idleEngines).params = s.params := rfl
@[simp] theorem State.idleEngines_status : (s.idleEngines).status = s.status := rfl
@[simp] theorem State.idleEngines_ie : (s.idleEngines).ie = s.ie := rfl
@[simp] theorem State.idleEngines_errInfo : (s.idleEngines).errInfo = s.errInfo := rfl
@[simp] theorem State.idleEngines_dataLen : (s.idleEngines).dataLen = s.dataLen := rfl
@[simp] theorem State.idleEngines_lenSize : (s.idleEngines).lenSize = s.lenSize := rfl
@[simp] theorem State.idleEngines_streamWords : (s.idleEngines).streamWords = s.streamWords := rfl
@[simp] theorem State.idleEngines_trailing : (s.idleEngines).trailing = s.trailing := rfl
@[simp] theorem State.idleEngines_wordWidth : (s.idleEngines).wordWidth = s.wordWidth := rfl
@[simp] theorem State.idleEngines_numBlocks : (s.idleEngines).numBlocks = s.numBlocks := rfl
@[simp] theorem State.idleEngines_outLen : (s.idleEngines).outLen = s.outLen := rfl
@[simp] theorem State.idleEngines_blkFails : (s.idleEngines).blkFails = s.blkFails := rfl
@[simp] theorem State.idleEngines_info0 : (s.idleEngines).info0 = s.info0 := rfl
@[simp] theorem State.idleEngines_info1 : (s.idleEngines).info1 = s.info1 := rfl
@[simp] theorem State.idleEngines_freq : (s.idleEngines).freq = s.freq := rfl
@[simp] theorem State.idleEngines_table0 : (s.idleEngines).table0 = s.table0 := rfl
@[simp] theorem State.idleEngines_table1 : (s.idleEngines).table1 = s.table1 := rfl
@[simp] theorem State.idleEngines_mem : (s.idleEngines).mem = s.mem := rfl
@[simp] theorem State.idleEngines_cur : (s.idleEngines).cur = s.cur := rfl
@[simp] theorem State.idleEngines_engines : (s.idleEngines).engines = List.replicate s.engines.length none := rfl
@[simp] theorem State.idleEngines_taken : (s.idleEngines).taken = [] := rfl
@[simp] theorem State.idleEngines_script : (s.idleEngines).script = s.script := rfl
@[simp] theorem State.idleEngines_responses : (s.idleEngines).responses = s.responses := rfl
@[simp] theorem State.idleEngines_draws : (s.idleEngines).draws = s.draws := rfl
@[simp] theorem State.idleEngines_schedule : (s.idleEngines).schedule = s.schedule := rfl
@[simp] theorem State.idleEngines_busy : (s.idleEngines).busy = s.busy := rfl

end

section
variable (s : State) (e : Nat) (w : Option Walk)

@[simp] theorem State.setEngine_params : (s.setEngine e w).params = s.params := rfl
@[simp] theorem State.setEngine_status : (s.setEngine e w).status = s.status := rfl
@[simp] theorem State.setEngine_ie : (s.setEngine e w).ie = s.ie := rfl
@[simp] theorem State.setEngine_errInfo : (s.setEngine e w).errInfo = s.errInfo := rfl
@[simp] theorem State.setEngine_dataLen : (s.setEngine e w).dataLen = s.dataLen := rfl
@[simp] theorem State.setEngine_lenSize : (s.setEngine e w).lenSize = s.lenSize := rfl
@[simp] theorem State.setEngine_streamWords : (s.setEngine e w).streamWords = s.streamWords := rfl
@[simp] theorem State.setEngine_trailing : (s.setEngine e w).trailing = s.trailing := rfl
@[simp] theorem State.setEngine_wordWidth : (s.setEngine e w).wordWidth = s.wordWidth := rfl
@[simp] theorem State.setEngine_numBlocks : (s.setEngine e w).numBlocks = s.numBlocks := rfl
@[simp] theorem State.setEngine_outLen : (s.setEngine e w).outLen = s.outLen := rfl
@[simp] theorem State.setEngine_blkFails : (s.setEngine e w).blkFails = s.blkFails := rfl
@[simp] theorem State.setEngine_info0 : (s.setEngine e w).info0 = s.info0 := rfl
@[simp] theorem State.setEngine_info1 : (s.setEngine e w).info1 = s.info1 := rfl
@[simp] theorem State.setEngine_freq : (s.setEngine e w).freq = s.freq := rfl
@[simp] theorem State.setEngine_table0 : (s.setEngine e w).table0 = s.table0 := rfl
@[simp] theorem State.setEngine_table1 : (s.setEngine e w).table1 = s.table1 := rfl
@[simp] theorem State.setEngine_mem : (s.setEngine e w).mem = s.mem := rfl
@[simp] theorem State.setEngine_cur : (s.setEngine e w).cur = s.cur := rfl
@[simp] theorem State.setEngine_engines : (s.setEngine e w).engines = s.engines.set e w := rfl
@[simp] theorem State.setEngine_taken : (s.setEngine e w).taken = s.taken := rfl
@[simp] theorem State.setEngine_script : (s.setEngine e w).script = s.script := rfl
@[simp] theorem State.setEngine_responses : (s.setEngine e w).responses = s.responses := rfl
@[simp] theorem State.setEngine_draws : (s.setEngine e w).draws = s.draws := rfl
@[simp] theorem State.setEngine_schedule : (s.setEngine e w).schedule = s.schedule := rfl
@[simp] theorem State.setEngine_busy : (s.setEngine e w).busy = s.busy := rfl

end

section
variable (s : State) (v : Word)

@[simp] theorem State.respond_params : (s.respond v).params = s.params := rfl
@[simp] theorem State.respond_status : (s.respond v).status = s.status := rfl
@[simp] theorem State.respond_ie : (s.respond v).ie = s.ie := rfl
@[simp] theorem State.respond_errInfo : (s.respond v).errInfo = s.errInfo := rfl
@[simp] theorem State.respond_dataLen : (s.respond v).dataLen = s.dataLen := rfl
@[simp] theorem State.respond_lenSize : (s.respond v).lenSize = s.lenSize := rfl
@[simp] theorem State.respond_streamWords : (s.respond v).streamWords = s.streamWords := rfl
@[simp] theorem State.respond_trailing : (s.respond v).trailing = s.trailing := rfl
@[simp] theorem State.respond_wordWidth : (s.respond v).wordWidth = s.wordWidth := rfl
@[simp] theorem State.respond_numBlocks : (s.respond v).numBlocks = s.numBlocks := rfl
@[simp] theorem State.respond_outLen : (s.respond v).outLen = s.outLen := rfl
@[simp] theorem State.respond_blkFails : (s.respond v).blkFails = s.blkFails := rfl
@[simp] theorem State.respond_info0 : (s.respond v).info0 = s.info0 := rfl
@[simp] theorem State.respond_info1 : (s.respond v).info1 = s.info1 := rfl
@[simp] theorem State.respond_freq : (s.respond v).freq = s.freq := rfl
@[simp] theorem State.respond_table0 : (s.respond v).table0 = s.table0 := rfl
@[simp] theorem State.respond_table1 : (s.respond v).table1 = s.table1 := rfl
@[simp] theorem State.respond_mem : (s.respond v).mem = s.mem := rfl
@[simp] theorem State.respond_cur : (s.respond v).cur = s.cur := rfl
@[simp] theorem State.respond_engines : (s.respond v).engines = s.engines := rfl
@[simp] theorem State.respond_taken : (s.respond v).taken = s.taken := rfl
@[simp] theorem State.respond_script : (s.respond v).script = s.script := rfl
@[simp] theorem State.respond_responses : (s.respond v).responses = v :: s.responses := rfl
@[simp] theorem State.respond_draws : (s.respond v).draws = s.draws + 1 := rfl
@[simp] theorem State.respond_schedule : (s.respond v).schedule = s.schedule := rfl
@[simp] theorem State.respond_busy : (s.respond v).busy = s.busy := rfl

end

section
variable (s : State) (a : Arr) (i : Nat) (v : Word)

@[simp] theorem State.storeArray_params : (s.storeArray a i v).params = s.params := rfl
@[simp] theorem State.storeArray_status : (s.storeArray a i v).status = s.status := rfl
@[simp] theorem State.storeArray_ie : (s.storeArray a i v).ie = s.ie := rfl
@[simp] theorem State.storeArray_errInfo : (s.storeArray a i v).errInfo = s.errInfo := rfl
@[simp] theorem State.storeArray_dataLen : (s.storeArray a i v).dataLen = s.dataLen := rfl
@[simp] theorem State.storeArray_lenSize : (s.storeArray a i v).lenSize = s.lenSize := rfl
@[simp] theorem State.storeArray_streamWords : (s.storeArray a i v).streamWords = s.streamWords := rfl
@[simp] theorem State.storeArray_trailing : (s.storeArray a i v).trailing = s.trailing := rfl
@[simp] theorem State.storeArray_wordWidth : (s.storeArray a i v).wordWidth = s.wordWidth := rfl
@[simp] theorem State.storeArray_numBlocks : (s.storeArray a i v).numBlocks = s.numBlocks := rfl
@[simp] theorem State.storeArray_outLen : (s.storeArray a i v).outLen = s.outLen := rfl
@[simp] theorem State.storeArray_blkFails : (s.storeArray a i v).blkFails = s.blkFails := rfl
@[simp] theorem State.storeArray_info0 : (s.storeArray a i v).info0 = s.info0 := rfl
@[simp] theorem State.storeArray_info1 : (s.storeArray a i v).info1 = s.info1 := rfl
@[simp] theorem State.storeArray_freq : (s.storeArray a i v).freq = s.freq := rfl
@[simp] theorem State.storeArray_table0 : (s.storeArray a i v).table0 = s.table0 := rfl
@[simp] theorem State.storeArray_table1 : (s.storeArray a i v).table1 = s.table1 := rfl
@[simp] theorem State.storeArray_mem : (s.storeArray a i v).mem = s.mem.setRange (a.base + i) ((lanes v).take (a.bytes s.params - i)) := rfl
@[simp] theorem State.storeArray_cur : (s.storeArray a i v).cur = s.cur := rfl
@[simp] theorem State.storeArray_engines : (s.storeArray a i v).engines = s.engines := rfl
@[simp] theorem State.storeArray_taken : (s.storeArray a i v).taken = s.taken := rfl
@[simp] theorem State.storeArray_script : (s.storeArray a i v).script = s.script := rfl
@[simp] theorem State.storeArray_responses : (s.storeArray a i v).responses = s.responses := rfl
@[simp] theorem State.storeArray_draws : (s.storeArray a i v).draws = s.draws := rfl
@[simp] theorem State.storeArray_schedule : (s.storeArray a i v).schedule = s.schedule := rfl
@[simp] theorem State.storeArray_busy : (s.storeArray a i v).busy = s.busy := rfl

end

section
variable (s : State) (i : Instr)

@[simp] theorem State.withCommand_params : (s.withCommand i).params = s.params := rfl
@[simp] theorem State.withCommand_status : (s.withCommand i).status = clearReport s.status := rfl
@[simp] theorem State.withCommand_ie : (s.withCommand i).ie = s.ie := rfl
@[simp] theorem State.withCommand_errInfo : (s.withCommand i).errInfo = 0#32 := rfl
@[simp] theorem State.withCommand_dataLen : (s.withCommand i).dataLen = s.dataLen := rfl
@[simp] theorem State.withCommand_lenSize : (s.withCommand i).lenSize = s.lenSize := rfl
@[simp] theorem State.withCommand_streamWords : (s.withCommand i).streamWords = s.streamWords := rfl
@[simp] theorem State.withCommand_trailing : (s.withCommand i).trailing = s.trailing := rfl
@[simp] theorem State.withCommand_wordWidth : (s.withCommand i).wordWidth = s.wordWidth := rfl
@[simp] theorem State.withCommand_numBlocks : (s.withCommand i).numBlocks = s.numBlocks := rfl
@[simp] theorem State.withCommand_outLen : (s.withCommand i).outLen = s.outLen := rfl
@[simp] theorem State.withCommand_blkFails : (s.withCommand i).blkFails = s.blkFails := rfl
@[simp] theorem State.withCommand_info0 : (s.withCommand i).info0 = s.info0 := rfl
@[simp] theorem State.withCommand_info1 : (s.withCommand i).info1 = s.info1 := rfl
@[simp] theorem State.withCommand_freq : (s.withCommand i).freq = s.freq := rfl
@[simp] theorem State.withCommand_table0 : (s.withCommand i).table0 = s.table0 := rfl
@[simp] theorem State.withCommand_table1 : (s.withCommand i).table1 = s.table1 := rfl
@[simp] theorem State.withCommand_mem : (s.withCommand i).mem = s.mem := rfl
@[simp] theorem State.withCommand_cur : (s.withCommand i).cur = some i := rfl
@[simp] theorem State.withCommand_engines : (s.withCommand i).engines = s.engines := rfl
@[simp] theorem State.withCommand_taken : (s.withCommand i).taken = s.taken := rfl
@[simp] theorem State.withCommand_script : (s.withCommand i).script = s.script := rfl
@[simp] theorem State.withCommand_responses : (s.withCommand i).responses = s.responses := rfl
@[simp] theorem State.withCommand_draws : (s.withCommand i).draws = s.draws := rfl
@[simp] theorem State.withCommand_schedule : (s.withCommand i).schedule = [] := rfl
@[simp] theorem State.withCommand_busy : (s.withCommand i).busy = true := rfl

end

section
variable (s : State) (b : Bank) (t : List Code) (i : TableInfo)

@[simp] theorem State.setBank_params : (s.setBank b t i).params = s.params := by cases b <;> rfl
@[simp] theorem State.setBank_status : (s.setBank b t i).status = s.status := by cases b <;> rfl
@[simp] theorem State.setBank_ie : (s.setBank b t i).ie = s.ie := by cases b <;> rfl
@[simp] theorem State.setBank_errInfo : (s.setBank b t i).errInfo = s.errInfo := by cases b <;> rfl
@[simp] theorem State.setBank_dataLen : (s.setBank b t i).dataLen = s.dataLen := by cases b <;> rfl
@[simp] theorem State.setBank_lenSize : (s.setBank b t i).lenSize = s.lenSize := by cases b <;> rfl
@[simp] theorem State.setBank_streamWords : (s.setBank b t i).streamWords = s.streamWords := by cases b <;> rfl
@[simp] theorem State.setBank_trailing : (s.setBank b t i).trailing = s.trailing := by cases b <;> rfl
@[simp] theorem State.setBank_wordWidth : (s.setBank b t i).wordWidth = s.wordWidth := by cases b <;> rfl
@[simp] theorem State.setBank_numBlocks : (s.setBank b t i).numBlocks = s.numBlocks := by cases b <;> rfl
@[simp] theorem State.setBank_outLen : (s.setBank b t i).outLen = s.outLen := by cases b <;> rfl
@[simp] theorem State.setBank_blkFails : (s.setBank b t i).blkFails = s.blkFails := by cases b <;> rfl
@[simp] theorem State.setBank_freq : (s.setBank b t i).freq = s.freq := by cases b <;> rfl
@[simp] theorem State.setBank_mem : (s.setBank b t i).mem = s.mem := by cases b <;> rfl
@[simp] theorem State.setBank_cur : (s.setBank b t i).cur = s.cur := by cases b <;> rfl
@[simp] theorem State.setBank_engines : (s.setBank b t i).engines = s.engines := by cases b <;> rfl
@[simp] theorem State.setBank_taken : (s.setBank b t i).taken = s.taken := by cases b <;> rfl
@[simp] theorem State.setBank_script : (s.setBank b t i).script = s.script := by cases b <;> rfl
@[simp] theorem State.setBank_responses : (s.setBank b t i).responses = s.responses := by cases b <;> rfl
@[simp] theorem State.setBank_draws : (s.setBank b t i).draws = s.draws := by cases b <;> rfl
@[simp] theorem State.setBank_schedule : (s.setBank b t i).schedule = s.schedule := by cases b <;> rfl
@[simp] theorem State.setBank_busy : (s.setBank b t i).busy = s.busy := by cases b <;> rfl

/-- The bank that is written. -/
@[simp] theorem State.setBank_table_self : (s.setBank b t i).table b = t := by cases b <;> rfl
@[simp] theorem State.setBank_info_self : (s.setBank b t i).info b = i := by cases b <;> rfl

/-- The other bank. -/
theorem State.setBank_table_ne {b' : Bank} (h : b' ≠ b) : (s.setBank b t i).table b' = s.table b' := by
  cases b <;> cases b' <;> first | rfl | exact absurd rfl h
theorem State.setBank_info_ne {b' : Bank} (h : b' ≠ b) : (s.setBank b t i).info b' = s.info b' := by
  cases b <;> cases b' <;> first | rfl | exact absurd rfl h

end

/-- The reset input keeps the parameters and what lies outside the block, and nothing else (R390, R394). -/
theorem State.platformReset_eq (s : State) :
    s.platformReset =
      { State.resetOf s.params with
        script := s.script, responses := s.responses, draws := s.draws, schedule := s.schedule } := rfl

@[simp] theorem State.platformReset_params (s : State) : s.platformReset.params = s.params := rfl
@[simp] theorem State.platformReset_busy (s : State) : s.platformReset.busy = false := rfl

end Sys2Proof.Machine
end

