-- ==== Sys2Proof/Laws/Exec.lean ====
section
/-! SUPPORT. What each shared operation can do, said once: a command's completion, each command's rule, one iteration and
one turn of an engine, a host access, and a step. Provers cite these in place of unfolding. -/

namespace Sys2Proof.Machine

/-! ## Completion -/

/-- A command that answers a next state has completed, without or with an error. -/
theorem finish_next {r : CmdResult} {t : State} (h : r.finish = .next t) :
    (∃ s, r = .done s ∧ t = s.complete) ∨
      (∃ s code info, r = .error s code info ∧ t = s.completeError code info) := by
  cases r with
  | done s => exact .inl ⟨s, rfl, by simpa [CmdResult.finish] using h.symm⟩
  | error s c i => exact .inr ⟨s, c, i, rfl, by simpa [CmdResult.finish] using h.symm⟩
  | fault f => simp [CmdResult.finish] at h

/-- A command faults only with its rule's fault. -/
theorem finish_fault {r : CmdResult} {f : Fault} (h : r.finish = .fault f) : r = .fault f := by
  cases r <;> simp_all [CmdResult.finish]

/-- No command is refused. -/
theorem finish_ne_refused (r : CmdResult) (x : Refusal) : r.finish ≠ .refused x := by
  cases r <;> simp [CmdResult.finish]

/-- The dispatch as one completion: every command's meaning is the completion of its rule. -/
theorem exec_eq (i : Instr) (s : State) : exec i s =
    CmdResult.finish (match i with
      | .assign b => assignCmd b s
      | .count => countCmd s
      | .tree => .done (treeCmd s)
      | .build b => buildCmd b s
      | .decode b => decodeRule b s
      | .compare => compareCmd s) := by
  cases i <;> rfl

/-! ## The rules -/

/-- COUNT's rule: too long, or an unwritten byte, or the list of the bytes and nothing else. -/
theorem countCmd_cases (s : State) :
    (s.params.maxDataBytes < s.dataLen.toNat ∧ countCmd s = .error s .dataTooLong s.dataLen) ∨
    (s.dataLen.toNat ≤ s.params.maxDataBytes ∧
      ((∃ f, s.mem.readBytes .dataBuf 0 s.dataLen.toNat = .error f ∧ countCmd s = .fault f) ∨
       (∃ data, s.mem.readBytes .dataBuf 0 s.dataLen.toNat = .ok data ∧
          countCmd s = .done { s with freq := countList data }))) := by
  unfold countCmd
  split
  · exact .inl ⟨‹_›, rfl⟩
  · refine .inr ⟨by omega, ?_⟩
    cases s.mem.readBytes .dataBuf 0 s.dataLen.toNat with
    | error f => exact .inl ⟨f, rfl, rfl⟩
    | ok d => exact .inr ⟨d, rfl, rfl⟩

/-- ASSIGN's rule: its four errors and the read of LEN_BUF in their order, or the commit of the canonical table. -/
theorem assignCmd_cases (b : Bank) (s : State) :
    (s.lenSize ≠ 256#32 ∧ assignCmd b s = .error s .lenSizeMismatch s.lenSize) ∨
    (s.lenSize = 256#32 ∧
      ((∃ f, s.mem.readBytes .lenBuf 0 alphabetSize = .error f ∧ assignCmd b s = .fault f) ∨
       (∃ bytes, s.mem.readBytes .lenBuf 0 alphabetSize = .ok bytes ∧
         ((∃ sym, tooLong s.params.maxLen (bytes.map BitVec.toNat) = some sym ∧
             assignCmd b s = .error s .lenTooLong (BitVec.ofNat 32 sym)) ∨
          (tooLong s.params.maxLen (bytes.map BitVec.toNat) = none ∧
            ((∃ code sym, canonical (bytes.map BitVec.toNat) = .error (code, sym) ∧
                assignCmd b s = .error s code (BitVec.ofNat 32 sym)) ∨
             (∃ t m, canonical (bytes.map BitVec.toNat) = .ok (t, m) ∧
                assignCmd b s = .done (s.setBank b t ⟨BitVec.ofNat 8 m, true⟩)))))))) := by
  unfold assignCmd
  split
  · exact .inl ⟨‹_›, rfl⟩
  · refine .inr ⟨Decidable.of_not_not ‹_›, ?_⟩
    cases s.mem.readBytes .lenBuf 0 alphabetSize with
    | error f => exact .inl ⟨f, rfl, rfl⟩
    | ok bytes =>
      refine .inr ⟨bytes, rfl, ?_⟩
      dsimp only
      cases tooLong s.params.maxLen (bytes.map BitVec.toNat) with
      | some sym => exact .inl ⟨sym, rfl, rfl⟩
      | none =>
        refine .inr ⟨rfl, ?_⟩
        dsimp only
        cases canonical (bytes.map BitVec.toNat) with
        | error e => exact .inl ⟨e.1, e.2, rfl, rfl⟩
        | ok r => exact .inr ⟨r.1, r.2, rfl, rfl⟩

/-- BUILD's rule: COUNT's error or fault, or ASSIGN's rule after COUNT and TREE. -/
theorem buildCmd_cases (b : Bank) (s : State) :
    (s.params.maxDataBytes < s.dataLen.toNat ∧ buildCmd b s = .error s .dataTooLong s.dataLen) ∨
    (∃ f, s.mem.readBytes .dataBuf 0 s.dataLen.toNat = .error f ∧ buildCmd b s = .fault f) ∨
    (s.dataLen.toNat ≤ s.params.maxDataBytes ∧
      ∃ data, s.mem.readBytes .dataBuf 0 s.dataLen.toNat = .ok data ∧
        buildCmd b s = assignCmd b (treeCmd { s with freq := countList data })) := by
  obtain ⟨h, e⟩ | ⟨h, ⟨f, hf, e⟩ | ⟨d, hd, e⟩⟩ := countCmd_cases s
  · exact .inl ⟨h, by simp [buildCmd, e]⟩
  · exact .inr (.inl ⟨f, hf, by simp [buildCmd, e]⟩)
  · exact .inr (.inr ⟨h, d, hd, by simp [buildCmd, e]⟩)

/-- COMPARE's rule: bank 0 absent, bank 1 absent, or EQUAL and nothing else. -/
theorem compareCmd_cases (s : State) :
    (s.info0.valid = false ∧ compareCmd s = .error s .noTable 0#32) ∨
    (s.info0.valid = true ∧ s.info1.valid = false ∧ compareCmd s = .error s .noTable 1#32) ∨
    (s.info0.valid = true ∧ s.info1.valid = true ∧
      compareCmd s = .done { s with status := { s.status with equal := sameEntries s.table0 s.table1 } }) := by
  unfold compareCmd
  cases s.info0.valid <;> cases s.info1.valid <;> simp

/-- What passing the invocation checks means, and the environment it gives. -/
theorem invocationChecks_pass {b : Bank} {s : State} {env : DecodeEnv} (h : invocationChecks b s = .pass env) :
    (s.info b).valid = true ∧ legalWidth s.wordWidth.toNat = true ∧
    s.streamWords.toNat ≤ s.params.maxStreamWords ∧ s.numBlocks.toNat ≤ s.params.maxBlocks ∧
    s.mem.readElems .blkCount 0 s.numBlocks.toNat = .ok env.counts ∧
    firstOver s.params.maxOutBytes 0 0 env.counts = none ∧
    badTrailing s.streamWords.toNat s.trailing.toNat s.wordWidth.toNat = false ∧
    env.table = s.table b ∧ env.maxlen = (s.info b).maxlen.toNat ∧ env.width = s.wordWidth.toNat ∧
    env.totalBits = s.streamWords.toNat * s.wordWidth.toNat - s.trailing.toNat := by
  unfold invocationChecks at h
  split at h
  · cases h
  split at h
  · cases h
  split at h
  · cases h
  split at h
  · cases h
  cases hr : s.mem.readElems .blkCount 0 s.numBlocks.toNat with
  | error f => rw [hr] at h; cases h
  | ok counts =>
    rw [hr] at h
    dsimp only at h
    cases hf : firstOver s.params.maxOutBytes 0 0 counts with
    | some i => rw [hf] at h; cases h
    | none =>
      rw [hf] at h
      dsimp only at h
      split at h
      · cases h
      · injection h with h
        subst h
        refine ⟨by simpa using ‹¬ (s.info b).valid = false›, by simpa using ‹¬ legalWidth _ = false›, by omega,
          by omega, rfl, hf, by simpa using ‹¬ badTrailing _ _ _ = true›, rfl, rfl, rfl, rfl⟩

/-- The invocation checks read the bank, WORD_WIDTH, STREAM_WORDS, NUM_BLOCKS, TRAILING, the parameters and BLK_COUNT,
and nothing else. -/
theorem invocationChecks_congr {b : Bank} {s t : State} (hi : t.info b = s.info b) (ht : t.table b = s.table b)
    (hp : t.params = s.params) (hw : t.wordWidth = s.wordWidth) (hn : t.streamWords = s.streamWords)
    (hb : t.numBlocks = s.numBlocks) (hr : t.trailing = s.trailing)
    (hc : t.mem.readElems .blkCount 0 s.numBlocks.toNat = s.mem.readElems .blkCount 0 s.numBlocks.toNat) :
    invocationChecks b t = invocationChecks b s := by
  unfold invocationChecks
  rw [hi, ht, hp, hw, hn, hb, hr, hc]

/-- The state a DECODE ends in before its completion, with memory `m` and `n` blocks. -/
def State.decoded (s : State) (m : Memory) (counts : List Nat) : State :=
  { s.idleEngines with
    mem := m, outLen := BitVec.ofNat 32 counts.sum,
    blkFails := BitVec.ofNat 32 (failingBlocks m counts.length).length }

/-- DECODE's rule: an invocation error or fault, a fault of a block, or every block finished, with the least failing
block's error if one fails. -/
theorem decodeRule_cases (b : Bank) (s : State) :
    (∃ f, invocationChecks b s = .fault f ∧ decodeRule b s = .fault f) ∨
    (∃ code info, invocationChecks b s = .error code info ∧ decodeRule b s = .error s code info) ∨
    (∃ env, invocationChecks b s = .pass env ∧
      ((∃ f, env.finishAll s = .error f ∧ decodeRule b s = .fault f) ∨
       (∃ m, env.finishAll s = .ok m ∧
         ((failingBlocks m env.counts.length = [] ∧ decodeRule b s = .done (s.decoded m env.counts)) ∨
          (∃ i rest, failingBlocks m env.counts.length = i :: rest ∧
            decodeRule b s = .error (s.decoded m env.counts) (failureCode m i) (BitVec.ofNat 32 i)))))) := by
  unfold decodeRule
  cases invocationChecks b s with
  | fault f => exact .inl ⟨f, rfl, rfl⟩
  | error c i => exact .inr (.inl ⟨c, i, rfl, rfl⟩)
  | pass env =>
    refine .inr (.inr ⟨env, rfl, ?_⟩)
    dsimp only
    cases env.finishAll s with
    | error f => exact .inl ⟨f, rfl, rfl⟩
    | ok m =>
      refine .inr ⟨m, rfl, ?_⟩
      dsimp only
      cases h : failingBlocks m env.counts.length with
      | nil => exact .inl ⟨rfl, by simp [State.decoded, h]⟩
      | cons i rest => exact .inr ⟨i, rest, rfl, by simp [State.decoded, h]⟩

/-! ## Blocks and engines -/

/-- One iteration: the block ends OK or TRUNCATED, the stream slot is unwritten, or one bit is taken. -/
theorem iterate_cases (env : DecodeEnv) (w : Walk) (m : Memory) :
    (env.count w.block ≤ w.k ∧ env.iterate w m = .ended (endBlock .ok w m)) ∨
    (w.k < env.count w.block ∧ env.totalBits ≤ w.p ∧ env.iterate w m = .ended (endBlock .truncated w m)) ∨
    (w.k < env.count w.block ∧ w.p < env.totalBits ∧
      ((streamBit m env.width w.p = none ∧ env.iterate w m = .fault (.unwritten .stream (w.p / env.width))) ∨
       (∃ bit, streamBit m env.width w.p = some bit ∧ env.iterate w m = env.takeBit w m bit))) := by
  unfold DecodeEnv.iterate
  split
  · split
    · exact .inr (.inl ⟨‹_›, ‹_›, rfl⟩)
    · refine .inr (.inr ⟨‹_›, by omega, ?_⟩)
      cases streamBit m env.width w.p with
      | none => exact .inl ⟨rfl, rfl⟩
      | some bit => exact .inr ⟨bit, rfl, rfl⟩
  · exact .inl ⟨by omega, rfl⟩

/-- Taking one bit: a symbol is emitted, the block ends with BAD_CODE, or the codeword goes on. -/
theorem takeBit_cases (env : DecodeEnv) (w : Walk) (m : Memory) (bit : Nat) :
    (∃ sym, findSymbol env.table (w.l + 1) (2 * w.c + bit) = some sym ∧
      env.takeBit w m bit = .running { w with p := w.p + 1, c := 0, l := 0, k := w.k + 1, q := w.p + 1 }
        (m.setRange (Arr.base .outBuf + (w.base + w.k)) [BitVec.ofNat 8 sym])) ∨
    (findSymbol env.table (w.l + 1) (2 * w.c + bit) = none ∧ env.maxlen ≤ w.l + 1 ∧
      env.takeBit w m bit = .ended (endBlock .badCode { w with p := w.p + 1, c := 2 * w.c + bit, l := w.l + 1 } m)) ∨
    (findSymbol env.table (w.l + 1) (2 * w.c + bit) = none ∧ w.l + 1 < env.maxlen ∧
      env.takeBit w m bit = .running { w with p := w.p + 1, c := 2 * w.c + bit, l := w.l + 1 } m) := by
  unfold DecodeEnv.takeBit
  cases h : findSymbol env.table (w.l + 1) (2 * w.c + bit) with
  | some sym => exact .inl ⟨sym, rfl, by simp [h]⟩
  | none =>
    by_cases hm : env.maxlen ≤ w.l + 1
    · exact .inr (.inl ⟨rfl, hm, by simp [h, hm]⟩)
    · exact .inr (.inr ⟨rfl, by omega, by simp [h, hm]⟩)

/-- A stream bit is 0 or 1. -/
theorem streamBit_lt {m : Memory} {w p bit : Nat} (h : streamBit m w p = some bit) : bit < 2 := by
  obtain ⟨v, -, rfl⟩ := Option.map_eq_some_iff.mp h
  exact Nat.mod_lt _ (by decide)

/-- The four result entries an ended block reads back (R310, R311). -/
theorem endBlock_entries (r : BlockEnd) (w : Walk) (m : Memory) (_ : w.block < 4096) :
    (endBlock r w m).readElem .blkStatus w.block = some (blockStatus r) ∧
    (endBlock r w m).readElem .blkErrpos w.block = some (if r = .ok then 0#32 else BitVec.ofNat 32 w.q) ∧
    (endBlock r w m).readElem .blkDone w.block = some (BitVec.ofNat 32 w.k) ∧
    (endBlock r w m).readElem .blkEnd w.block = some (BitVec.ofNat 32 w.p) := by
  unfold endBlock Memory.readElem Memory.writeElem
  simp only [Arr.base]
  refine ⟨?_, ?_, ?_, readWord_writeWord _ _ _⟩
  · rw [readWord_writeWord_of_disjoint (by omega), readWord_writeWord_of_disjoint (by omega),
      readWord_writeWord_of_disjoint (by omega), readWord_writeWord]
  · rw [readWord_writeWord_of_disjoint (by omega), readWord_writeWord_of_disjoint (by omega), readWord_writeWord]
  · rw [readWord_writeWord_of_disjoint (by omega), readWord_writeWord]

/-- An ended block leaves every byte outside its four result entries alone. -/
theorem read_endBlock {r : BlockEnd} {w : Walk} {m : Memory} {x : Nat}
    (h : ∀ arr ∈ [Arr.blkStatus, Arr.blkErrpos, Arr.blkDone, Arr.blkEnd],
      x < arr.base + 4 * w.block ∨ arr.base + 4 * w.block + 4 ≤ x) :
    (endBlock r w m).read x = m.read x := by
  unfold endBlock
  rw [read_writeElem_of_outside (h _ (by simp)), read_writeElem_of_outside (h _ (by simp)),
    read_writeElem_of_outside (h _ (by simp)), read_writeElem_of_outside (h _ (by simp))]

/-! ## The canonical form is kept by every memory operation -/

/-- The memory of a HUFF-CORE after reset is canonical. -/
theorem resetOf_mem_wf (p : Params) : (State.resetOf p).mem.wf := List.Pairwise.nil

/-- The memory after reset in the reference configuration is canonical. -/
theorem reset_mem_wf : State.reset.mem.wf := resetOf_mem_wf _

theorem endBlock_wf {m : Memory} (h : m.wf) (r : BlockEnd) (w : Walk) : (endBlock r w m).wf := by
  unfold endBlock
  exact writeElem_wf (writeElem_wf (writeElem_wf (writeElem_wf h ..) ..) ..) ..

/-- Whatever one iteration leads to, the memory it leaves is canonical. -/
theorem iterate_wf {env : DecodeEnv} {w : Walk} {m : Memory} (h : m.wf) :
    (∀ w' m', env.iterate w m = .running w' m' → m'.wf) ∧ (∀ m', env.iterate w m = .ended m' → m'.wf) := by
  obtain ⟨-, e⟩ | ⟨-, -, e⟩ | ⟨-, -, ⟨-, e⟩ | ⟨bit, -, e⟩⟩ := iterate_cases env w m
  · simp only [e]; refine ⟨nofun, fun _ h' => ?_⟩; injection h' with h'; exact h' ▸ endBlock_wf h ..
  · simp only [e]; refine ⟨nofun, fun _ h' => ?_⟩; injection h' with h'; exact h' ▸ endBlock_wf h ..
  · simp only [e]; exact ⟨nofun, nofun⟩
  · rw [e]
    obtain ⟨sym, -, e⟩ | ⟨-, -, e⟩ | ⟨-, -, e⟩ := takeBit_cases env w m bit
    · rw [e]; refine ⟨fun _ _ h' => ?_, nofun⟩; injection h' with _ h'; exact h' ▸ setRange_wf h ..
    · rw [e]; refine ⟨nofun, fun _ h' => ?_⟩; injection h' with h'; exact h' ▸ endBlock_wf h ..
    · rw [e]; refine ⟨fun _ _ h' => ?_, nofun⟩; injection h' with _ h'; exact h' ▸ h

theorem finishWalk_wf {env : DecodeEnv} (n : Nat) {w : Walk} {m m' : Memory} (h : m.wf)
    (e : env.finishWalk n w m = .ok m') : m'.wf := by
  induction n generalizing w m with
  | zero => simp only [DecodeEnv.finishWalk, Except.ok.injEq] at e; exact e ▸ endBlock_wf h ..
  | succ n ih =>
    simp only [DecodeEnv.finishWalk] at e
    split at e
    · rename_i hi
      injection e with e
      exact (iterate_wf h).2 _ (e ▸ hi)
    · cases e
    · exact ih ((iterate_wf h).1 _ _ ‹_›) e

theorem decodeBlock_wf {env : DecodeEnv} {i : Nat} {m m' : Memory} (h : m.wf) (e : env.decodeBlock i m = .ok m') :
    m'.wf := by
  unfold DecodeEnv.decodeBlock at e
  split at e
  · cases e
  · exact finishWalk_wf _ h e

theorem finishEngines_wf {env : DecodeEnv} (es : List (Option Walk)) {m m' : Memory} (h : m.wf)
    (e : env.finishEngines es m = .ok m') : m'.wf := by
  induction es generalizing m with
  | nil => simp only [DecodeEnv.finishEngines, Except.ok.injEq] at e; exact e ▸ h
  | cons x es ih =>
    cases x with
    | none => exact ih h e
    | some w =>
      simp only [DecodeEnv.finishEngines] at e
      split at e
      · cases e
      · exact ih (finishWalk_wf _ h ‹_›) e

theorem decodeBlocks_wf {env : DecodeEnv} (is : List Nat) {m m' : Memory} (h : m.wf)
    (e : env.decodeBlocks is m = .ok m') : m'.wf := by
  induction is generalizing m with
  | nil => simp only [DecodeEnv.decodeBlocks, Except.ok.injEq] at e; exact e ▸ h
  | cons i is ih =>
    simp only [DecodeEnv.decodeBlocks] at e
    split at e
    · cases e
    · exact ih (decodeBlock_wf h ‹_›) e

theorem finishAll_wf {env : DecodeEnv} {s : State} {m' : Memory} (h : s.mem.wf) (e : env.finishAll s = .ok m') :
    m'.wf := by
  unfold DecodeEnv.finishAll at e
  split at e
  · cases e
  · exact decodeBlocks_wf _ (finishEngines_wf _ h ‹_›) e

theorem treeCmd_wf {s : State} (h : s.mem.wf) : (treeCmd s).mem.wf := setRange_wf h ..

theorem storeArray_wf {s : State} (h : s.mem.wf) (a : Arr) (i : Nat) (v : Word) : (s.storeArray a i v).mem.wf :=
  setRange_wf h ..

/-! ## Host and engines: what a turn can do -/

/-- A host write, by what it can do to the state: nothing, OVERRUN, acceptance, rejection, the acknowledgement, CTRL.IE,
an input register, or bytes of an input array; the last four of an input only with BUSY = 0. -/
theorem writeLocation_cases (v : Word) (l : Location) (s : State) :
    s.writeLocation v l = s ∨
    (s.busy = true ∧ s.writeLocation v l = s.overrun) ∨
    (∃ i, l = .reg .cmd ∧ s.busy = false ∧ decodeCmd v = some i ∧ s.writeLocation v l = s.accept i) ∨
    (l = .reg .cmd ∧ s.busy = false ∧ decodeCmd v = none ∧ s.writeLocation v l = s.reject v) ∨
    (l = .reg .status ∧ s.writeLocation v l = s.acknowledge v) ∨
    (l = .reg .ctrl ∧ s.writeLocation v l = { s with ie := v.getLsbD 0 }) ∨
    (∃ r, l = .reg r ∧ r.isInput = true ∧ s.busy = false ∧ s.writeLocation v l = s.storeReg r v) ∨
    (∃ a i, l = .array a i ∧ a.isInput = true ∧ s.busy = false ∧ s.writeLocation v l = s.storeArray a i v) := by
  cases hb : s.busy with
  | true =>
    cases l with
    | reg r => cases r <;> simp [State.writeLocation, State.commandWrite, State.inputWrite, Reg.isInput, hb]
    | array a i => cases a <;> simp [State.writeLocation, State.inputWrite, Arr.isInput, hb]
    | freqSym _ => exact .inl rfl
    | freqCnt _ => exact .inl rfl
    | tableCw _ _ => exact .inl rfl
    | tableLen _ _ => exact .inl rfl
    | reserved => exact .inl rfl
  | false =>
    cases l with
    | reg r =>
      cases r <;> simp [State.writeLocation, State.commandWrite, State.inputWrite, Reg.isInput, hb]
      cases decodeCmd v <;> simp
    | array a i => cases a <;> simp [State.writeLocation, State.inputWrite, Arr.isInput, hb]
    | freqSym _ => exact .inl rfl
    | freqCnt _ => exact .inl rfl
    | tableCw _ _ => exact .inl rfl
    | tableLen _ _ => exact .inl rfl
    | reserved => exact .inl rfl

/-- The host's turn: nothing to do, a read, a write, or a poll of STATUS. -/
theorem hostTurn_cases {s t : State} (h : hostTurn s = .next t) :
    (s.script = [] ∧ t = s) ∨
    (∃ off n rest, s.script = .read off n :: rest ∧ admittedAccess off n = true ∧
      t = { s.respond (s.hostRead off) with script := rest }) ∨
    (∃ off n v rest, s.script = .write off n v :: rest ∧ admittedAccess off n = true ∧
      t = { s.hostWrite off v with script := rest }) ∨
    (∃ rest, s.script = .wait :: rest ∧
      t = { s.respond (s.hostRead statusOffset) with script := if s.status.done then rest else s.script }) := by
  unfold hostTurn at h
  split at h
  · injection h with h; exact .inl ⟨‹_›, h.symm⟩
  · split at h
    · injection h with h; exact .inr (.inl ⟨_, _, _, ‹_›, ‹_›, h.symm⟩)
    · cases h
  · split at h
    · injection h with h; exact .inr (.inr (.inl ⟨_, _, _, _, ‹_›, ‹_›, h.symm⟩))
    · cases h
  · refine .inr (.inr (.inr ⟨_, ‹_›, ?_⟩))
    split at h
    · rename_i hd
      injection h with h
      rw [if_pos hd]
      exact h.symm
    · rename_i hd
      injection h with h
      rw [if_neg hd]
      exact h.symm

/-- The turn of an engine: nothing, or it takes a block, or its walk goes on, or its block ends; the last three only while
a DECODE that passes its checks is in progress. -/
theorem engineTurn_cases {e pick : Nat} {s t : State} (h : engineTurn e pick s = .next t) :
    t = s ∨
    (∃ b env, s.cur = some (.decode b) ∧ invocationChecks b s = .pass env ∧
      ((∃ w, s.engines[e]? = some none ∧ pick < env.counts.length ∧ s.taken.contains pick = false ∧
          env.startWalk pick s.mem = .ok w ∧ t = { s.setEngine e (some w) with taken := pick :: s.taken }) ∨
       (∃ w w' m, s.engines[e]? = some (some w) ∧ env.iterate w s.mem = .running w' m ∧
          t = { s.setEngine e (some w') with mem := m }) ∨
       (∃ w m, s.engines[e]? = some (some w) ∧ env.iterate w s.mem = .ended m ∧
          t = { s.setEngine e none with mem := m }))) := by
  unfold engineTurn at h
  split at h
  case h_2 => injection h with h; exact .inl h.symm
  rename_i b hc
  split at h
  · rename_i env hp
    split at h
    · rename_i he
      unfold takeBlock at h
      split at h
      · rename_i hk
        split at h
        · cases h
        · injection h with h
          exact .inr ⟨b, env, hc, hp, .inl ⟨_, he, hk.1, hk.2, ‹_›, h.symm⟩⟩
      · injection h with h; exact .inl h.symm
    · rename_i w he
      unfold stepWalk at h
      split at h
      · cases h
      · injection h with h
        exact .inr ⟨b, env, hc, hp, .inr (.inr ⟨_, _, he, ‹_›, h.symm⟩)⟩
      · injection h with h
        exact .inr ⟨b, env, hc, hp, .inr (.inl ⟨_, _, _, he, ‹_›, h.symm⟩)⟩
    · injection h with h; exact .inl h.symm
  · injection h with h; exact .inl h.symm
  · injection h with h; exact .inl h.symm

/-! ## A step -/

/-- A step is the turn of one agent: that of the head of the schedule, or the default turn. -/
theorem step_cases {s t : State} (h : step s = .next t) :
    ∃ s0 turn, runTurn turn s0 = .next t ∧
      ((s.schedule = [] ∧ s0 = s ∧ turn = s.defaultTurn) ∨
       (∃ rest, s.schedule = turn :: rest ∧ s0 = { s with schedule := rest })) := by
  unfold step takeTurn at h
  split at h
  · exact ⟨s, s.defaultTurn, h, .inl ⟨‹_›, rfl, rfl⟩⟩
  · exact ⟨_, _, h, .inr ⟨_, ‹_›, rfl⟩⟩

/-- A turn is the host's, the completion of the command in progress, an engine's, the reset input, or nothing. -/
theorem runTurn_cases {turn : Turn} {s t : State} (h : runTurn turn s = .next t) :
    (turn = .host ∧ hostTurn s = .next t) ∨
    (turn = .controller ∧ s.cur = none ∧ t = s) ∨
    (∃ i, turn = .controller ∧ s.cur = some i ∧ exec i s = .next t) ∨
    (∃ e pick, turn = .engine e pick ∧ engineTurn e pick s = .next t) ∨
    (turn = .reset ∧ t = s.platformReset) := by
  cases turn with
  | host => exact .inl ⟨rfl, h⟩
  | controller =>
    simp only [runTurn, controllerTurn] at h
    split at h
    · exact .inr (.inr (.inl ⟨_, rfl, ‹_›, h⟩))
    · injection h with h; exact .inr (.inl ⟨rfl, ‹_›, h.symm⟩)
  | engine e p => exact .inr (.inr (.inr (.inl ⟨e, p, rfl, h⟩)))
  | reset => injection h with h; exact .inr (.inr (.inr (.inr ⟨rfl, h.symm⟩)))

/-- The default turn is never an engine's and never the reset input. -/
theorem defaultTurn_cases (s : State) : s.defaultTurn = .controller ∨ s.defaultTurn = .host := by
  unfold State.defaultTurn
  split <;> simp

end Sys2Proof.Machine
end

