-- ==== Sys2Proof/Laws/PerInstr.lean ====
section
/-! SUPPORT. A statement about every command as syntax, proved once per constructor: the word the encoder gives is one of
the legal words of spec R126, bits 31:5 zero, with the command's OP and TB in their fields. -/

namespace Sys2Proof.Laws

/-- The encoding of a command: a legal word below 32 that carries its OP in bits 3:0 and its TB in bit 4 (R120 to R123). -/
def Encoding.Statement (i : Instr) : Prop :=
  legalWord (encode i) = true ∧ (encode i).toNat < 32 ∧ (encode i).extractLsb' 0 4 = i.op ∧
    (encode i).getLsbD 4 = i.tb ∧ i.wf = true

theorem Encoding.assign (tb : Bank) : Encoding.Statement (.assign tb) := by
  cases tb <;> exact ⟨by decide, by decide, by decide, by decide, by decide⟩

theorem Encoding.count : Encoding.Statement .count := ⟨by decide, by decide, by decide, by decide, by decide⟩

theorem Encoding.tree : Encoding.Statement .tree := ⟨by decide, by decide, by decide, by decide, by decide⟩

theorem Encoding.build (tb : Bank) : Encoding.Statement (.build tb) := by
  cases tb <;> exact ⟨by decide, by decide, by decide, by decide, by decide⟩

theorem Encoding.decode (tb : Bank) : Encoding.Statement (.decode tb) := by
  cases tb <;> exact ⟨by decide, by decide, by decide, by decide, by decide⟩

theorem Encoding.compare : Encoding.Statement .compare := ⟨by decide, by decide, by decide, by decide, by decide⟩

end Sys2Proof.Laws
end

