-- ==== Sys2Proof/Tests/Slice0.lean ====
section
/-! SUPPORT. The model's own tests: decoding from words written out, the WellFormed checks, one-step vectors of spec
95_test_vectors.md, and a witness for the hypotheses of every statement. -/

namespace Sys2Proof.Tests

open Sys2Proof Sys2Proof.Machine

/-! ## Helpers -/

/-- A next state that passes a check. -/
def onNext (o : Host.Outcome State Fault Refusal) (f : State → Bool) : Bool :=
  match o with
  | .next t => f t
  | .fault _ => false
  | .refused _ => false

/-- A table with the listed (symbol, codeword, length) entries and no other. -/
def tableOf (es : List (Nat × Nat × Nat)) : List Code :=
  es.foldl (fun t e => t.set e.1 ⟨BitVec.ofNat 32 e.2.1, BitVec.ofNat 8 e.2.2⟩) emptyTable

/-- A codelength array with the listed (symbol, length) entries, every other length 0. -/
def lensOf (es : List (Nat × Nat)) : List Byte :=
  es.foldl (fun l e => l.set e.1 (BitVec.ofNat 8 e.2)) (List.replicate 256 0#8)

/-- After reset, with `data` in DATA_BUF and DATA_LEN its length. -/
def withData (data : List Nat) : State :=
  { State.reset with
    mem := cellsAt 0x100000 (data.map (BitVec.ofNat 8)), dataLen := BitVec.ofNat 32 data.length }

/-- After reset, with LEN_BUF holding `lens` and LEN_SIZE = 256. -/
def withLens (lens : List Byte) : State :=
  { State.reset with mem := cellsAt 0x1000 lens, lenSize := 256#32 }

/-- The status word of a state. -/
def statusIs (w : Word) (t : State) : Bool := decide (statusWord t = w)

/-- A byte of LEN_BUF. -/
def lenIs (t : State) (sym n : Nat) : Bool := decide (t.mem.read (0x1000 + sym) = some (BitVec.ofNat 8 n))

/-- The result entries of block `i` (TV-DEC notation). -/
def blockIs (t : State) (i st pos dn en : Nat) : Bool :=
  decide (t.mem.readElem .blkStatus i = some (BitVec.ofNat 32 st)) &&
  decide (t.mem.readElem .blkErrpos i = some (BitVec.ofNat 32 pos)) &&
  decide (t.mem.readElem .blkDone i = some (BitVec.ofNat 32 dn)) &&
  decide (t.mem.readElem .blkEnd i = some (BitVec.ofNat 32 en))

/-- A memory with blocks (offset, count) and stream slots. -/
def decodeMem (blocks : List (Nat × Nat)) (slots : List Nat) : Memory :=
  let m0 := (List.range blocks.length).foldl (fun m i =>
    Memory.writeElem (Memory.writeElem m .blkOffset i (BitVec.ofNat 32 (blocks.getD i (0, 0)).1)) .blkCount i
      (BitVec.ofNat 32 (blocks.getD i (0, 0)).2)) ([] : Memory)
  (List.range slots.length).foldl (fun m j => Memory.writeElem m .stream j (BitVec.ofNat 32 (slots.getD j 0))) m0

/-- A DECODE from bank 0 in progress. -/
def decodeState (t : List Code) (ml w words trailing : Nat) (blocks : List (Nat × Nat)) (slots : List Nat) : State :=
  { State.reset with
    table0 := t, info0 := ⟨BitVec.ofNat 8 ml, true⟩, wordWidth := BitVec.ofNat 32 w,
    streamWords := BitVec.ofNat 32 words, trailing := BitVec.ofNat 32 trailing,
    numBlocks := BitVec.ofNat 32 blocks.length, mem := decodeMem blocks slots, cur := some (.decode .bank0) }

/-- T3 of 95 section 2.8: A = `1`, B = `00`, C = `01`. -/
def t3 : List Code := tableOf [(0x41, 1, 1), (0x42, 0, 2), (0x43, 1, 2)]

/-- T4 of 95 section 2.8: A = `000`, B = `001`, C = `01`, D = `1`. -/
def t4 : List Code := tableOf [(0x41, 0, 3), (0x42, 1, 3), (0x43, 1, 2), (0x44, 1, 1)]

/-- TAB of 95 section 2.8: A = `00`, B = `01`. -/
def tab2 : List Code := tableOf [(0x41, 0, 2), (0x42, 1, 2)]

/-! ## Decoding, from words written out bit by bit (R120, R122; bit 31 on the left) -/

theorem test_word_assign : decodeCmd 0b00000000000000000000000000000001#32 = some (.assign .bank0) := by decide
theorem test_word_assign_tb : decodeCmd 0b00000000000000000000000000010001#32 = some (.assign .bank1) := by decide
theorem test_word_count : decodeCmd 0b00000000000000000000000000000010#32 = some .count := by decide
theorem test_word_tree : decodeCmd 0b00000000000000000000000000000011#32 = some .tree := by decide
theorem test_word_build_tb : decodeCmd 0b00000000000000000000000000010100#32 = some (.build .bank1) := by decide
theorem test_word_decode_tb : decodeCmd 0b00000000000000000000000000010101#32 = some (.decode .bank1) := by decide
theorem test_word_compare : decodeCmd 0b00000000000000000000000000000110#32 = some .compare := by decide
/-- TV-ENC-14, 17, 18: TB on COUNT, bit 5, bit 31. -/
theorem test_word_illegal :
    decodeCmd 0x12#32 = none ∧ decodeCmd 0x21#32 = none ∧ decodeCmd 0x80000004#32 = none := by decide
theorem test_table_word : decodeTableWord 32 0x15 = some (.decode .bank1) := by decide

/-! ## WellFormed: every check refuses an ill-formed term -/

theorem test_wf_op_zero : legalWord 0x00#32 = false := by decide
theorem test_wf_op_seven : legalWord 0x07#32 = false := by decide
theorem test_wf_reserved_bits : legalWord 0x21#32 = false := by decide
theorem test_wf_tb_on_count : legalWord 0x12#32 = false := by decide
theorem test_wf_tb_on_tree : legalWord 0x13#32 = false := by decide
theorem test_wf_tb_on_compare : legalWord 0x16#32 = false := by decide
theorem test_wf_legal : legalWord 0x14#32 = true := by decide
theorem test_wf_width : admittedAccess 0x10#22 2 = false := by decide
theorem test_wf_alignment : admittedAccess 0x12#22 4 = false := by decide
theorem test_wf_access : admittedAccess 0x10#22 4 = true := by decide
theorem test_wf_params : Params.reference.wf = true := by decide
theorem test_wf_maxLen : { Params.reference with maxLen := 34 }.wf = false := by decide
theorem test_wf_maxDataBytes : { Params.reference with maxDataBytes := 0 }.wf = false := by decide
theorem test_wf_maxStreamWords : { Params.reference with maxStreamWords := 262145 }.wf = false := by decide
theorem test_wf_maxBlocks : { Params.reference with maxBlocks := 4097 }.wf = false := by decide
theorem test_wf_maxOutBytes : { Params.reference with maxOutBytes := 0 }.wf = false := by decide
theorem test_wf_numEngines : { Params.reference with numEngines := 257 }.wf = false := by decide

/-! ## One-step vectors of spec 95 -/

/-- TV-CNT-1 (one step, from an accepted COUNT). -/
theorem test_count_TV_CNT_1 :
    onNext (step ((withData [0x41, 0x41, 0x41, 0x41, 0x41, 0x42, 0x42, 0x43]).withCommand .count)) (fun t =>
      decide (t.freq = [⟨0x43#8, 1#32⟩, ⟨0x42#8, 2#32⟩, ⟨0x41#8, 5#32⟩]) && statusIs 0x00000002#32 t) = true := by
  decide +kernel

/-- TV-CNT-9: an unsigned comparison. -/
theorem test_count_TV_CNT_9 :
    onNext (exec .count { State.reset with dataLen := 0xFFFFFFFF#32 }) (fun t =>
      statusIs 0x00200206#32 t && decide (t.errInfo = 0xFFFFFFFF#32)) = true := by decide +kernel

/-- TV-TREE-2: a new internal node comes after the leaves of its frequency. -/
theorem test_tree_TV_TREE_2 :
    onNext (exec .tree { State.reset with
      freq := [⟨0x41#8, 1#32⟩, ⟨0x42#8, 1#32⟩, ⟨0x43#8, 2#32⟩, ⟨0x44#8, 2#32⟩] }) (fun t =>
      lenIs t 0x41 2 && lenIs t 0x42 2 && lenIs t 0x43 2 && lenIs t 0x44 2 && lenIs t 0 0 && lenIs t 255 0 &&
        decide (t.lenSize = 256#32)) = true := by decide +kernel

/-- TV-TREE-7. -/
theorem test_tree_TV_TREE_7 :
    onNext (exec .tree { State.reset with
      freq := [⟨0x61#8, 1#32⟩, ⟨0x62#8, 1#32⟩, ⟨0x63#8, 2#32⟩, ⟨0x64#8, 3#32⟩, ⟨0x65#8, 5#32⟩, ⟨0x66#8, 8#32⟩] })
      (fun t => lenIs t 0x61 5 && lenIs t 0x62 5 && lenIs t 0x63 4 && lenIs t 0x64 3 && lenIs t 0x65 2 &&
        lenIs t 0x66 1) = true := by decide +kernel

/-- TV-ASN-7: a length drop of two bits. -/
theorem test_assign_TV_ASN_7 :
    onNext (exec (.assign .bank0) (withLens (lensOf [(0, 3), (1, 3), (2, 3), (3, 3), (4, 1)]))) (fun t =>
      decide (t.table0 = tableOf [(0, 0, 3), (1, 1, 3), (2, 2, 3), (3, 3, 3), (4, 1, 1)]) &&
        decide (infoWord t.info0 = 0x80000003#32) && !t.info1.valid) = true := by decide +kernel

/-- TV-ASN-16: OVERSUBSCRIBED at symbol 3, after symbol 2 took `1`. -/
theorem test_assign_TV_ASN_16 :
    onNext (exec (.assign .bank0) (withLens (lensOf [(0, 2), (1, 2), (2, 1), (3, 1)]))) (fun t =>
      statusIs 0x00130106#32 t && decide (t.errInfo = 3#32) && !t.info0.valid) = true := by decide +kernel

/-- TV-ASN-14 and TV-ASN-17: NOT_PREFIX_FREE. -/
theorem test_canonical_TV_ASN_14_17 :
    (match canonical ((lensOf [(0, 2), (1, 1)]).map BitVec.toNat),
        canonical ((lensOf [(0, 31), (1, 31), (2, 1)]).map BitVec.toNat) with
     | .error (.notPrefixFree, 1), .error (.notPrefixFree, 2) => true
     | _, _ => false) = true := by decide +kernel

/-- TV-BLD-6: "abracadabra". -/
theorem test_build_TV_BLD_6 :
    onNext (exec (.build .bank0)
      (withData [0x61, 0x62, 0x72, 0x61, 0x63, 0x61, 0x64, 0x61, 0x62, 0x72, 0x61])) (fun t =>
      decide (t.table0 = tableOf [(0x61, 1, 1), (0x62, 0, 3), (0x63, 1, 3), (0x64, 2, 3), (0x72, 3, 3)]) &&
        decide (infoWord t.info0 = 0x80000003#32) && decide (t.freqN = 5#9)) = true := by decide +kernel

/-- TV-BLD-9: MAXLEN = 4, a tree of depth 4. -/
theorem test_build_TV_BLD_9 :
    onNext (exec (.build .bank0) { withData [0x61, 0x62, 0x63, 0x63, 0x64, 0x64, 0x64, 0x65, 0x65, 0x65, 0x65, 0x65] with
      params := { Params.reference with maxLen := 4 } }) (fun t =>
      statusIs 0x00110106#32 t && decide (t.errInfo = 0x61#32) && lenIs t 0x61 4 && lenIs t 0x63 3 && lenIs t 0x65 1 &&
        decide (t.lenSize = 256#32) && decide (t.freq.length = 5) && !t.info0.valid) = true := by decide +kernel

/-- TV-CMP-1 and TV-CMP-2's outcome on T3 against T3 and against TAB. -/
theorem test_compare_TV_CMP_1 :
    onNext (exec .compare { State.reset with table0 := t3, table1 := t3, info0 := ⟨2#8, true⟩, info1 := ⟨2#8, true⟩ })
      (statusIs 0x0000000A#32) = true ∧
    onNext (exec .compare { State.reset with table0 := t3, table1 := tab2, info0 := ⟨2#8, true⟩, info1 := ⟨2#8, true⟩ })
      (statusIs 0x00000002#32) = true := by decide +kernel

/-- TV-CMP-5: bank 1 never built. -/
theorem test_compare_TV_CMP_5 :
    onNext (exec .compare { State.reset with table0 := t3, info0 := ⟨2#8, true⟩ }) (fun t =>
      statusIs 0x00150106#32 t && decide (t.errInfo = 1#32)) = true := by decide +kernel

/-- TV-DEC-16: four blocks, two of them failing. -/
theorem test_decode_TV_DEC_16 :
    onNext (step (decodeState t4 3 8 2 7 [(0, 4), (8, 2), (5, 1), (9, 1)] [0xA4, 0x00])) (fun t =>
      statusIs 0x00310306#32 t && decide (t.errInfo = 1#32) && decide (t.outLen = 8#32) && decide (t.blkFails = 2#32) &&
        blockIs t 0 0x01 0 4 9 && blockIs t 1 0x31 8 0 9 && blockIs t 2 0x01 0 1 6 && blockIs t 3 0x31 9 0 9 &&
        decide (t.mem.readWord 0x300000 = some 0x41424344#32) && decide (t.mem.read 0x300004 = none) &&
        decide (t.mem.read 0x300006 = some 0x44#8) && decide (t.mem.read 0x300007 = none)) = true := by
  decide +kernel

/-- TV-DEC-12 and TV-DEC-13: BAD_CODE at length maxlen, TRUNCATED one bit earlier. -/
theorem test_decode_TV_DEC_12_13 :
    onNext (step (decodeState tab2 2 8 1 6 [(0, 1)] [0x80])) (fun t => blockIs t 0 0x32 0 0 2) = true ∧
    onNext (step (decodeState tab2 2 8 1 7 [(0, 1)] [0x80])) (fun t => blockIs t 0 0x31 0 0 1) = true := by
  decide +kernel

/-- TV-CTL-7: acknowledging with all ones leaves ERR and the codes. -/
theorem test_ctl_TV_CTL_7 :
    statusWord (State.hostWrite { State.reset with status := ⟨true, true, true, true, 4#3, 1#8⟩ } 0x00C#22 0xFFFFFFFF#32) =
      0x0001040C#32 := by decide

/-- TV-CTL-14: acceptance keeps EQUAL. -/
theorem test_ctl_TV_CTL_14 :
    statusWord (State.hostWrite { State.reset with status := ⟨true, true, true, false, 4#3, 1#8⟩ } 0x008#22 0x00000002#32) =
      0x00000009#32 := by decide

/-- P5's first access: an illegal word. -/
theorem test_ctl_P5 :
    (State.reset.hostWrite 0x008#22 0x12#32).hostRead 0x00C#22 = 0x00010406#32 ∧
    (State.reset.hostWrite 0x008#22 0x12#32).hostRead 0x014#22 = 0x00000012#32 := by decide

/-- TV-CTL-1, TV-CTL-2, TV-CTL-3: reads after reset. -/
theorem test_ctl_reset_reads :
    State.reset.hostRead 0x000#22 = 0x48554646#32 ∧ State.reset.hostRead 0x004#22 = 0x00070001#32 ∧
    State.reset.hostRead 0x044#22 = 0x20#32 ∧ State.reset.hostRead 0x04C#22 = 0x00040000#32 ∧
    State.reset.hostRead 0x05C#22 = 7#32 ∧ State.reset.hostRead 0x060#22 = 0#32 ∧
    State.reset.hostRead 0x002000#22 = 0#32 := by decide

end Sys2Proof.Tests
end

