-- ==== Sys2Proof/Tests/Witnesses.lean ====
section
/-! SUPPORT. For every statement that has hypotheses, a concrete state and operands that meet them together; for a
statement of several clauses, one for each clause, at a boundary value where there is one. -/

namespace Sys2Proof.Tests

open Sys2Proof Sys2Proof.Machine

/-! ## Good states -/

/-- A state with idle engines and an empty memory meets the engines' and memory's part of the invariant. -/
theorem inv_of_reset_shape (s : State) (hp : s.params = Params.reference) (hm : s.mem.wf)
    (hin : ∀ c ∈ s.mem, inArrays s.params c.1 = true) (hr : s.reportOk) (hf : s.freqOk) (hb : ∀ b, s.bankOk b)
    (he : s.engines = List.replicate 4 none) (ht : s.taken = []) : s.Inv := by
  have idle : s.allIdle := ⟨fun e h => by rw [he] at h; exact List.eq_of_mem_replicate h, ht⟩
  have fresh : ∀ env, s.decodingOk env := fun env => by
    refine ⟨by rw [ht]; exact List.nodup_nil, by simp [ht], ?_, ?_, ?_, by simp [ht]⟩
    · rw [he]; decide
    · rw [he]; intro i hi; simp [activeBlocks] at hi
    · intro w hw; rw [he] at hw; exact absurd (List.eq_of_mem_replicate hw) (by simp)
  refine ⟨by rw [hp]; decide, ⟨hm, hin⟩, hr, hf, hb, by rw [he, hp]; rfl, ?_⟩
  split
  · split
    · exact fresh _
    · exact idle
    · exact idle
  · exact idle

/-- A report without error of a block that is busy or idle. -/
theorem reportOk_clean (s : State) (h : s.status = ⟨false, false, false, false, 0#3, 0#8⟩) (he : s.errInfo = 0#32) :
    s.reportOk := by
  refine ⟨by rw [h]; decide, fun _ => by rw [h, he]; exact ⟨rfl, rfl⟩, fun h' => ?_, fun _ => by rw [h]; exact ⟨rfl, rfl⟩⟩
  rw [h] at h'; cases h'

theorem bankOk_invalid (s : State) (b : Bank) (h : (s.info b).valid = false) : s.bankOk b := fun h' => by
  rw [h] at h'; cases h'

theorem freqOk_nil (s : State) (h : s.freq = []) : s.freqOk := by
  refine ⟨?_, ?_, ?_, ?_⟩ <;> rw [h]
  · exact List.Pairwise.nil
  · exact List.nodup_nil
  · simp
  · simp

/-- TV-DEC-1 in progress. -/
def dec1 : State := decodeState t3 2 8 1 3 [(0, 3)] [0x88]

/-- The shared data of TV-DEC-1. -/
def dec1Env : DecodeEnv := { table := t3, maxlen := 2, width := 8, totalBits := 5, counts := [3] }

theorem dec1_checks : invocationChecks .bank0 dec1 = .pass dec1Env := by decide +kernel

theorem dec1_inv : dec1.Inv := by
  refine inv_of_reset_shape dec1 rfl (by decide +kernel) (by decide +kernel) (reportOk_clean _ rfl rfl)
    (freqOk_nil _ rfl) (fun b => ?_) rfl rfl
  cases b with
  | bank0 => exact fun _ => ⟨by decide +kernel, by decide +kernel, by decide +kernel⟩
  | bank1 => exact bankOk_invalid _ _ rfl

/-- "BA" in DATA_BUF, a COUNT accepted. -/
def count2 : State := (withData [0x42, 0x41]).accept .count

theorem count2_inv : count2.Inv :=
  inv_of_reset_shape count2 rfl (by decide) (by decide) (reportOk_clean _ rfl rfl) (freqOk_nil _ rfl)
    (fun b => bankOk_invalid _ _ (by cases b <;> rfl)) rfl rfl

theorem reset_inv : State.reset.Inv :=
  inv_of_reset_shape _ rfl (by decide) (by decide) (reportOk_clean _ rfl rfl) (freqOk_nil _ rfl)
    (fun b => bankOk_invalid _ _ (by cases b <;> rfl)) rfl rfl

/-! ## Command words and steps -/

theorem wit_IllegalWordsRejected : decodeCmd 0x12#32 = none ∧ State.reset.cur = none := by decide

theorem wit_StepRunsCommand :
    count2.cur = some .count ∧ count2.schedule = [] ∧
    ({ count2 with schedule := [.controller, .host] } : State).schedule = .controller :: [.host] ∧
    (let s : State := { State.reset with script := [.write cmdOffset 4 0x15#32] }
     s.cur = none ∧ s.schedule = [] ∧ s.script = .write cmdOffset 4 0x15#32 :: [] ∧
       decodeCmd 0x15#32 = some (.decode .bank1)) := by decide

theorem wit_AcceptLegalWord :
    let s : State := { State.reset with
      script := [.write cmdOffset 4 0x02#32, .wait], status := ⟨true, true, true, true, 4#3, 1#8⟩, errInfo := 7#32 }
    s.cur = none ∧ s.schedule = [] ∧ s.script = .write cmdOffset 4 0x02#32 :: [.wait] ∧
      decodeCmd 0x02#32 = some .count := by decide

theorem wit_RejectIllegalWord :
    let s : State := { State.reset with script := [.write cmdOffset 4 0xFFFFFFFF#32] }
    s.cur = none ∧ s.schedule = [] ∧ s.script = .write cmdOffset 4 0xFFFFFFFF#32 :: [] ∧
      decodeCmd 0xFFFFFFFF#32 = none := by decide

theorem wit_BusyCommandWriteIgnored :
    let s : State := { count2 with schedule := [.host, .controller], script := [.write cmdOffset 4 0x07#32] }
    s.busy = true ∧ s.schedule = .host :: [.controller] ∧ s.script = .write cmdOffset 4 0x07#32 :: [] := by decide

theorem wit_BusyInputWriteIgnored :
    count2.busy = true ∧ isInputLocation (locate count2.params (0x018#22).toNat) = true ∧
      isInputLocation (locate count2.params (0x1FFFFC#22).toNat) = true := by decide

/-! ## Host accesses -/

/-- The last words of LEN_BUF, BLK_COUNT and STREAM, and a register. -/
theorem wit_InputWriteReadsBack :
    State.reset.cur = none ∧
    ([0x0010FC#22, 0x017FFC#22, 0x2FFFFC#22, 0x030#22].all fun off =>
      isInputLocation (locate State.reset.params off.toNat) &&
        wholeWord State.reset.params (locate State.reset.params off.toNat)) = true ∧
    locate State.reset.params (0x0010FC#22).toNat = .array .lenBuf 252 := by decide +kernel

theorem wit_ReadOnlyWritesIgnored :
    ([0x000#22, 0x05C#22, 0x0023FC#22, 0x003FFC#22, 0x3FFFFC#22, 0x060#22].all fun off =>
      !isInputLocation (locate State.reset.params off.toNat) &&
        decide (locate State.reset.params off.toNat ∉ [.reg .cmd, .reg .status, .reg .ctrl])) = true := by decide +kernel

/-- Both ends of every reserved range. -/
theorem wit_ReservedOffsets :
    (reservedOffset 0x60 ∧ reservedOffset 0xFFC ∧ reservedOffset 0x1100 ∧ reservedOffset 0x1FFC ∧
      reservedOffset 0x2800 ∧ reservedOffset 0x2FFC ∧ reservedOffset 0x4000 ∧ reservedOffset 0xFFFC ∧
      reservedOffset 0x28000 ∧ reservedOffset 0xFFFFC) ∧ (0x3FFFFC#22).toNat % 4 = 0 := by
  simp [reservedOffset]

/-- MAX_DATA_BYTES = 5, MAX_BLOCKS = 5: bytes 5 (beyond) and 4 (below) of the straddling word at 0x100004, the word at
0x100008, the first and the last word of the BLK_END window beyond the capacity. -/
theorem wit_BeyondCapacity :
    let s : State := State.resetOf { Params.reference with maxDataBytes := 5, maxBlocks := 5 }
    locate s.params (0x100004#22).toNat = .array .dataBuf 4 ∧ (1 : Nat) < 4 ∧ Arr.dataBuf.bytes s.params ≤ 4 + 1 ∧
    s.cur = none ∧ Arr.dataBuf ∈ [Arr.lenBuf, Arr.blkOffset, Arr.blkCount, Arr.dataBuf, Arr.stream] ∧
    4 + 0 < Arr.dataBuf.bytes s.params ∧
    Arr.dataBuf.base + Arr.dataBuf.bytes s.params ≤ (0x100008#22).toNat ∧
    (0x100008#22).toNat < Arr.dataBuf.base + Arr.dataBuf.window ∧
    Arr.blkEnd.base + Arr.blkEnd.bytes s.params ≤ (0x024014#22).toNat ∧
    (0x027FFC#22).toNat < Arr.blkEnd.base + Arr.blkEnd.window := by decide

theorem wit_ReadHasNoSideEffect :
    let s : State := { State.reset with script := [.read 0x3FFFFC#22 4] }
    (0x3FFFFC#22).toNat % 4 = 0 ∧ s.script = .read 0x3FFFFC#22 4 :: [] := by decide

/-- The last entry of BLK_END and the last byte of OUT_BUF, written. -/
theorem wit_HostReadReturnsState :
    let s : State := { State.reset with
      mem := (Memory.writeElem [] .blkEnd 4095 0x12345678#32).setRange 0x3FFFFF [0x5A#8] }
    s.cur = none ∧
    Arr.blkEnd ∈ [Arr.blkOffset, Arr.blkCount, Arr.blkStatus, Arr.blkErrpos, Arr.blkDone, Arr.blkEnd, Arr.stream] ∧
    4 * 4095 < Arr.blkEnd.bytes s.params ∧ s.mem.readElem .blkEnd 4095 = some 0x12345678#32 ∧
    Arr.outBuf ∈ [Arr.lenBuf, Arr.dataBuf, Arr.outBuf] ∧ (3 : Nat) < 4 ∧
    4 * 262143 + 3 < Arr.outBuf.bytes s.params ∧
    s.mem.read (Arr.outBuf.base + (4 * 262143 + 3)) = some 0x5A#8 := by decide +kernel

theorem wit_UnadmittedAccessRefused :
    ((2 : Nat) ≠ 4 ∨ (0x010#22).toNat % 4 ≠ 0) ∧ ((4 : Nat) ≠ 4 ∨ (0x3FFFFF#22).toNat % 4 ≠ 0) := by decide

theorem wit_BusyReadsOfOutputs :
    count2.cur = some .count ∧ cmdWrites .count (locate count2.params (0x020#22).toNat) = true ∧
    wholeWord count2.params (locate count2.params (0x020#22).toNat) = true ∧
    cmdWrites .count (locate count2.params (0x100000#22).toNat) = false ∧
    locate count2.params (0x100000#22).toNat ≠ .reg .status := by decide

theorem wit_FrequencyWindows :
    State.reset.cur = none ∧ (255 : Nat) < 256 ∧
      ({ State.reset with freq := [⟨0x43#8, 1#32⟩] } : State).freq.length ≤ 256 := by decide

theorem wit_TableLookup :
    let s : State := { State.reset with table1 := tableOf [(255, 0, 1)], info1 := ⟨1#8, true⟩ }
    s.cur = none ∧ (s.info .bank1).valid = true ∧ (255 : Nat) < 256 ∧ (s.table .bank1)[255]? = some ⟨0#32, 1#8⟩ := by
  decide +kernel

theorem wit_InterruptLevel :
    onNext (exec .count count2) (fun t => t.irq == count2.ie) = true ∧
    State.reset.cur = none ∧ decodeCmd 0#32 = none ∧ decodeCmd 6#32 = some .compare ∧ (2#32).getLsbD 1 = true := by
  decide +kernel

/-! ## Reset and completion -/

theorem wit_ResetInput : ({ count2 with schedule := [.reset] } : State).schedule = .reset :: [] := rfl

/-- A COUNT of one byte that nothing has written. -/
def countUnwritten : State := { State.reset.accept .count with dataLen := 1#32 }

theorem wit_FaultsOnlyOnUnwritten :
    countUnwritten.Inv ∧ countUnwritten.cur = some .count ∧
      exec .count countUnwritten = .fault (.unwritten .dataBuf 0) :=
  ⟨inv_of_reset_shape _ rfl (by decide) (by decide) (reportOk_clean _ rfl rfl) (freqOk_nil _ rfl)
    (fun b => bankOk_invalid _ _ (by cases b <;> rfl)) rfl rfl, rfl, by rfl⟩

/-! ## COUNT and TREE -/

theorem wit_CountListsTheSymbols :
    count2.mem.wf ∧ count2.dataLen.toNat ≤ count2.params.maxDataBytes ∧
    [0x42#8, 0x41#8].length = count2.dataLen.toNat ∧ holdsBytes count2.mem .dataBuf [0x42#8, 0x41#8] := by
  refine ⟨by decide, by decide, by decide, ?_⟩
  intro k hk
  match k, hk with
  | 0, _ => decide
  | 1, _ => decide

theorem wit_DataTooLong :
    let s : State := { State.reset with dataLen := 0x00100001#32 }
    s.params.maxDataBytes < s.dataLen.toNat := by decide

theorem wit_CountOfUnwrittenFaults :
    let s : State := { count2 with dataLen := 3#32 }
    s.mem.wf ∧ s.dataLen.toNat ≤ s.params.maxDataBytes ∧ 2 < s.dataLen.toNat ∧
    s.mem.read (Arr.base .dataBuf + 2) = none ∧ (∀ j, j < 2 → s.mem.read (Arr.base .dataBuf + j) ≠ none) := by decide

theorem wit_TreeOfNoneOrOne :
    State.reset.freq = [] ∧ ({ State.reset with freq := [⟨0x5A#8, 4#32⟩] } : State).freq = [⟨0x5A#8, 4#32⟩] := ⟨rfl, rfl⟩

/-- A heap of two entries of one frequency, told apart by their sequence numbers. -/
theorem wit_HeapKeepsKeyOrder :
    [(⟨1, 0, .leaf 3⟩ : HeapEntry), ⟨1, 1, .leaf 2⟩].Pairwise keyLe ∧
    2 ≤ [(⟨1, 0, .leaf 3⟩ : HeapEntry), ⟨1, 1, .leaf 2⟩].length ∧
    2 ≤ [(⟨0x41#8, 1#32⟩ : FreqEntry), ⟨0x42#8, 1#32⟩].length := by decide

theorem wit_TreeIsFull :
    2 ≤ [(⟨0x41#8, 1#32⟩ : FreqEntry), ⟨0x42#8, 1#32⟩].length ∧
      ([(⟨0x41#8, 1#32⟩ : FreqEntry), ⟨0x42#8, 1#32⟩].map FreqEntry.sym).Nodup := by decide

/-! ## ASSIGN -/

theorem wit_AssignSizeMismatch : ({ State.reset with lenSize := 255#32 } : State).lenSize ≠ 256#32 := by decide

/-- LEN_BUF read byte by byte is the array that was put there. -/
theorem withLens_holds (lens : List Byte) : holdsBytes (withLens lens).mem .lenBuf lens := by
  intro k _
  show Memory.read (cellsAt 0x1000 lens) (0x1000 + k) = lens[k]?
  rw [read_cellsAt, if_pos (by omega), Nat.add_sub_cancel_left]

/-- TV-ASN-12: lengths 40 and 32, the least symbol 3. -/
theorem wit_AssignLengthTooLong :
    let lens := lensOf [(3, 40), (7, 32)]
    let s := withLens lens
    s.mem.wf ∧ s.lenSize = 256#32 ∧ lens.length = 256 ∧ holdsBytes s.mem .lenBuf lens ∧
    ∃ h : 3 < lens.length, s.params.maxLen ≤ lens[3].toNat ∧ ∀ j (_ : j < 3), lens[j].toNat < s.params.maxLen :=
  ⟨cellsAt_wf _ _, rfl, by decide +kernel, withLens_holds _, by decide +kernel, by decide +kernel, by decide +kernel⟩

/-- TV-ASN-1. -/
theorem wit_AssignCommits :
    let lens := lensOf [(0x41, 1), (0x42, 2), (0x43, 2)]
    let s := withLens lens
    s.mem.wf ∧ s.lenSize = 256#32 ∧ lens.length = 256 ∧ holdsBytes s.mem .lenBuf lens ∧
    (∀ l ∈ lens, l.toNat < s.params.maxLen) ∧ canonical (lens.map BitVec.toNat) = .ok (t3, 2) :=
  ⟨cellsAt_wf _ _, rfl, by decide +kernel, withLens_holds _, by decide +kernel, by decide +kernel⟩

/-- TV-ASN-14 and TV-ASN-13. -/
theorem wit_AssignRejectsBadLengths :
    (let lens := lensOf [(0, 2), (1, 1)]
     (withLens lens).mem.wf ∧ lens.length = 256 ∧ (∀ l ∈ lens, l.toNat < 32) ∧
       canonical (lens.map BitVec.toNat) = .error (.notPrefixFree, 1)) ∧
    (let lens := lensOf [(0, 1), (1, 1), (2, 1)]
     (withLens lens).mem.wf ∧ lens.length = 256 ∧ (∀ l ∈ lens, l.toNat < 32) ∧
       canonical (lens.map BitVec.toNat) = .error (.oversubscribed, 2)) :=
  ⟨⟨cellsAt_wf _ _, by decide +kernel, by decide +kernel, by decide +kernel⟩,
   ⟨cellsAt_wf _ _, by decide +kernel, by decide +kernel, by decide +kernel⟩⟩

/-- A list is in the order of R243 when it is strictly ordered, its pairs are present, and every present symbol is in it. -/
theorem inAssignOrder_of_sorted {lens : List Nat} {ps : List (Nat × Nat)}
    (h : ps.Pairwise (fun x y => y.2 < x.2 ∨ (x.2 = y.2 ∧ x.1 < y.1)))
    (hm : ∀ x ∈ ps, lens[x.1]? = some x.2 ∧ x.2 ≠ 0)
    (hc : ∀ sym ∈ List.range lens.length, lens.getD sym 0 ≠ 0 → (sym, lens.getD sym 0) ∈ ps) : inAssignOrder lens ps := by
  refine ⟨fun sym l => ⟨fun hx => hm _ hx, fun ⟨hl, h0⟩ => ?_⟩, h⟩
  have hlt : sym < lens.length := (List.getElem?_eq_some_iff.mp hl).1
  have hg : lens.getD sym 0 = l := by rw [List.getD_eq_getElem?_getD, hl]; rfl
  exact hg ▸ hc sym (List.mem_range.mpr hlt) (hg ▸ h0)

/-- TV-ASN-14 fails the first check at pair 1; TV-ASN-13 passes pair 1 and fails the second check at pair 2; TV-ASN-1
passes every check. -/
theorem wit_AssignChecks :
    (let lens := (lensOf [(0, 2), (1, 1)]).map BitVec.toNat
     let ps := [(0, 2), (1, 1)]
     inAssignOrder lens ps ∧ ps[0]? = some (0, 2) ∧ ps[1]? = some (1, 1) ∧ (walkCode ps 0 + 1) % 2 ^ (2 - 1) ≠ 0) ∧
    (let lens := (lensOf [(0, 1), (1, 1), (2, 1)]).map BitVec.toNat
     let ps := [(0, 1), (1, 1), (2, 1)]
     inAssignOrder lens ps ∧ ps[1]? = some (1, 1) ∧ ps[2]? = some (2, 1) ∧ (∀ j, j < 1 → walkPasses ps j) ∧
       (walkCode ps 1 + 1) % 2 ^ (1 - 1) = 0 ∧ 2 ^ 1 ≤ walkCode ps 2) ∧
    (let lens := (lensOf [(0x41, 1), (0x42, 2), (0x43, 2)]).map BitVec.toNat
     let ps := [(0x42, 2), (0x43, 2), (0x41, 1)]
     lens.length = 256 ∧ inAssignOrder lens ps ∧ ∀ j, j + 1 < ps.length → walkPasses ps j) := by
  refine ⟨⟨?_, rfl, rfl, by decide⟩, ⟨?_, rfl, rfl, ?_, by decide, by decide⟩, ⟨by decide +kernel, ?_, ?_⟩⟩
  · exact inAssignOrder_of_sorted (by decide +kernel) (by decide +kernel) (by decide +kernel)
  · exact inAssignOrder_of_sorted (by decide +kernel) (by decide +kernel) (by decide +kernel)
  · intro j hj
    match j, hj with
    | 0, _ => exact ⟨by decide, by decide⟩
  · exact inAssignOrder_of_sorted (by decide +kernel) (by decide +kernel) (by decide +kernel)
  · intro j hj
    match j, hj with
    | 0, _ => exact ⟨by decide, by decide⟩
    | 1, _ => exact ⟨by decide, by decide⟩

/-- The lengths of TV-ASN-1, and the empty array for the clause of no present symbol. -/
theorem wit_CanonicalRule :
    (let lens := (lensOf [(0x41, 1), (0x42, 2), (0x43, 2)]).map BitVec.toNat
     lens.length = 256 ∧ (∀ l ∈ lens, l ≤ 32) ∧ canonical lens = .ok (t3, 2) ∧
       sortedPairs lens = (0x42, 2) :: [(0x43, 2), (0x41, 1)]) ∧
    (let lens := List.replicate 256 0
     lens.length = 256 ∧ (∀ l ∈ lens, l ≤ 32) ∧ canonical lens = .ok (emptyTable, 0) ∧ sortedPairs lens = []) := by
  decide +kernel

theorem wit_CanonicalIsPrefixFree :
    let lens := (lensOf [(0x41, 1), (0x42, 2), (0x43, 2)]).map BitVec.toNat
    lens.length = 256 ∧ (∀ l ∈ lens, l ≤ 32) ∧ canonical lens = .ok (t3, 2) := by decide +kernel

/-! ## BUILD and COMPARE -/

theorem wit_BuildIsThreeStages :
    ∃ s1 s2 : State, State.reset.status.err = false ∧ exec .count State.reset = .next s1 ∧ s1.status.err = false ∧
      exec .tree s1 = .next s2 := ⟨_, _, rfl, rfl, rfl, rfl⟩

theorem wit_BuildCompletes :
    count2.params.wf = true ∧ count2.mem.wf ∧ count2.dataLen.toNat ≤ count2.params.maxDataBytes ∧
    [0x42#8, 0x41#8].length = count2.dataLen.toNat ∧ holdsBytes count2.mem .dataBuf [0x42#8, 0x41#8] ∧
    ∀ sym, depthOf (treeDepths (countList [0x42#8, 0x41#8])) sym < count2.params.maxLen := by
  obtain ⟨h1, h2, h3, h4⟩ := wit_CountListsTheSymbols
  refine ⟨by decide, h1, h2, h3, h4, fun sym => ?_⟩
  have e : treeDepths (countList [0x42#8, 0x41#8]) = [(0x41, 1), (0x42, 1)] := by decide +kernel
  rw [e, depthOf]
  show (List.lookup sym [(0x41, 1), (0x42, 1)]).getD 0 < 32
  simp only [List.lookup_cons, List.lookup_nil]
  split
  · decide
  · split <;> decide

/-- MAXLEN = 2 and three symbols of one occurrence each: depth 2 at 0x41. -/
theorem wit_BuildDepthOverflow :
    let data := [0x41#8, 0x42#8, 0x43#8]
    let s : State := { withData [0x41, 0x42, 0x43] with params := { Params.reference with maxLen := 2 } }
    s.mem.wf ∧ s.dataLen.toNat ≤ s.params.maxDataBytes ∧ data.length = s.dataLen.toNat ∧
    holdsBytes s.mem .dataBuf data ∧ (0x41 : Nat) < 256 ∧
    s.params.maxLen ≤ depthOf (treeDepths (countList data)) 0x41 ∧
    (∀ j, j < 0x41 → depthOf (treeDepths (countList data)) j < s.params.maxLen) := by
  refine ⟨by decide, by decide, by decide, ?_, by decide, by decide +kernel, by decide +kernel⟩
  intro k hk
  match k, hk with
  | 0, _ => decide
  | 1, _ => decide
  | 2, _ => decide

theorem wit_CompareWritesEqual :
    let s : State := { State.reset with table0 := t3, table1 := tab2, info0 := ⟨2#8, true⟩, info1 := ⟨2#8, true⟩ }
    s.info0.valid = true ∧ s.info1.valid = true := ⟨rfl, rfl⟩

theorem wit_CompareWithoutTable :
    State.reset.info0.valid = false ∧
    (let s : State := { State.reset with table0 := t3, info0 := ⟨2#8, true⟩ }
     s.info0.valid = true ∧ s.info1.valid = false) := ⟨rfl, rfl, rfl⟩

theorem wit_RebuiltTableIsEqual :
    ∃ t1 : State, (withLens (List.replicate 256 0#8)).status.err = false ∧
      exec (.assign .bank0) (withLens (List.replicate 256 0#8)) = .next t1 ∧ t1.status.err = false := by
  refine ⟨(match exec (.assign .bank0) (withLens (List.replicate 256 0#8)) with | .next t => t | _ => State.reset),
    rfl, ?_, ?_⟩
  · cases h : exec (.assign .bank0) (withLens (List.replicate 256 0#8)) with
    | next t => rfl
    | fault f =>
      have : onNext (exec (.assign .bank0) (withLens (List.replicate 256 0#8))) (fun _ => true) = true := by
        decide +kernel
      rw [h] at this; cases this
    | refused r =>
      have : onNext (exec (.assign .bank0) (withLens (List.replicate 256 0#8))) (fun _ => true) = true := by
        decide +kernel
      rw [h] at this; cases this
  · decide +kernel

/-! ## DECODE -/

/-- One state for each check of R304, at the boundary where there is one. -/
theorem wit_DecodeChecksInOrder :
    (State.reset.info .bank1).valid = false ∧
    (let s : State := { dec1 with wordWidth := 12#32 }
     (s.info .bank0).valid = true ∧ s.wordWidth ∉ [8#32, 16#32, 32#32]) ∧
    (let s : State := { dec1 with streamWords := 0x00040001#32 }
     (s.info .bank0).valid = true ∧ s.wordWidth ∈ [8#32, 16#32, 32#32] ∧
       s.params.maxStreamWords < s.streamWords.toNat) ∧
    (let s : State := { dec1 with numBlocks := 4097#32 }
     s.streamWords.toNat ≤ s.params.maxStreamWords ∧ s.params.maxBlocks < s.numBlocks.toNat) ∧
    (let s := decodeState t3 2 8 1 3 [(0, 1048576), (0, 1)] [0x88]
     s.numBlocks.toNat ≤ s.params.maxBlocks ∧ [1048576#32, 1#32].length = s.numBlocks.toNat ∧
       s.mem.readElem .blkCount 0 = some 1048576#32 ∧ s.mem.readElem .blkCount 1 = some 1#32 ∧
       s.params.maxOutBytes < (([1048576#32, 1#32].take 2).map BitVec.toNat).sum ∧
       (([1048576#32, 1#32].take 1).map BitVec.toNat).sum ≤ s.params.maxOutBytes) ∧
    (let s : State := { dec1 with trailing := 8#32 }
     s.mem.readElem .blkCount 0 = some 3#32 ∧ [3#32].length = s.numBlocks.toNat ∧
       0 < s.streamWords.toNat ∧ s.wordWidth.toNat ≤ s.trailing.toNat) ∧
    (let s : State := { dec1 with streamWords := 0#32, trailing := 1#32 }
     s.streamWords = 0#32 ∧ s.trailing ≠ 0#32) := by decide +kernel

/-- TV-DEC-1; and a block of count 4 on the same stream, TRUNCATED after 3 symbols, so that its last output byte is not
written. -/
theorem wit_DecodeCompletes :
    (dec1.Inv ∧ dec1.cur = some (.decode .bank0) ∧ invocationChecks .bank0 dec1 = .pass dec1Env ∧
      (∀ i, i < dec1Env.counts.length → dec1.mem.readElem .blkOffset i ≠ none) ∧
      (∀ j, j < dec1.streamWords.toNat → dec1.mem.readElem .stream j ≠ none) ∧ dec1.taken = []) ∧
    onNext (exec (.decode .bank0) (decodeState t3 2 8 1 3 [(0, 4)] [0x88]))
      (fun t => decide (t.mem.readElem .blkDone 0 = some 3#32 ∧ t.mem.read (Arr.base .outBuf + 3) = none)) = true :=
  ⟨⟨dec1_inv, rfl, dec1_checks, by decide +kernel, by decide +kernel, rfl⟩, by decide +kernel⟩

theorem wit_DecodeFrame :
    dec1.Inv ∧ dec1.cur = some (.decode .bank0) ∧ invocationChecks .bank0 dec1 = .pass dec1Env ∧
    onNext (exec (.decode .bank0) dec1) (fun t => t.status.done) = true :=
  ⟨dec1_inv, rfl, dec1_checks, by decide +kernel⟩

theorem wit_ZeroCountBlock :
    let env : DecodeEnv := { dec1Env with counts := List.replicate 4096 0 }
    env.count 4095 = 0 ∧ (4095 : Nat) < 4096 ∧
      Memory.readElem (Memory.writeElem ([] : Memory) .blkOffset 4095 100#32) .blkOffset 4095 = some 100#32 := by
  decide +kernel

theorem wit_OffsetBeyondStream :
    0 < dec1Env.count 0 ∧ (0 : Nat) < 4096 ∧
    Memory.readElem (Memory.writeElem ([] : Memory) .blkOffset 0 5#32) .blkOffset 0 = some 5#32 ∧
    dec1Env.totalBits ≤ (5#32).toNat := by decide +kernel

/-- TV-DEC-1: "ABC" under T3. -/
theorem wit_DecodeRoundTrip :
    let lens := (lensOf [(0x41, 1), (0x42, 2), (0x43, 2)]).map BitVec.toNat
    lens.length = 256 ∧ (∀ l ∈ lens, l ≤ 32) ∧ canonical lens = .ok (t3, 2) ∧ dec1Env.table = t3 ∧
    dec1Env.maxlen = 2 ∧ legalWidth dec1Env.width = true ∧ dec1Env.totalBits ≤ 262144 * dec1Env.width ∧
    (0 : Nat) < 4096 ∧ dec1Env.count 0 = [0x41, 0x42, 0x43].length ∧ (0 : Nat) < 2 ^ 32 ∧
    (∀ x ∈ [0x41, 0x42, 0x43], x < 256 ∧ (t3.getD x absentCode).len ≠ 0#8) ∧
    dec1.mem.readElem .blkOffset 0 = some (BitVec.ofNat 32 0) ∧
    encodeSymbols t3 [0x41, 0x42, 0x43] = [true, false, false, false, true] ∧
    0 + (encodeSymbols t3 [0x41, 0x42, 0x43]).length ≤ dec1Env.totalBits ∧
    dec1Env.width = 8 ∧ dec1.mem.readElem .stream (4 / 8) = some 0x88#32 ∧
    (∀ j, ∀ h : j < [true, false, false, false, true].length,
      (0x88#32).getLsbD (8 - 1 - (0 + j) % 8) = [true, false, false, false, true][j]) := by
  decide +kernel

theorem wit_CompleteCodeNeverBad :
    let lens := (lensOf [(0x41, 1), (0x42, 2), (0x43, 2)]).map BitVec.toNat
    lens.length = 256 ∧ (∀ l ∈ lens, l ≤ 32) ∧ canonical lens = .ok (t3, 2) ∧ kraft 32 lens = 2 ^ 32 ∧
    dec1Env.table = t3 ∧ dec1Env.maxlen = 2 ∧ (0 : Nat) < 4096 ∧
    (match dec1Env.decodeBlock 0 dec1.mem with | .ok _ => true | .error _ => false) = true := by decide +kernel

/-- Every outcome on TV-DEC-1: the first bit emits A, alone in the table with codeword 1; the second bit is no codeword and
the length is below maxlen; the count reached; the stream exhausted; a slot unwritten; and, in the table of one symbol with
codeword 0, a bit 1 at length maxlen. -/
theorem wit_EngineIteration :
    (match dec1Env.iterate ⟨0, 0, 0, 0, 0, 0, 0⟩ dec1.mem with
      | .running w _ => decide (w.k = 1) | _ => false) = true ∧
    (match dec1Env.iterate ⟨0, 1, 0, 0, 1, 1, 0⟩ dec1.mem with
      | .running w _ => decide (w.k = 1 ∧ w.l = 1) | _ => false) = true ∧
    (0 < dec1Env.count 0 ∧ 0 < dec1Env.totalBits ∧ dec1.mem.readElem .stream (0 / dec1Env.width) = some 0x88#32 ∧
      1 = 2 * 0 + ((0x88#32).getLsbD (dec1Env.width - 1 - 0 % dec1Env.width)).toNat ∧
      (∃ e, dec1Env.table[0x41]? = some e ∧ e.len.toNat = 0 + 1 ∧ e.cw.toNat = 1) ∧
      (∀ j ∈ List.range dec1Env.table.length, ∀ e, dec1Env.table[j]? = some e → e.len.toNat = 0 + 1 →
        e.cw.toNat = 1 → j = 0x41) ∧ 0 + 1 < dec1Env.maxlen) ∧
    dec1Env.count 0 ≤ 3 ∧ (dec1Env.count 0 > 2 ∧ dec1Env.totalBits ≤ 5) ∧
    Memory.readElem ([] : Memory) .stream (0 / dec1Env.width) = none ∧
    (let t := tableOf [(0x5A, 0, 1)]
     (t.all fun e => !(decide (e.len.toNat = 1) && decide (e.cw.toNat = 1))) = true ∧ 1 ≤ 0 + 1) := by
  refine ⟨by decide +kernel, by decide +kernel, ⟨by decide, by decide, by decide +kernel, by decide +kernel,
    ⟨⟨1#32, 1#8⟩, by decide +kernel, by decide, by decide⟩, ?_, by decide⟩, by decide, by decide, by decide,
    by decide +kernel, by decide⟩
  intro j hj e he h1 h2
  have h : (List.range 256).all (fun j => match dec1Env.table[j]? with
      | some e => !(decide (e.len.toNat = 1) && decide (e.cw.toNat = 1)) || decide (j = 0x41)
      | none => true) = true := by decide +kernel
  have hl : dec1Env.table.length = 256 := by decide +kernel
  have := List.all_eq_true.mp h j (hl ▸ hj)
  rw [he] at this
  simpa [h1, h2] using this

/-- Engine 3 takes block 0 of TV-DEC-1. -/
theorem wit_EngineStepsKeepResult :
    dec1.Inv ∧ dec1.cur = some (.decode .bank0) ∧
    onNext (engineTurn 3 0 dec1) (fun s => decide (s.taken = [0])) = true ∧
    onNext (exec (.decode .bank0) dec1) (fun t => t.status.done) = true :=
  ⟨dec1_inv, rfl, by decide +kernel, by decide +kernel⟩

/-! ## Invariants and whole-machine rules -/

theorem wit_InvariantAtReset : { Params.reference with maxLen := 2, numEngines := 1 }.wf = true := by decide

/-- The witness of the five statements "every step keeps": the completion of a COUNT and of a DECODE. -/
theorem wit_StepKeeps :
    (count2.Inv ∧ onNext (step count2) (fun t => t.status.done) = true) ∧
    (dec1.Inv ∧ onNext (step dec1) (fun t => t.status.done) = true) :=
  ⟨⟨count2_inv, by decide +kernel⟩, ⟨dec1_inv, by decide +kernel⟩⟩

theorem wit_EqualOnlyByCompare :
    let s : State := { State.reset with
      table0 := t3, table1 := t3, info0 := ⟨2#8, true⟩, info1 := ⟨2#8, true⟩, cur := some .compare }
    onNext (step s) (fun t => decide (t.status.equal ≠ s.status.equal)) = true := by decide +kernel

theorem wit_BankOnlyByItsCommands :
    let s : State := { withLens (List.replicate 256 0#8) with cur := some (.assign .bank0), info0 := ⟨1#8, true⟩ }
    s.schedule.head? ≠ some .reset ∧ (s.info .bank0).valid = true ∧
    onNext (step s) (fun t => decide (t.info .bank0 ≠ s.info .bank0)) = true := by decide +kernel

theorem wit_InputsFixedWhileBusy :
    dec1.Inv ∧ dec1.busy = true ∧ dec1.schedule.head? ≠ some .reset ∧
    onNext (step dec1) (fun t => t.status.done) = true ∧
    Arr.stream ∈ [Arr.dataBuf, Arr.stream, Arr.blkOffset, Arr.blkCount] ∧
    1048575 < Arr.stream.bytes dec1.params ∧ dec1.cur ≠ some .tree ∧ (∀ b, dec1.cur ≠ some (.build b)) ∧
    dec1.cur ≠ some .count :=
  ⟨dec1_inv, rfl, by decide, by decide +kernel, by decide, by decide, by decide, by intro b; cases b <;> decide, by decide⟩

end Sys2Proof.Tests
end

namespace Sys2Proof.Machine

/-! ## Memory within the arrays (R81, R82) -/

theorem mem_allArrays (a : Arr) : a ∈ allArrays := by cases a <;> decide

theorem inArrays_of_lt {p : Params} (a : Arr) {x : Nat} (hl : a.base ≤ x) (hu : x < a.base + a.bytes p) :
    inArrays p x = true :=
  List.any_eq_true.mpr ⟨a, mem_allArrays a, by simp [hl, hu]⟩

/-- Memory holds bytes of the arrays only: the second half of `State.memOk`, of a memory alone. -/
def Memory.within (p : Params) (m : Memory) : Prop := ∀ c ∈ m, inArrays p c.1 = true

/-- A write below the capacity of an array stays within the arrays. -/
theorem setRange_within {p : Params} {m : Memory} (h : m.within p) (a : Arr) {i : Nat} {bs : List Byte}
    (hi : ∀ k, k < bs.length → i + k < a.bytes p) : (m.setRange (a.base + i) bs).within p := by
  intro c hc
  rcases mem_setRange hc with hc | ⟨hl, hu⟩
  · exact h c hc
  · have := hi (c.1 - (a.base + i)) (by omega)
    exact inArrays_of_lt a (by omega) (by omega)

theorem writeElem_within {p : Params} {m : Memory} (h : m.within p) (a : Arr) {i : Nat} (v : Word)
    (hi : 4 * i + 4 ≤ a.bytes p) : (m.writeElem a i v).within p :=
  setRange_within h a fun k hk => by rw [length_lanes] at hk; omega

/-- The legal ranges of R12 that bound the arrays by their windows. -/
theorem Params.wf_bounds {p : Params} (h : p.wf = true) : p.maxBlocks ≤ 4096 ∧ p.maxOutBytes ≤ 1048576 := by
  simp only [Params.wf, Bool.and_eq_true, decide_eq_true_eq] at h
  omega

/-- The result entries of a block below MAX_BLOCKS lie within their arrays (R55). -/
theorem endBlock_within {p : Params} {m : Memory} (hp : p.wf = true) (h : m.within p) (r : BlockEnd) {w : Walk}
    (hw : w.block < p.maxBlocks) : (endBlock r w m).within p := by
  have hb := (Params.wf_bounds hp).1
  have fits : ∀ a ∈ [Arr.blkStatus, Arr.blkErrpos, Arr.blkDone, Arr.blkEnd], 4 * w.block + 4 ≤ a.bytes p := by
    simp only [List.forall_mem_cons, Arr.bytes, Arr.window, List.not_mem_nil, false_imp_iff, implies_true, and_true]
    omega
  unfold endBlock
  exact writeElem_within (writeElem_within (writeElem_within (writeElem_within h _ _ (fits _ (by simp)))
    _ _ (fits _ (by simp))) _ _ (fits _ (by simp))) _ _ (fits _ (by simp))

/-! ## What every write of a DECODE keeps -/

/-- The walk works on a block of the DECODE, at that block's output base (R308). -/
def DecodeEnv.placed (env : DecodeEnv) (w : Walk) : Prop := w.block < env.counts.length ∧ w.base = env.base w.block

/-- A property of memory that both kinds of write of a DECODE keep: the result entries of a block that ends (R310, R311)
and the emission of a symbol below the block's count (R307). -/
structure DecodeEnv.Keeps (env : DecodeEnv) (P : Memory → Prop) : Prop where
  ended : ∀ (r : BlockEnd) (w : Walk) (m : Memory), env.placed w → P m → P (endBlock r w m)
  emitted : ∀ (w : Walk) (m : Memory) (b : Byte), env.placed w → w.k < env.count w.block → P m →
    P (m.setRange (Arr.base .outBuf + (w.base + w.k)) [b])

/-- What an iteration leads to has the property, and a walk that goes on stays on its block. -/
def Iter.has (env : DecodeEnv) (P : Memory → Prop) : Iter → Prop
  | .running w m => env.placed w ∧ P m
  | .ended m => P m
  | .fault _ => True

section
variable {env : DecodeEnv} {P : Memory → Prop} {w : Walk} {m m' : Memory}

theorem takeBit_keeps (hP : env.Keeps P) (hw : env.placed w) (hk : w.k < env.count w.block) (hm : P m) (bit : Nat) :
    (env.takeBit w m bit).has env P := by
  obtain ⟨sym, -, e⟩ | ⟨-, -, e⟩ | ⟨-, -, e⟩ := takeBit_cases env w m bit <;> rw [e]
  · exact ⟨hw, hP.emitted w m _ hw hk hm⟩
  · exact hP.ended _ _ m hw hm
  · exact ⟨hw, hm⟩

theorem iterate_keeps (hP : env.Keeps P) (hw : env.placed w) (hm : P m) : (env.iterate w m).has env P := by
  obtain ⟨-, e⟩ | ⟨-, -, e⟩ | ⟨hk, -, ⟨-, e⟩ | ⟨bit, -, e⟩⟩ := iterate_cases env w m <;> rw [e]
  · exact hP.ended _ w m hw hm
  · exact hP.ended _ w m hw hm
  · trivial
  · exact takeBit_keeps hP hw hk hm bit

theorem finishWalk_keeps (hP : env.Keeps P) (n : Nat) (hw : env.placed w) (hm : P m)
    (e : env.finishWalk n w m = .ok m') : P m' := by
  induction n generalizing w m with
  | zero => injection e with e; exact e ▸ hP.ended _ w m hw hm
  | succ n ih =>
    have hi := iterate_keeps hP hw hm
    rw [DecodeEnv.finishWalk] at e
    cases he : env.iterate w m with
    | running w' m₁ => rw [he] at e hi; exact ih hi.1 hi.2 e
    | ended m₁ => rw [he] at e hi; injection e with e; exact e ▸ hi
    | fault f => rw [he] at e; cases e

theorem startWalk_placed {i : Nat} (hi : i < env.counts.length) (e : env.startWalk i m = .ok w) : env.placed w := by
  unfold DecodeEnv.startWalk at e
  split at e
  · cases e
  · injection e with e; subst e; exact ⟨hi, rfl⟩

theorem decodeBlock_keeps (hP : env.Keeps P) {i : Nat} (hi : i < env.counts.length) (hm : P m)
    (e : env.decodeBlock i m = .ok m') : P m' := by
  unfold DecodeEnv.decodeBlock at e
  split at e
  · cases e
  · exact finishWalk_keeps hP _ (startWalk_placed hi ‹_›) hm e

theorem finishEngines_keeps (hP : env.Keeps P) {es : List (Option Walk)} (hes : ∀ w, some w ∈ es → env.placed w)
    (hm : P m) (e : env.finishEngines es m = .ok m') : P m' := by
  induction es generalizing m with
  | nil => injection e with e; exact e ▸ hm
  | cons x es ih =>
    have hes' : ∀ w, some w ∈ es → env.placed w := fun w hw => hes w (List.mem_cons_of_mem _ hw)
    cases x with
    | none => exact ih hes' hm e
    | some w =>
      rw [DecodeEnv.finishEngines] at e
      split at e
      · cases e
      · exact ih hes' (finishWalk_keeps hP _ (hes w List.mem_cons_self) hm ‹_›) e

theorem decodeBlocks_keeps (hP : env.Keeps P) {is : List Nat} (his : ∀ i ∈ is, i < env.counts.length)
    (hm : P m) (e : env.decodeBlocks is m = .ok m') : P m' := by
  induction is generalizing m with
  | nil => injection e with e; exact e ▸ hm
  | cons i is ih =>
    obtain ⟨hi, his'⟩ := List.forall_mem_cons.mp his
    rw [DecodeEnv.decodeBlocks] at e
    split at e
    · cases e
    · exact ih his' (decodeBlock_keeps hP hi hm ‹_›) e

/-- Finishing every block of a DECODE keeps whatever both kinds of its writes keep. -/
theorem finishAll_keeps {s : State} (hP : env.Keeps P) (hes : ∀ w, some w ∈ s.engines → env.placed w)
    (hm : P s.mem) (e : env.finishAll s = .ok m') : P m' := by
  unfold DecodeEnv.finishAll at e
  split at e
  · cases e
  · exact decodeBlocks_keeps hP (fun i hi => List.mem_range.mp (List.mem_of_mem_filter hi))
      (finishEngines_keeps hP hes hm ‹_›) e

end

/-! ## The output region (R304, R308) -/

/-- Counts that pass the check of OUTPUT_TOO_LONG keep the running sum from `acc` within the limit. -/
theorem sum_le_of_firstOver {limit : Nat} {ns : List Nat} {i acc : Nat} (ha : acc ≤ limit)
    (h : firstOver limit i acc ns = none) : acc + ns.sum ≤ limit := by
  induction ns generalizing i acc with
  | nil => simpa using ha
  | cons n ns ih =>
    rw [firstOver] at h
    split at h
    · cases h
    · have := ih (by omega) h
      rw [List.sum_cons]; omega

/-- The region of a block ends within the sum of all counts. -/
theorem base_add_count_le (env : DecodeEnv) (i : Nat) : env.base i + env.count i ≤ env.counts.sum := by
  unfold DecodeEnv.base DecodeEnv.count
  rw [← List.sum_take_add_sum_drop env.counts i]
  refine Nat.add_le_add_left ?_ _
  rw [List.getD_eq_getElem?_getD, ← List.head?_drop]
  cases env.counts.drop i <;> simp

/-- A DECODE that passes its checks has at most MAX_BLOCKS blocks. -/
theorem checked_length_le {b : Bank} {s : State} {env : DecodeEnv} (h : invocationChecks b s = .pass env) :
    env.counts.length ≤ s.params.maxBlocks := by
  obtain ⟨-, -, -, hn, hr, -⟩ := invocationChecks_pass h
  exact ((readElems_ok _).mp hr).1 ▸ hn

/-- A DECODE that passes its checks emits at most MAX_OUT_BYTES. -/
theorem checked_sum_le {b : Bank} {s : State} {env : DecodeEnv} (h : invocationChecks b s = .pass env) :
    env.counts.sum ≤ s.params.maxOutBytes := by
  obtain ⟨-, -, -, -, -, hf, -⟩ := invocationChecks_pass h
  simpa using sum_le_of_firstOver (Nat.zero_le _) hf

/-- Every write of a DECODE that passes its checks lies within the arrays. -/
theorem decode_keeps_within {b : Bank} {s : State} {env : DecodeEnv} (hp : s.params.wf = true)
    (h : invocationChecks b s = .pass env) : env.Keeps (Memory.within s.params) where
  ended r w m hw hm := endBlock_within hp hm r (Nat.lt_of_lt_of_le hw.1 (checked_length_le h))
  emitted w m b hw hk hm := by
    refine setRange_within hm .outBuf fun k' hk' => ?_
    have hs := checked_sum_le h
    have ho := (Params.wf_bounds hp).2
    have hb := base_add_count_le env w.block
    rw [hw.2]
    simp only [List.length_singleton] at hk'
    simp only [Arr.bytes, Arr.window]
    omega

/-! ## Turns and completions -/

/-- A step is the turn of some agent after the schedule has moved on. -/
theorem step_runTurn {s t : State} (h : step s = .next t) :
    ∃ rest turn, runTurn turn { s with schedule := rest } = .next t := by
  obtain ⟨s0, turn, h', ⟨-, rfl, -⟩ | ⟨rest, -, rfl⟩⟩ := step_cases h
  · exact ⟨s0.schedule, turn, h'⟩
  · exact ⟨rest, turn, h'⟩

/-- The invariant does not read the schedule. -/
theorem State.Inv.withSchedule {s : State} (h : s.Inv) (rest : List Turn) :
    ({ s with schedule := rest } : State).Inv :=
  ⟨h.params, h.mem, h.report, h.freq, h.banks, h.engines⟩

/-- The engines' part of the invariant during a DECODE that passes its checks. -/
theorem State.Inv.decoding {s : State} (h : s.Inv) {b : Bank} {env : DecodeEnv} (hc : s.cur = some (.decode b))
    (hp : invocationChecks b s = .pass env) : s.decodingOk env := by
  have he := h.engines.2
  simpa only [hc, hp] using he

theorem State.decodingOk.placed {s : State} {env : DecodeEnv} (h : s.decodingOk env) {w : Walk}
    (hw : some w ∈ s.engines) : env.placed w := by
  obtain ⟨-, -, -, -, hok, -⟩ := h
  exact ⟨(hok w hw).1, (hok w hw).2.1⟩

/-- Every state a command's rule can leave before its completion satisfies `P`. -/
def CmdResult.leaves (P : State → Prop) : CmdResult → Prop
  | .done s => P s
  | .error s _ _ => P s
  | .fault _ => True

/-- What a rule leaves and completion keeps holds after the command. -/
theorem finish_leaves {P : State → Prop} {r : CmdResult} {t : State} (hr : r.leaves P)
    (hc : ∀ s, P s → P s.complete) (he : ∀ s code info, P s → P (s.completeError code info))
    (h : r.finish = .next t) : P t := by
  obtain ⟨s, rfl, rfl⟩ | ⟨s, code, info, rfl, rfl⟩ := finish_next h
  · exact hc s hr
  · exact he s code info hr

/-! ## Every turn keeps memory and the parameters -/

/-- Memory is in order and the parameters are `p`. -/
def State.memOkFor (p : Params) (t : State) : Prop := t.memOk ∧ t.params = p

/-- Only memory and the parameters count. -/
theorem State.memOkFor_congr {p : Params} {s t : State} (h : s.memOkFor p) (hm : t.mem = s.mem)
    (hp : t.params = s.params) : t.memOkFor p := by
  unfold State.memOkFor State.memOk at *
  rwa [hm, hp]

theorem State.memOkFor_of_mem {p : Params} {t : State} (hw : t.mem.wf) (hi : t.mem.within p) (hp : t.params = p) :
    t.memOkFor p :=
  ⟨⟨hw, by rw [hp]; exact hi⟩, hp⟩

section
variable {p : Params} {s t : State}

theorem State.memOkFor.within (h : s.memOkFor p) : s.mem.within p := h.2 ▸ h.1.2

theorem countCmd_memOkFor (h : s.memOkFor p) : (countCmd s).leaves (State.memOkFor p) := by
  obtain ⟨-, e⟩ | ⟨-, ⟨f, -, e⟩ | ⟨data, -, e⟩⟩ := countCmd_cases s <;> rw [e]
  · exact h
  · trivial
  · exact h

theorem treeCmd_memOkFor (h : s.memOkFor p) : (treeCmd s).memOkFor p := by
  refine State.memOkFor_of_mem (treeCmd_wf h.1.1) ?_ h.2
  refine setRange_within (i := 0) h.within .lenBuf fun k hk => ?_
  simpa [treeLens, alphabetSize, Arr.bytes, Arr.window] using hk

theorem assignCmd_memOkFor (h : s.memOkFor p) (b : Bank) : (assignCmd b s).leaves (State.memOkFor p) := by
  obtain ⟨-, e⟩ | ⟨-, ⟨f, -, e⟩ | ⟨bytes, -, ⟨sym, -, e⟩ | ⟨-, ⟨code, sym, -, e⟩ | ⟨tab, m, -, e⟩⟩⟩⟩ :=
    assignCmd_cases b s <;> rw [e]
  · exact h
  · trivial
  · exact h
  · exact h
  · exact State.memOkFor_congr h (by simp) (by simp)

theorem buildCmd_memOkFor (h : s.memOkFor p) (b : Bank) : (buildCmd b s).leaves (State.memOkFor p) := by
  obtain ⟨-, e⟩ | ⟨f, -, e⟩ | ⟨-, data, -, e⟩ := buildCmd_cases b s <;> rw [e]
  · exact h
  · trivial
  · exact assignCmd_memOkFor (treeCmd_memOkFor (s := { s with freq := countList data }) h) b

theorem compareCmd_memOkFor (h : s.memOkFor p) : (compareCmd s).leaves (State.memOkFor p) := by
  obtain ⟨-, e⟩ | ⟨-, -, e⟩ | ⟨-, -, e⟩ := compareCmd_cases s <;> rw [e] <;> exact h

theorem decodeRule_memOkFor (hi : s.Inv) {b : Bank} (hc : s.cur = some (.decode b)) :
    (decodeRule b s).leaves (State.memOkFor s.params) := by
  have decoded : ∀ env m, invocationChecks b s = .pass env → env.finishAll s = .ok m →
      (s.decoded m env.counts).memOkFor s.params := fun env m hp hm =>
    State.memOkFor_of_mem (finishAll_wf hi.mem.1 hm)
      (finishAll_keeps (decode_keeps_within hi.params hp) (fun w => (hi.decoding hc hp).placed) hi.mem.2 hm) rfl
  obtain ⟨f, -, e⟩ | ⟨code, info, -, e⟩ | ⟨env, hp, ⟨f, -, e⟩ | ⟨m, hm, ⟨-, e⟩ | ⟨i, rest, -, e⟩⟩⟩ :=
    decodeRule_cases b s <;> rw [e]
  · trivial
  · exact ⟨hi.mem, rfl⟩
  · trivial
  · exact decoded env m hp hm
  · exact decoded env m hp hm

theorem exec_memOkFor (hi : s.Inv) {i : Instr} (hc : s.cur = some i) (h : exec i s = .next t) :
    t.memOkFor s.params := by
  have hs : s.memOkFor s.params := ⟨hi.mem, rfl⟩
  rw [exec_eq] at h
  refine finish_leaves ?_ (fun _ h => h) (fun _ _ _ h => h) h
  cases i with
  | assign b => exact assignCmd_memOkFor hs b
  | count => exact countCmd_memOkFor hs
  | tree => exact treeCmd_memOkFor hs
  | build b => exact buildCmd_memOkFor hs b
  | decode b => exact decodeRule_memOkFor hi hc
  | compare => exact compareCmd_memOkFor hs

theorem storeReg_memOkFor (h : s.memOkFor p) (r : Reg) (v : Word) : (s.storeReg r v).memOkFor p := by
  cases r <;> exact h

theorem storeArray_memOkFor (h : s.memOkFor p) (a : Arr) (i : Nat) (v : Word) : (s.storeArray a i v).memOkFor p := by
  refine State.memOkFor_of_mem (storeArray_wf h.1.1 a i v) (setRange_within h.within a fun k hk => ?_) h.2
  rw [List.length_take, h.2] at hk
  omega

theorem writeLocation_memOkFor (h : s.memOkFor p) (v : Word) (l : Location) : (s.writeLocation v l).memOkFor p := by
  obtain e | ⟨-, e⟩ | ⟨i, -, -, -, e⟩ | ⟨-, -, -, e⟩ | ⟨-, e⟩ | ⟨-, e⟩ | ⟨r, -, -, -, e⟩ | ⟨a, i, -, -, -, e⟩ :=
    writeLocation_cases v l s <;> rw [e]
  · exact h
  · exact h
  · exact h
  · exact h
  · exact h
  · exact h
  · exact storeReg_memOkFor h r v
  · exact storeArray_memOkFor h a i v

theorem hostTurn_memOkFor (h : s.memOkFor p) (ht : hostTurn s = .next t) : t.memOkFor p := by
  obtain ⟨-, rfl⟩ | ⟨off, n, rest, -, -, rfl⟩ | ⟨off, n, v, rest, -, -, rfl⟩ | ⟨rest, -, rfl⟩ := hostTurn_cases ht
  · exact h
  · exact h
  · exact writeLocation_memOkFor h v _
  · exact h

theorem engineTurn_memOkFor (hi : s.Inv) {e pick : Nat} (ht : engineTurn e pick s = .next t) :
    t.memOkFor s.params := by
  have hs : s.memOkFor s.params := ⟨hi.mem, rfl⟩
  obtain rfl | ⟨b, env, hc, hp, h⟩ := engineTurn_cases ht
  · exact hs
  have iterated : ∀ w, s.engines[e]? = some (some w) →
      (env.iterate w s.mem).has env (Memory.within s.params) := fun w he =>
    iterate_keeps (decode_keeps_within hi.params hp) ((hi.decoding hc hp).placed (List.mem_of_getElem? he)) hi.mem.2
  obtain ⟨w, -, -, -, -, rfl⟩ | ⟨w, w', m, he, hr, rfl⟩ | ⟨w, m, he, hr, rfl⟩ := h
  · exact hs
  · have hm := iterated w he
    rw [hr] at hm
    exact State.memOkFor_of_mem ((iterate_wf hi.mem.1).1 _ _ hr) hm.2 rfl
  · have hm := iterated w he
    rw [hr] at hm
    exact State.memOkFor_of_mem ((iterate_wf hi.mem.1).2 _ hr) hm rfl

theorem platformReset_memOkFor (s : State) : s.platformReset.memOkFor s.params :=
  ⟨⟨resetOf_mem_wf s.params, nofun⟩, rfl⟩

theorem runTurn_memOkFor (hi : s.Inv) {turn : Turn} (h : runTurn turn s = .next t) : t.memOkFor s.params := by
  obtain ⟨-, h⟩ | ⟨-, -, rfl⟩ | ⟨i, -, hc, h⟩ | ⟨e, pick, -, h⟩ | ⟨-, rfl⟩ := runTurn_cases h
  · exact hostTurn_memOkFor ⟨hi.mem, rfl⟩ h
  · exact ⟨hi.mem, rfl⟩
  · exact exec_memOkFor hi hc h
  · exact engineTurn_memOkFor hi h
  · exact platformReset_memOkFor s

end

/-- Settles O52: every agent's turn writes within the arrays and keeps the canonical form. -/
theorem stepKeepsMemory : Obligations.StepKeepsMemory := by
  unfold Obligations.StepKeepsMemory
  intro s t hi h
  obtain ⟨rest, turn, h⟩ := step_runTurn h
  exact runTurn_memOkFor (s := { s with schedule := rest }) (hi.withSchedule rest) h

end Sys2Proof.Machine

namespace Sys2Proof.Machine

/-! ## The heap in key order (R214) -/

theorem heapOrder_iff (x y : HeapEntry) : heapOrder x y = true ↔ keyLe x y := by
  simp [heapOrder, keyLe]

theorem keyLe_trans {x y z : HeapEntry} (hxy : keyLe x y) (hyz : keyLe y z) : keyLe x z := by
  unfold keyLe at *; omega

theorem keyLe_total (x y : HeapEntry) : keyLe x y ∨ keyLe y x := by
  unfold keyLe; omega

theorem pushHeap_eq (e : HeapEntry) (h : List HeapEntry) : pushHeap e h = h.orderedInsert keyLe e := by
  unfold pushHeap
  congr 1
  funext x y
  exact propext (heapOrder_iff x y)

theorem pushHeap_perm (e : HeapEntry) (h : List HeapEntry) : (pushHeap e h).Perm (e :: h) :=
  List.perm_orderedInsert _ e h

theorem pushHeap_sorted {h : List HeapEntry} (hs : h.Pairwise keyLe) (e : HeapEntry) :
    (pushHeap e h).Pairwise keyLe := by
  have : IsTrans HeapEntry keyLe := ⟨fun _ _ _ => keyLe_trans⟩
  have : Std.Total keyLe := ⟨keyLe_total⟩
  rw [pushHeap_eq]
  exact hs.orderedInsert e h

/-- The entry of the leaf of a frequency pair with its sequence number (R214). -/
def leafEntry (x : FreqEntry × Nat) : HeapEntry := ⟨x.1.cnt.toNat, x.2, .leaf x.1.sym.toNat⟩

theorem pushLeaves_sorted (l : List FreqEntry) {i : Nat} {h : List HeapEntry} (hs : h.Pairwise keyLe) :
    (pushLeaves i l h).Pairwise keyLe := by
  induction l generalizing i h with
  | nil => exact hs
  | cons e l ih => exact ih (pushHeap_sorted hs _)

theorem pushLeaves_perm (l : List FreqEntry) (i : Nat) (h : List HeapEntry) :
    (pushLeaves i l h).Perm ((l.zipIdx i).map leafEntry ++ h) := by
  induction l generalizing i h with
  | nil => exact .refl _
  | cons e l ih =>
    calc pushLeaves (i + 1) l (pushHeap (leafEntry (e, i)) h)
      _ |>.Perm ((l.zipIdx (i + 1)).map leafEntry ++ pushHeap (leafEntry (e, i)) h) := ih _ _
      _ |>.Perm ((l.zipIdx (i + 1)).map leafEntry ++ leafEntry (e, i) :: h) := (pushHeap_perm _ h).append_left _
      _ |>.Perm (leafEntry (e, i) :: ((l.zipIdx (i + 1)).map leafEntry ++ h)) := List.perm_middle

theorem pushLeaves_nil_perm (l : List FreqEntry) : (pushLeaves 0 l []).Perm (l.zipIdx.map leafEntry) := by
  simpa using pushLeaves_perm l 0 []

theorem length_pushHeap (e : HeapEntry) (h : List HeapEntry) : (pushHeap e h).length = h.length + 1 :=
  (pushHeap_perm e h).length_eq

theorem length_pushLeaves (l : List FreqEntry) : (pushLeaves 0 l []).length = l.length := by
  simpa using (pushLeaves_nil_perm l).length_eq

/-! ## The merge (R215) -/

theorem mergeHeap_cons_cons (rounds next : Nat) (a b : HeapEntry) (rest : List HeapEntry) :
    mergeHeap (rounds + 1) next (a :: b :: rest) =
      mergeHeap rounds (next + 1) (pushHeap ⟨a.freq + b.freq, next, .internal a.node b.node⟩ rest) := rfl

theorem mergeHeap_singleton (rounds next : Nat) (e : HeapEntry) : mergeHeap rounds next [e] = [e] := by
  cases rounds <;> rfl

/-- With a round for every entry but one, the merge of a heap that is not empty ends with one entry. -/
theorem mergeHeap_eq_singleton {rounds next : Nat} {h : List HeapEntry} (h0 : h ≠ []) (hr : h.length ≤ rounds + 1) :
    ∃ root, mergeHeap rounds next h = [root] := by
  induction rounds generalizing next h with
  | zero =>
    obtain ⟨e, rfl⟩ := List.length_eq_one_iff.mp (Nat.le_antisymm hr (List.length_pos_iff.mpr h0))
    exact ⟨e, rfl⟩
  | succ rounds ih =>
    match h with
    | [e] => exact ⟨e, mergeHeap_singleton _ _ e⟩
    | a :: b :: rest =>
      rw [mergeHeap_cons_cons]
      have hl := length_pushHeap ⟨a.freq + b.freq, next, .internal a.node b.node⟩ rest
      refine ih (List.ne_nil_of_length_pos (by omega)) ?_
      simp only [List.length_cons] at hr
      omega

/-- A merge takes the two entries of least key out of a heap in key order and puts in their parent. -/
theorem mergeHeap_step (rounds next : Nat) {h : List HeapEntry} (hs : h.Pairwise keyLe) (hl : 2 ≤ h.length) :
    ∃ a b rest h', h.Perm (a :: b :: rest) ∧ keyLe a b ∧ (∀ x ∈ rest, keyLe a x ∧ keyLe b x) ∧
      h'.Pairwise keyLe ∧ h'.Perm (⟨a.freq + b.freq, next, .internal a.node b.node⟩ :: rest) ∧
      mergeHeap (rounds + 1) next h = mergeHeap rounds (next + 1) h' := by
  match h with
  | a :: b :: rest =>
    obtain ⟨ha, hs'⟩ := List.pairwise_cons.mp hs
    obtain ⟨hb, hrest⟩ := List.pairwise_cons.mp hs'
    exact ⟨a, b, rest, pushHeap _ rest, .refl _, ha b List.mem_cons_self,
      fun x hx => ⟨ha x (List.mem_cons_of_mem b hx), hb x hx⟩, pushHeap_sorted hrest _, pushHeap_perm _ rest,
      mergeHeap_cons_cons rounds next a b rest⟩

/-- With two or more frequency pairs the merge ends with one entry, the root of the tree. -/
theorem treeDepths_eq_root {l : List FreqEntry} (hl : 2 ≤ l.length) :
    ∃ root, mergeHeap l.length l.length (pushLeaves 0 l []) = [root] ∧ treeDepths l = leafDepths 0 root.node := by
  have hlen := length_pushLeaves l
  obtain ⟨root, hroot⟩ := mergeHeap_eq_singleton (rounds := l.length) (next := l.length)
    (List.ne_nil_of_length_pos (l := pushLeaves 0 l []) (by omega)) (by omega)
  refine ⟨root, hroot, ?_⟩
  match l with
  | x :: y :: es =>
    simp only [treeDepths, hroot]

/-- Settles O28: one case per clause of R214 to R216, each from the law of its operation. -/
theorem heapKeepsKeyOrder : Obligations.HeapKeepsKeyOrder := by
  unfold Obligations.HeapKeepsKeyOrder
  refine ⟨?push, ?leaves, ?merge, ?root, ?depths, ?depthsAreTwo⟩
  case push => exact fun e h hs => ⟨pushHeap_sorted hs e, pushHeap_perm e h⟩
  case leaves => exact fun l => ⟨pushLeaves_sorted l .nil, pushLeaves_nil_perm l⟩
  case merge => exact fun rounds next h => mergeHeap_step rounds next
  case root => exact fun l => treeDepths_eq_root
  case depths => exact fun d sym x y => ⟨rfl, rfl⟩
  case depthsAreTwo => decide

end Sys2Proof.Machine

namespace Sys2Proof.Machine

/-- After reset every engine is idle and no block is taken (R390). -/
theorem resetOf_allIdle (p : Params) : (State.resetOf p).allIdle :=
  ⟨fun _ h => List.eq_of_mem_replicate h, rfl⟩

/-- After reset STATUS and ERR_INFO report nothing (R390). -/
theorem resetOf_reportOk (p : Params) : (State.resetOf p).reportOk :=
  ⟨⟨nofun, fun h => absurd rfl h⟩, fun _ => ⟨rfl, rfl⟩, nofun, nofun⟩

/-- After reset the frequency list is empty (R390). -/
theorem resetOf_freqOk (p : Params) : (State.resetOf p).freqOk :=
  ⟨.nil, List.nodup_nil, nofun, Nat.zero_le _⟩

/-- After reset no bank is VALID (R390). -/
theorem resetOf_bankOk (p : Params) (b : Bank) : (State.resetOf p).bankOk b := by
  cases b <;> exact nofun

theorem resetOf_inv {p : Params} (h : p.wf = true) : (State.resetOf p).Inv where
  params := h
  mem := ⟨resetOf_mem_wf p, nofun⟩
  report := resetOf_reportOk p
  freq := resetOf_freqOk p
  banks := resetOf_bankOk p
  engines := ⟨List.length_replicate, resetOf_allIdle p⟩

/-- Settles O51: the reference configuration is one of the legal choices. -/
theorem invariantAtReset : Obligations.InvariantAtReset := by
  unfold Obligations.InvariantAtReset
  exact ⟨resetOf_inv (by decide), fun _ => resetOf_inv⟩

end Sys2Proof.Machine

namespace Sys2Proof.Machine

/-! ## What every command's rule leaves alone -/

/-- The rule of a command, the state writes that its completion step follows (R120). -/
def cmdRule (i : Instr) (s : State) : CmdResult :=
  match i with
  | .assign b => assignCmd b s
  | .count => countCmd s
  | .tree => .done (treeCmd s)
  | .build b => buildCmd b s
  | .decode b => decodeRule b s
  | .compare => compareCmd s

theorem exec_eq_finish (i : Instr) (s : State) : exec i s = (cmdRule i s).finish := by
  cases i <;> rfl

/-- What the rule of `i` leaves alone on the way from `s` to `u`: the parameters; the report, and EQUAL unless it is
COMPARE; a bank unless `i` builds it, and VALID even then; the number of engines, and idle ones. -/
structure RuleFrame (i : Instr) (s u : State) : Prop where
  params : u.params = s.params
  err : u.status.err = s.status.err
  errClass : u.status.errClass = s.status.errClass
  errCode : u.status.errCode = s.status.errCode
  errInfo : u.errInfo = s.errInfo
  equal : i ≠ .compare → u.status.equal = s.status.equal
  bank : ∀ b, i ≠ .assign b → i ≠ .build b → u.table b = s.table b ∧ u.info b = s.info b
  valid : ∀ b, (s.info b).valid = true → (u.info b).valid = true
  engineCount : u.engines.length = s.engines.length
  idle : s.allIdle → u.allIdle

section
variable (i : Instr) (b : Bank) (s : State)

/-- The frame of a rule that writes nothing but memory, LEN_SIZE and the frequency list. -/
theorem RuleFrame.of_arrays (m : Memory) (n : Word) (l : List FreqEntry) :
    RuleFrame i s { s with mem := m, lenSize := n, freq := l } :=
  ⟨rfl, rfl, rfl, rfl, rfl, fun _ => rfl, fun b _ _ => by cases b <;> exact ⟨rfl, rfl⟩,
    fun b => by cases b <;> exact id, rfl, id⟩

theorem RuleFrame.refl : RuleFrame i s s := .of_arrays i s s.mem s.lenSize s.freq

theorem setBank_frame (tab : List Code) (m : Byte) : RuleFrame (.assign b) s (s.setBank b tab ⟨m, true⟩) where
  params := by simp
  err := by simp
  errClass := by simp
  errCode := by simp
  errInfo := by simp
  equal := by simp
  bank b' h _ := by
    have hb : b' ≠ b := fun e => h (e ▸ rfl)
    exact ⟨s.setBank_table_ne _ _ _ hb, s.setBank_info_ne _ _ _ hb⟩
  valid b' h := by
    by_cases hb : b' = b
    · subst hb; simp
    · rwa [s.setBank_info_ne _ _ _ hb]
  engineCount := by simp
  idle h := by simpa [State.allIdle] using h

theorem assignCmd_frame : (assignCmd b s).leaves (RuleFrame (.assign b) s) := by
  obtain ⟨-, e⟩ | ⟨-, ⟨f, -, e⟩ | ⟨bytes, -, ⟨sym, -, e⟩ | ⟨-, ⟨code, sym, -, e⟩ | ⟨tab, m, -, e⟩⟩⟩⟩ :=
    assignCmd_cases b s <;> rw [e]
  · exact .refl _ s
  · trivial
  · exact .refl _ s
  · exact .refl _ s
  · exact setBank_frame b s tab _

theorem countCmd_frame : (countCmd s).leaves (RuleFrame .count s) := by
  obtain ⟨-, e⟩ | ⟨-, ⟨f, -, e⟩ | ⟨data, -, e⟩⟩ := countCmd_cases s <;> rw [e]
  · exact .refl _ s
  · trivial
  · exact .of_arrays _ s s.mem s.lenSize (countList data)

theorem CmdResult.leaves_mono {P Q : State → Prop} (h : ∀ u, P u → Q u) {r : CmdResult} (hr : r.leaves P) :
    r.leaves Q := by
  cases r with
  | done u => exact h u hr
  | error u _ _ => exact h u hr
  | fault _ => trivial

/-- ASSIGN's rule after COUNT and TREE is within the frame of BUILD (R250). -/
theorem buildCmd_frame : (buildCmd b s).leaves (RuleFrame (.build b) s) := by
  obtain ⟨-, e⟩ | ⟨f, -, e⟩ | ⟨-, data, -, e⟩ := buildCmd_cases b s <;> rw [e]
  · exact .refl _ s
  · trivial
  · let s₁ : State := treeCmd { s with freq := countList data }
    have hs : RuleFrame (.build b) s s₁ := .of_arrays _ s s₁.mem s₁.lenSize s₁.freq
    refine CmdResult.leaves_mono (fun u hu => ?_) (assignCmd_frame b s₁)
    refine ⟨hu.params, hu.err, hu.errClass, hu.errCode, hu.errInfo, fun _ => hu.equal nofun, fun b' _ hb => ?_,
      fun b' h => hu.valid b' (hs.valid b' h), hu.engineCount, hu.idle⟩
    obtain ⟨ht, hi⟩ := hu.bank b' (fun e => hb (by cases e; rfl)) nofun
    obtain ⟨ht', hi'⟩ := hs.bank b' nofun hb
    exact ⟨ht.trans ht', hi.trans hi'⟩

theorem compareCmd_frame : (compareCmd s).leaves (RuleFrame .compare s) := by
  obtain ⟨-, e⟩ | ⟨-, -, e⟩ | ⟨-, -, e⟩ := compareCmd_cases s <;> rw [e]
  · exact .refl _ s
  · exact .refl _ s
  · exact { RuleFrame.refl .compare s with equal := fun h => absurd rfl h }

/-- At the end of a DECODE the engines are idle (R373). -/
theorem decoded_allIdle (m : Memory) (counts : List Nat) : (s.decoded m counts).allIdle :=
  ⟨fun _ h => List.eq_of_mem_replicate h, rfl⟩

theorem decoded_frame (m : Memory) (counts : List Nat) : RuleFrame (.decode b) s (s.decoded m counts) where
  params := rfl
  err := rfl
  errClass := rfl
  errCode := rfl
  errInfo := rfl
  equal _ := rfl
  bank b' _ _ := by cases b' <;> exact ⟨rfl, rfl⟩
  valid b' h := by cases b' <;> exact h
  engineCount := List.length_replicate
  idle _ := decoded_allIdle s m counts

theorem decodeRule_frame : (decodeRule b s).leaves (RuleFrame (.decode b) s) := by
  obtain ⟨f, -, e⟩ | ⟨code, info, -, e⟩ | ⟨env, -, ⟨f, -, e⟩ | ⟨m, -, ⟨-, e⟩ | ⟨i, rest, -, e⟩⟩⟩ :=
    decodeRule_cases b s <;> rw [e]
  · trivial
  · exact .refl _ s
  · trivial
  · exact decoded_frame b s m env.counts
  · exact decoded_frame b s m env.counts

theorem cmdRule_frame : (cmdRule i s).leaves (RuleFrame i s) := by
  cases i with
  | assign b => exact assignCmd_frame b s
  | count => exact countCmd_frame s
  | tree => exact .of_arrays _ s (treeCmd s).mem (treeCmd s).lenSize s.freq
  | build b => exact buildCmd_frame b s
  | decode b => exact decodeRule_frame b s
  | compare => exact compareCmd_frame s

end

/-- A command that answers a next state has completed, with or without an error, from a state its rule leaves. -/
theorem exec_completes {P : State → Prop} {i : Instr} {s t : State} (hP : (cmdRule i s).leaves P)
    (h : exec i s = .next t) :
    ∃ u, P u ∧ RuleFrame i s u ∧ (t = u.complete ∨ ∃ code info, t = u.completeError code info) := by
  rw [exec_eq_finish] at h
  have hf := cmdRule_frame i s
  obtain ⟨u, e, ht⟩ | ⟨u, code, info, e, ht⟩ := finish_next h <;> rw [e] at hP hf
  · exact ⟨u, hP, hf, .inl ht⟩
  · exact ⟨u, hP, hf, .inr ⟨code, info, ht⟩⟩

/-! ## What a turn of the host or of an engine leaves alone -/

/-- The step from `s` to `t` changes neither the parameters, nor EQUAL, nor a bank. -/
structure State.SameBanks (s t : State) : Prop where
  params : t.params = s.params
  equal : t.status.equal = s.status.equal
  table0 : t.table0 = s.table0
  table1 : t.table1 = s.table1
  info0 : t.info0 = s.info0
  info1 : t.info1 = s.info1

theorem State.SameBanks.table {s t : State} (h : s.SameBanks t) (b : Bank) : t.table b = s.table b := by
  cases b
  · exact h.table0
  · exact h.table1

theorem State.SameBanks.info {s t : State} (h : s.SameBanks t) (b : Bank) : t.info b = s.info b := by
  cases b
  · exact h.info0
  · exact h.info1

theorem writeLocation_sameBanks (s : State) (v : Word) (l : Location) : s.SameBanks (s.writeLocation v l) := by
  obtain e | ⟨-, e⟩ | ⟨i, -, -, -, e⟩ | ⟨-, -, -, e⟩ | ⟨-, e⟩ | ⟨-, e⟩ | ⟨r, -, -, -, e⟩ | ⟨a, i, -, -, -, e⟩ :=
    writeLocation_cases v l s <;> rw [e]
  · exact ⟨rfl, rfl, rfl, rfl, rfl, rfl⟩
  · exact ⟨rfl, rfl, rfl, rfl, rfl, rfl⟩
  · exact ⟨rfl, rfl, rfl, rfl, rfl, rfl⟩
  · exact ⟨rfl, rfl, rfl, rfl, rfl, rfl⟩
  · exact ⟨rfl, rfl, rfl, rfl, rfl, rfl⟩
  · exact ⟨rfl, rfl, rfl, rfl, rfl, rfl⟩
  · cases r <;> exact ⟨rfl, rfl, rfl, rfl, rfl, rfl⟩
  · exact ⟨rfl, rfl, rfl, rfl, rfl, rfl⟩

theorem hostTurn_sameBanks {s t : State} (h : hostTurn s = .next t) : s.SameBanks t := by
  obtain ⟨-, rfl⟩ | ⟨off, n, rest, -, -, rfl⟩ | ⟨off, n, v, rest, -, -, rfl⟩ | ⟨rest, -, rfl⟩ := hostTurn_cases h
  · exact ⟨rfl, rfl, rfl, rfl, rfl, rfl⟩
  · exact ⟨rfl, rfl, rfl, rfl, rfl, rfl⟩
  · have hw := writeLocation_sameBanks s v (locate s.params off.toNat)
    exact ⟨hw.params, hw.equal, hw.table0, hw.table1, hw.info0, hw.info1⟩
  · exact ⟨rfl, rfl, rfl, rfl, rfl, rfl⟩

/-- An engine's turn writes memory, the engines and the blocks taken, and nothing else. -/
theorem engineTurn_eq {e pick : Nat} {s t : State} (h : engineTurn e pick s = .next t) :
    t = { s with mem := t.mem, engines := t.engines, taken := t.taken } := by
  obtain rfl | ⟨b, env, -, -, ⟨w, -, -, -, -, rfl⟩ | ⟨w, w', m, -, -, rfl⟩ | ⟨w, m, -, -, rfl⟩⟩ := engineTurn_cases h
    <;> rfl

theorem engineTurn_sameBanks {e pick : Nat} {s t : State} (h : engineTurn e pick s = .next t) : s.SameBanks t := by
  rw [engineTurn_eq h]
  exact ⟨rfl, rfl, rfl, rfl, rfl, rfl⟩

/-! ## The report (R36, R37, R39, R156) -/

/-- No error is reported. -/
def State.reportClean (s : State) : Prop :=
  s.status.err = false ∧ s.status.errClass = 0#3 ∧ s.status.errCode = 0#8 ∧ s.errInfo = 0#32

/-- While a command is in progress no error is reported (R156). -/
theorem State.reportOk.clean {s : State} (h : s.reportOk) (hb : s.busy = true) : s.reportClean := by
  obtain ⟨herr, hnone, -, hbusy⟩ := h
  obtain ⟨-, he⟩ := hbusy hb
  have hc : s.status.errClass = 0#3 := by
    by_contra hne
    exact absurd (herr.mpr hne) (by simp [he])
  exact ⟨he, hc, hnone he⟩

theorem State.reportClean.ok {s : State} (h : s.reportClean) (hb : s.busy = true → s.status.done = false) :
    s.reportOk := by
  obtain ⟨he, hc, hcode⟩ := h
  exact ⟨by simp [he, hc], fun _ => hcode, by simp [he], fun hs => ⟨hb hs, he⟩⟩

/-- Every row of the error table has a class (R351, R352). -/
theorem classBits_codeBits_ne_zero (code : ErrCode) : classBits (codeBits code) ≠ 0#3 := by
  cases code <;> decide

/-- A report with the code and class of a row of the error table, of a block with BUSY = 0, is in order. -/
theorem reportOk_of_error {s : State} (code : ErrCode) (he : s.status.err = true)
    (hc : s.status.errCode = codeBits code) (hk : s.status.errClass = classBits (codeBits code))
    (hb : s.busy = false) : s.reportOk := by
  refine ⟨?_, fun h => ?_, fun _ => ⟨code, hc, hk⟩, fun h => ?_⟩
  · simp [he, hk, classBits_codeBits_ne_zero]
  · rw [he] at h; cases h
  · rw [hb] at h; cases h

theorem State.completeError_reportOk (s : State) (code : ErrCode) (info : Word) :
    (s.completeError code info).reportOk :=
  reportOk_of_error code rfl rfl rfl rfl

/-- Only STATUS, ERR_INFO and BUSY count for the report, and DONE may fall. -/
theorem State.reportOk_congr {s t : State} (h : s.reportOk) (he : t.status.err = s.status.err)
    (hk : t.status.errClass = s.status.errClass) (hc : t.status.errCode = s.status.errCode) (hi : t.errInfo = s.errInfo)
    (hb : t.cur = s.cur) (hd : s.status.done = false → t.status.done = false) : t.reportOk := by
  obtain ⟨herr, hnone, hrow, hbusy⟩ := h
  unfold State.reportOk State.busy
  rw [he, hk, hc, hi, hb]
  exact ⟨herr, hnone, hrow, fun h => (hbusy h).imp_left hd⟩

theorem exec_reportOk {i : Instr} {s t : State} (hs : s.reportClean) (h : exec i s = .next t) : t.reportOk := by
  obtain ⟨u, -, hu, rfl | ⟨code, info, rfl⟩⟩ := exec_completes (cmdRule_frame i s) h
  · obtain ⟨he, hk, hc, hi⟩ := hs
    exact State.reportClean.ok
      ⟨hu.err.trans he, hu.errClass.trans hk, hu.errCode.trans hc, hu.errInfo.trans hi⟩ nofun
  · exact u.completeError_reportOk code info

theorem writeLocation_reportOk {s : State} (h : s.reportOk) (v : Word) (l : Location) :
    (s.writeLocation v l).reportOk := by
  obtain e | ⟨-, e⟩ | ⟨i, -, -, -, e⟩ | ⟨-, hb, -, e⟩ | ⟨-, e⟩ | ⟨-, e⟩ | ⟨r, -, -, -, e⟩ | ⟨a, i, -, -, -, e⟩ :=
    writeLocation_cases v l s <;> rw [e]
  · exact h
  · exact State.reportOk_congr h rfl rfl rfl rfl rfl id
  · exact State.reportClean.ok ⟨rfl, rfl, rfl, rfl⟩ fun _ => rfl
  · exact reportOk_of_error .illegalCmd rfl rfl rfl hb
  · exact State.reportOk_congr h rfl rfl rfl rfl rfl fun hd => by simp [clearStatus, hd]
  · exact h
  · cases r <;> exact h
  · exact h

theorem hostTurn_reportOk {s t : State} (h : s.reportOk) (ht : hostTurn s = .next t) : t.reportOk := by
  obtain ⟨-, rfl⟩ | ⟨off, n, rest, -, -, rfl⟩ | ⟨off, n, v, rest, -, -, rfl⟩ | ⟨rest, -, rfl⟩ := hostTurn_cases ht
  · exact h
  · exact h
  · exact writeLocation_reportOk h v _
  · exact h

theorem engineTurn_reportOk {e pick : Nat} {s t : State} (h : s.reportOk) (ht : engineTurn e pick s = .next t) :
    t.reportOk := by
  rw [engineTurn_eq ht]; exact h

theorem runTurn_reportOk {turn : Turn} {s t : State} (hs : s.reportOk) (h : runTurn turn s = .next t) : t.reportOk := by
  obtain ⟨-, h⟩ | ⟨-, -, rfl⟩ | ⟨i, -, hc, h⟩ | ⟨e, pick, -, h⟩ | ⟨-, rfl⟩ := runTurn_cases h
  · exact hostTurn_reportOk hs h
  · exact hs
  · exact exec_reportOk (hs.clean (by simp [State.busy, hc])) h
  · exact engineTurn_reportOk hs h
  · exact resetOf_reportOk s.params

/-- Settles O53: a command starts from a clean report, and only completion and rejection write an error. -/
theorem stepKeepsReport : Obligations.StepKeepsReport := by
  unfold Obligations.StepKeepsReport
  intro s t hi h
  obtain ⟨rest, turn, h⟩ := step_runTurn h
  exact runTurn_reportOk (s := { s with schedule := rest }) hi.report h

end Sys2Proof.Machine

namespace Sys2Proof.Machine

/-! ## Who changes EQUAL and the banks (R46, R51, R281) -/

/-- A turn changes neither EQUAL nor a bank, or it completes the command in progress, or it is the reset input. -/
theorem runTurn_sameBanks {turn : Turn} {s t : State} (h : runTurn turn s = .next t) :
    s.SameBanks t ∨ (∃ i, s.cur = some i ∧ exec i s = .next t) ∨ (turn = .reset ∧ t = s.platformReset) := by
  obtain ⟨-, h⟩ | ⟨-, -, rfl⟩ | ⟨i, -, hc, h⟩ | ⟨e, pick, -, h⟩ | ⟨ht, rfl⟩ := runTurn_cases h
  · exact .inl (hostTurn_sameBanks h)
  · exact .inl ⟨rfl, rfl, rfl, rfl, rfl, rfl⟩
  · exact .inr (.inl ⟨i, hc, h⟩)
  · exact .inl (engineTurn_sameBanks h)
  · exact .inr (.inr ⟨ht, rfl⟩)

/-- A step changes neither EQUAL nor a bank, or it completes the command in progress, or it is the reset input. -/
theorem step_sameBanks {s t : State} (h : step s = .next t) :
    s.SameBanks t ∨ (∃ i rest, s.cur = some i ∧ exec i { s with schedule := rest } = .next t) ∨
      s.schedule.head? = some .reset := by
  obtain ⟨s₀, turn, h, hs⟩ := step_cases h
  have hs₀ : ∃ rest, s₀ = { s with schedule := rest } := by
    obtain ⟨-, rfl, -⟩ | ⟨rest, -, rfl⟩ := hs
    · exact ⟨s₀.schedule, rfl⟩
    · exact ⟨rest, rfl⟩
  obtain ⟨rest, rfl⟩ := hs₀
  obtain ⟨hp, he, h0, h1, i0, i1⟩ | ⟨i, hc, h⟩ | ⟨rfl, -⟩ := runTurn_sameBanks h
  · exact .inl ⟨hp, he, h0, h1, i0, i1⟩
  · exact .inr (.inl ⟨i, rest, hc, h⟩)
  · refine .inr (.inr ?_)
    obtain ⟨-, -, hd⟩ | ⟨rest', hsched, -⟩ := hs
    · obtain hd' | hd' := defaultTurn_cases s <;> rw [hd'] at hd <;> cases hd
    · rw [hsched]; rfl

/-- Settles O57: of the rules only COMPARE's writes EQUAL, and its completion sets DONE. -/
theorem equalOnlyByCompare : Obligations.EqualOnlyByCompare := by
  unfold Obligations.EqualOnlyByCompare
  intro s t h hne
  obtain hs | ⟨i, rest, hc, h⟩ | hr := step_sameBanks h
  · exact absurd hs.equal hne
  · obtain ⟨u, -, hu, ht⟩ := exec_completes (cmdRule_frame i _) h
    have hu' : t.status.equal = u.status.equal ∧ t.cur = none ∧ t.status.done = true := by
      obtain rfl | ⟨code, info, rfl⟩ := ht <;> exact ⟨rfl, rfl, rfl⟩
    by_cases hi : i = .compare
    · exact .inl ⟨hi ▸ hc, hu'.2⟩
    · exact absurd (hu'.1.trans (hu.equal hi)) hne
  · exact .inr hr

/-- Completion, with or without an error, writes no bank. -/
theorem completes_banks {u t : State} (ht : t = u.complete ∨ ∃ code info, t = u.completeError code info) (b : Bank) :
    t.table b = u.table b ∧ t.info b = u.info b := by
  obtain rfl | ⟨code, info, rfl⟩ := ht <;> cases b <;> exact ⟨rfl, rfl⟩

/-- The schedule is no part of a bank. -/
theorem State.withSchedule_banks (s : State) (rest : List Turn) (b : Bank) :
    ({ s with schedule := rest } : State).table b = s.table b ∧
      ({ s with schedule := rest } : State).info b = s.info b := by
  cases b <;> exact ⟨rfl, rfl⟩

/-- Settles O58: each rule's frame names the only bank it can write, and no rule clears VALID. -/
theorem bankOnlyByItsCommands : Obligations.BankOnlyByItsCommands := by
  unfold Obligations.BankOnlyByItsCommands
  intro s t b h hr
  obtain hs | ⟨i, rest, hc, h⟩ | hr' := step_sameBanks h
  · rw [hs.table, hs.info]
    exact ⟨by simp, id⟩
  · obtain ⟨u, -, hu, ht⟩ := exec_completes (cmdRule_frame i _) h
    obtain ⟨htab, hinfo⟩ := completes_banks ht b
    obtain ⟨hstab, hsinfo⟩ := s.withSchedule_banks rest b
    rw [htab, hinfo, ← hstab, ← hsinfo, hc]
    refine ⟨fun hne => ?_, hu.valid b⟩
    by_contra hi
    rw [not_or] at hi
    obtain ⟨ht', hi'⟩ := hu.bank b (fun e => hi.1 (congrArg some e)) fun e => hi.2 (congrArg some e)
    exact hne.elim (· ht') (· hi')
  · exact absurd hr' hr

end Sys2Proof.Machine

namespace Sys2Proof.Machine

/-! ## The present pairs and their order (R240, R243) -/

theorem mem_presentPairs {k : Nat} {lens : List Nat} {s l : Nat} :
    (s, l) ∈ presentPairs k lens ↔ k ≤ s ∧ lens[s - k]? = some l ∧ l ≠ 0 := by
  induction lens generalizing k with
  | nil => simp [presentPairs]
  | cons x xs ih =>
    have tail : (s, l) ∈ presentPairs (k + 1) xs ↔ k < s ∧ (x :: xs)[s - k]? = some l ∧ l ≠ 0 := by
      rw [ih]
      refine and_congr_right fun h => ?_
      rw [show s - k = s - (k + 1) + 1 by omega, List.getElem?_cons_succ]
    rw [presentPairs]
    split
    · rw [tail]
      rcases Nat.lt_trichotomy k s with h | h | h
      · simp [h, h.le]
      · simp [h]; omega
      · simp [h.not_gt, h.not_ge]
    · rw [List.mem_cons, tail, Prod.mk.injEq]
      rcases Nat.lt_trichotomy k s with h | h | h
      · simp [h, h.le, h.ne']
      · simp [h, eq_comm (a := l)]; omega
      · simp [h.not_gt, h.not_ge, h.ne]

theorem presentPairs_pairwise (k : Nat) (lens : List Nat) : (presentPairs k lens).Pairwise (fun x y => x.1 < y.1) := by
  induction lens generalizing k with
  | nil => exact .nil
  | cons x xs ih =>
    rw [presentPairs]
    split
    · exact ih (k + 1)
    · exact .cons (fun _ hy => (mem_presentPairs.mp hy).1) (ih (k + 1))

theorem mem_sortedPairs {lens : List Nat} {s l : Nat} : (s, l) ∈ sortedPairs lens ↔ lens[s]? = some l ∧ l ≠ 0 := by
  rw [sortedPairs, List.mem_insertionSort, mem_presentPairs]
  simp

theorem sortedPairs_symbols_ne (lens : List Nat) : (sortedPairs lens).Pairwise (fun x y => x.1 ≠ y.1) :=
  ((List.perm_insertionSort _ _).pairwise_iff fun h => h.symm).mpr ((presentPairs_pairwise 0 lens).imp Nat.ne_of_lt)

/-- The order of R243 with the symbols told apart: length descending, among equal lengths symbol ascending. -/
theorem sortedPairs_pairwise (lens : List Nat) :
    (sortedPairs lens).Pairwise (fun x y => y.2 < x.2 ∨ (x.2 = y.2 ∧ x.1 < y.1)) := by
  have iff : ∀ x y, codeOrder x y = true ↔ y.2 < x.2 ∨ (x.2 = y.2 ∧ x.1 ≤ y.1) := by simp [codeOrder]
  have htrans : IsTrans (Nat × Nat) (fun x y => codeOrder x y = true) :=
    ⟨fun x y z => by simp only [iff]; omega⟩
  have htotal : Std.Total (fun x y : Nat × Nat => codeOrder x y = true) := ⟨fun x y => by simp only [iff]; omega⟩
  have hord : (sortedPairs lens).Pairwise (fun x y => codeOrder x y = true) := List.pairwise_insertionSort _ _
  refine (hord.and (sortedPairs_symbols_ne lens)).imp fun h => ?_
  have := (iff _ _).mp h.1
  omega

/-! ## The walk of the assigner (R244 to R246) -/

theorem cwOf_of_isEntry {t : List Code} {s l c : Nat} (h : isEntry t s l c) : cwOf t s = c := by
  obtain ⟨e, he, -, rfl⟩ := h
  simp [cwOf, List.getD_eq_getElem?_getD, he]

/-- The codeword of pair `y` is that of pair `x` plus 1, divided exactly by 2 to the drop in length (R245, R246). -/
def follows (t : List Code) (x y : Nat × Nat) : Prop :=
  y.2 ≤ x.2 ∧ cwOf t y.1 * 2 ^ (x.2 - y.2) = cwOf t x.1 + 1

/-- A pair has its entry in the table, with a codeword that fits its length. -/
def entered (t : List Code) (x : Nat × Nat) : Prop := isEntry t x.1 x.2 (cwOf t x.1) ∧ cwOf t x.1 < 2 ^ x.2

/-- One pair of a walk that ends well. -/
theorem assignWalk_cons {s l : Nat} {ps : List (Nat × Nat)} {a : Assigner} {t : List Code}
    (h : assignWalk ((s, l) :: ps) a = .ok t) :
    ∃ c, c * 2 ^ (a.pl - l) = a.pc + 1 ∧ c < 2 ^ l ∧
      assignWalk ps ⟨c, l, a.staging.set s ⟨BitVec.ofNat 32 c, BitVec.ofNat 8 l⟩⟩ = .ok t := by
  simp only [assignWalk] at h
  split at h
  · cases h
  split at h
  · cases h
  refine ⟨(a.pc + 1) >>> (a.pl - l), ?_, by omega, h⟩
  rw [Nat.shiftRight_eq_div_pow]
  exact Nat.div_mul_cancel (Nat.dvd_of_mod_eq_zero (by omega))

/-- The walk writes the entries of its pairs only. -/
theorem assignWalk_untouched {ps : List (Nat × Nat)} {a : Assigner} {t : List Code} (h : assignWalk ps a = .ok t)
    {j : Nat} (hj : ∀ p ∈ ps, p.1 ≠ j) : t[j]? = a.staging[j]? := by
  induction ps generalizing a with
  | nil => cases h; rfl
  | cons p ps ih =>
    obtain ⟨c, -, -, h⟩ := assignWalk_cons h
    obtain ⟨hp, hps⟩ := List.forall_mem_cons.mp hj
    rw [ih h hps, List.getElem?_set_ne hp]

theorem assignWalk_length {ps : List (Nat × Nat)} {a : Assigner} {t : List Code} (h : assignWalk ps a = .ok t) :
    t.length = a.staging.length := by
  induction ps generalizing a with
  | nil => cases h; rfl
  | cons p ps ih =>
    obtain ⟨c, -, -, h⟩ := assignWalk_cons h
    rw [ih h, List.length_set]

/-- The order of a walk's pairs, as far as the walk needs it: no symbol twice, lengths falling. -/
abbrev walkOrder (x y : Nat × Nat) : Prop := x.1 ≠ y.1 ∧ y.2 ≤ x.2

/-- From a pair that is entered, with the previous codeword and length its own, each pair of the walk follows the one
before it and is entered. -/
theorem assignWalk_chain {ps : List (Nat × Nat)} {a : Assigner} {t : List Code} {s : Nat}
    (h : assignWalk ps a = .ok t) (ho : ((s, a.pl) :: ps).Pairwise walkOrder) (hl : a.pl ≤ 32)
    (hps : ∀ p ∈ ps, p.1 < a.staging.length) (hs : isEntry a.staging s a.pl a.pc) (hc : a.pc < 2 ^ a.pl) :
    ((s, a.pl) :: ps).IsChain (follows t) ∧ ∀ p ∈ (s, a.pl) :: ps, entered t p := by
  have hkept : isEntry t s a.pl a.pc := by
    unfold isEntry
    rwa [assignWalk_untouched h fun p hp => ((List.pairwise_cons.mp ho).1 p hp).1.symm]
  have hentered : entered t (s, a.pl) := by
    unfold entered
    rw [cwOf_of_isEntry hkept]
    exact ⟨hkept, hc⟩
  induction ps generalizing a s with
  | nil => exact ⟨.singleton _, by simpa using hentered⟩
  | cons p ps ih =>
    obtain ⟨s', l⟩ := p
    obtain ⟨c, hmul, hfit, h'⟩ := assignWalk_cons h
    obtain ⟨hhead, htail⟩ := List.pairwise_cons.mp ho
    obtain ⟨-, hle⟩ : s ≠ s' ∧ l ≤ a.pl := hhead _ List.mem_cons_self
    obtain ⟨hs', hps'⟩ := List.forall_mem_cons.mp hps
    have hc32 : c < 2 ^ 32 := hfit.trans_le (Nat.pow_le_pow_right (by decide) (hle.trans hl))
    have hset : isEntry (a.staging.set s' ⟨BitVec.ofNat 32 c, BitVec.ofNat 8 l⟩) s' l c :=
      ⟨_, List.getElem?_set_self hs', by simp; omega, by simpa using hc32⟩
    have hkept' : isEntry t s' l c := by
      unfold isEntry
      rwa [assignWalk_untouched h' fun p hp => ((List.pairwise_cons.mp htail).1 p hp).1.symm]
    obtain ⟨hchain, hall⟩ := ih (a := ⟨c, l, _⟩) h' htail (by dsimp only; omega)
      (by simpa using hps') hset hfit hkept' ⟨by rwa [cwOf_of_isEntry hkept'], by rwa [cwOf_of_isEntry hkept']⟩
    refine ⟨List.isChain_cons_cons.mpr ⟨⟨hle, ?_⟩, hchain⟩, List.forall_mem_cons.mpr ⟨hentered, hall⟩⟩
    rw [cwOf_of_isEntry hkept, cwOf_of_isEntry hkept', hmul]

/-! ## The canonical table (R244 to R247) -/

theorem length_emptyTable : emptyTable.length = 256 := List.length_replicate

section
variable {lens : List Nat} {tab : List Code} {m : Nat}

/-- A canonical assignment: of no present symbol, or a walk from the first pair, whose codeword is 0. -/
theorem canonical_cases (h : canonical lens = .ok (tab, m)) :
    (sortedPairs lens = [] ∧ tab = emptyTable ∧ m = 0) ∨
    (∃ s l rest, sortedPairs lens = (s, l) :: rest ∧ m = l ∧
      assignWalk rest ⟨0, l, emptyTable.set s ⟨0#32, BitVec.ofNat 8 l⟩⟩ = .ok tab) := by
  unfold canonical at h
  split at h
  · cases h; exact .inl ⟨‹_›, rfl, rfl⟩
  · split at h
    · cases h
    · cases h; exact .inr ⟨_, _, _, ‹_›, rfl, ‹_›⟩

theorem canonical_length (h : canonical lens = .ok (tab, m)) : tab.length = 256 := by
  obtain ⟨-, rfl, -⟩ | ⟨s, l, rest, -, -, hw⟩ := canonical_cases h
  · exact length_emptyTable
  · rw [assignWalk_length hw, List.length_set, length_emptyTable]

/-- An absent symbol keeps the entry (0, 0) (R240). -/
theorem canonical_absent (h : canonical lens = .ok (tab, m)) {j : Nat} (hj : j < 256) (h0 : lens.getD j 0 = 0) :
    tab[j]? = some absentCode := by
  have hempty : emptyTable[j]? = some absentCode := List.getElem?_replicate_of_lt hj
  have hne : ∀ p ∈ sortedPairs lens, p.1 ≠ j := by
    rintro ⟨s, l⟩ hp rfl
    obtain ⟨hs, hl⟩ := mem_sortedPairs.mp hp
    rw [List.getD_eq_getElem?_getD, hs] at h0
    exact hl h0
  obtain ⟨-, rfl, -⟩ | ⟨s, l, rest, hp, -, hw⟩ := canonical_cases h
  · exact hempty
  · rw [hp, List.forall_mem_cons] at hne
    rw [assignWalk_untouched hw hne.2, List.getElem?_set_ne hne.1, hempty]

variable (hlen : lens.length = 256) (h32 : ∀ l ∈ lens, l ≤ 32) (h : canonical lens = .ok (tab, m))
include hlen h32 h

theorem canonical_chain :
    (sortedPairs lens).IsChain (follows tab) ∧ ∀ p ∈ sortedPairs lens, entered tab p := by
  obtain ⟨hp, -, -⟩ | ⟨s, l, rest, hp, -, hw⟩ := canonical_cases h
  · rw [hp]; exact ⟨.nil, nofun⟩
  have hmem : ∀ p ∈ (s, l) :: rest, p.1 < 256 ∧ p.2 ≤ 32 ∧ p.2 ≠ 0 := by
    rw [← hp]
    rintro ⟨s', l'⟩ hp'
    obtain ⟨hs, hl⟩ := mem_sortedPairs.mp hp'
    obtain ⟨hlt, -⟩ := List.getElem?_eq_some_iff.mp hs
    exact ⟨hlen ▸ hlt, h32 _ (List.mem_of_getElem? hs), hl⟩
  have hord : ((s, l) :: rest).Pairwise walkOrder := by
    rw [← hp]
    exact ((sortedPairs_symbols_ne lens).and (sortedPairs_pairwise lens)).imp fun h => ⟨h.1, by omega⟩
  obtain ⟨⟨hs, hl, hl0⟩, hrest⟩ := List.forall_mem_cons.mp hmem
  rw [hp]
  refine assignWalk_chain hw hord hl (fun p hp' => ?_)
    ⟨_, List.getElem?_set_self (length_emptyTable ▸ hs), by simp; omega, rfl⟩ (Nat.two_pow_pos l)
  rw [List.length_set, length_emptyTable]
  exact (hrest p hp').1

/-- Every symbol's entry: its own length, and a codeword that fits it. -/
theorem canonical_entry {j : Nat} (hj : j < 256) : entered tab (j, lens.getD j 0) := by
  by_cases h0 : lens.getD j 0 = 0
  · have he : isEntry tab j 0 0 := ⟨absentCode, canonical_absent h hj h0, rfl, rfl⟩
    rw [h0]
    exact ⟨by rwa [cwOf_of_isEntry he], by simp [cwOf_of_isEntry he]⟩
  · refine (canonical_chain hlen h32 h).2 _ (mem_sortedPairs.mpr ⟨?_, h0⟩)
    have hj' : j < lens.length := by omega
    simp [hj']

theorem canonical_tableLens : tableLens tab = lens := by
  refine List.ext_getElem? fun j => ?_
  by_cases hj : j < 256
  · obtain ⟨⟨e, he, hl, -⟩, -⟩ := canonical_entry hlen h32 h hj
    have hj' : j < lens.length := by omega
    simpa [tableLens, he, hj'] using hl
  · have ht := canonical_length h
    rw [List.getElem?_eq_none (by simp [tableLens]; omega), List.getElem?_eq_none (by omega)]

omit hlen in
/-- The maximum length is one of the lengths, or 0 (R247). -/
theorem canonical_maxlen_le : m ≤ 32 := by
  obtain ⟨-, -, rfl⟩ | ⟨s, l, rest, hp, rfl, -⟩ := canonical_cases h
  · omega
  · have hmem : (s, m) ∈ sortedPairs lens := hp ▸ List.mem_cons_self
    exact h32 m (List.mem_of_getElem? (mem_sortedPairs.mp hmem).1)

theorem canonical_codeword_fits {e : Code} (he : e ∈ tab) : e.cw.toNat < 2 ^ e.len.toNat := by
  obtain ⟨j, hj, rfl⟩ := List.getElem_of_mem he
  obtain ⟨⟨e, he, hl, hc⟩, hfit⟩ := canonical_entry hlen h32 h (canonical_length h ▸ hj)
  rw [List.getElem?_eq_getElem hj, Option.some.injEq] at he
  rw [he, hl, hc]
  exact hfit

end

/-! ## No codeword begins another (R52) -/

/-- The codewords of `x` end, on the binary tree of R316, before those of `y` begin. -/
def codeBefore (t : List Code) (x y : Nat × Nat) : Prop :=
  y.2 ≤ x.2 ∧ cwOf t x.1 + 1 ≤ cwOf t y.1 * 2 ^ (x.2 - y.2)

theorem codeBefore_trans {t : List Code} {x y z : Nat × Nat} (hxy : codeBefore t x y) (hyz : codeBefore t y z) :
    codeBefore t x z := by
  obtain ⟨hl, hc⟩ := hxy
  obtain ⟨hl', hc'⟩ := hyz
  refine ⟨hl'.trans hl, ?_⟩
  calc cwOf t x.1 + 1
    _ ≤ cwOf t y.1 * 2 ^ (x.2 - y.2) := hc
    _ ≤ cwOf t z.1 * 2 ^ (y.2 - z.2) * 2 ^ (x.2 - y.2) := Nat.mul_le_mul_right _ (by omega)
    _ = cwOf t z.1 * 2 ^ (x.2 - z.2) := by rw [Nat.mul_assoc, ← Nat.pow_add]; congr 2; omega

theorem canonical_pairwise {lens : List Nat} {tab : List Code} {m : Nat} (hlen : lens.length = 256)
    (h32 : ∀ l ∈ lens, l ≤ 32) (h : canonical lens = .ok (tab, m)) : (sortedPairs lens).Pairwise (codeBefore tab) := by
  have : Trans (codeBefore tab) (codeBefore tab) (codeBefore tab) := ⟨codeBefore_trans⟩
  exact ((canonical_chain hlen h32 h).1.imp fun _ _ hf => ⟨hf.1, hf.2.ge⟩).pairwise

/-- A codeword that begins another is its leading bits. -/
theorem shiftRight_of_codeString_prefix {e f : Code} (he : e.cw.toNat < 2 ^ e.len.toNat)
    (hf : f.cw.toNat < 2 ^ f.len.toNat) (h : codeString e <+: codeString f) :
    e.len.toNat ≤ f.len.toNat ∧ f.cw.toNat >>> (f.len.toNat - e.len.toNat) = e.cw.toNat := by
  have hle : e.len.toNat ≤ f.len.toNat := by simpa [codeString] using h.length_le
  refine ⟨hle, Nat.eq_of_testBit_eq fun k => ?_⟩
  rw [Nat.testBit_shiftRight]
  rcases Nat.lt_or_ge k e.len.toNat with hk | hk
  · have hbit := h.getElem (i := e.len.toNat - 1 - k) (by simp [codeString]; omega)
    simp only [codeString, List.getElem_map, List.getElem_range, BitVec.getLsbD] at hbit
    rw [show e.len.toNat - 1 - (e.len.toNat - 1 - k) = k by omega,
      show f.len.toNat - 1 - (e.len.toNat - 1 - k) = f.len.toNat - e.len.toNat + k by omega] at hbit
    exact hbit.symm
  · rw [Nat.testBit_lt_two_pow (he.trans_le (Nat.pow_le_pow_right (by decide) hk)),
      Nat.testBit_lt_two_pow (hf.trans_le (Nat.pow_le_pow_right (by decide) (by omega)))]

/-- Of two codewords one before the other neither is the leading bits of the other. -/
theorem not_codeString_prefix_of_before {e f : Code} (he : e.cw.toNat < 2 ^ e.len.toNat)
    (hf : f.cw.toNat < 2 ^ f.len.toNat) (hl : f.len.toNat ≤ e.len.toNat)
    (hb : e.cw.toNat + 1 ≤ f.cw.toNat * 2 ^ (e.len.toNat - f.len.toNat)) :
    ¬ codeString e <+: codeString f ∧ ¬ codeString f <+: codeString e := by
  refine ⟨fun h => ?_, fun h => ?_⟩
  · obtain ⟨hle, hs⟩ := shiftRight_of_codeString_prefix he hf h
    rw [show e.len.toNat - f.len.toNat = 0 by omega, Nat.pow_zero] at hb
    rw [show f.len.toNat - e.len.toNat = 0 by omega, Nat.shiftRight_zero] at hs
    omega
  · obtain ⟨-, hs⟩ := shiftRight_of_codeString_prefix hf he h
    rw [Nat.shiftRight_eq_div_pow] at hs
    have := Nat.div_mul_le_self e.cw.toNat (2 ^ (e.len.toNat - f.len.toNat))
    rw [hs] at this
    omega

theorem canonical_prefixFree {lens : List Nat} {tab : List Code} {m : Nat} (hlen : lens.length = 256)
    (h32 : ∀ l ∈ lens, l ≤ 32) (h : canonical lens = .ok (tab, m)) : prefixFree tab := by
  have hfits : ∀ i (hi : i < tab.length), tab[i].cw.toNat < 2 ^ tab[i].len.toNat := fun i hi =>
    canonical_codeword_fits hlen h32 h (List.getElem_mem hi)
  have hpair : ∀ i (hi : i < tab.length), tab[i].len ≠ 0#8 → (i, tab[i].len.toNat) ∈ sortedPairs lens := by
    intro i hi h0
    refine mem_sortedPairs.mpr ⟨?_, fun e => h0 (BitVec.eq_of_toNat_eq e)⟩
    rw [← canonical_tableLens hlen h32 h]
    simp [tableLens, hi]
  have hcw : ∀ i (hi : i < tab.length), cwOf tab i = tab[i].cw.toNat := fun i hi => by
    simp [cwOf, hi]
  have apart : ∀ i j (hi : i < tab.length) (hj : j < tab.length),
      codeBefore tab (i, tab[i].len.toNat) (j, tab[j].len.toNat) →
      ¬ codeString tab[i] <+: codeString tab[j] ∧ ¬ codeString tab[j] <+: codeString tab[i] := by
    rintro i j hi hj ⟨hl, hb⟩
    rw [hcw i hi, hcw j hj] at hb
    exact not_codeString_prefix_of_before (hfits i hi) (hfits j hj) hl hb
  intro i j hi hj hij hi0 hj0
  have : Std.Symm (fun x y => codeBefore tab x y ∨ codeBefore tab y x) := ⟨fun _ _ => Or.symm⟩
  have hsymm : (sortedPairs lens).Pairwise (fun x y => codeBefore tab x y ∨ codeBefore tab y x) :=
    (canonical_pairwise hlen h32 h).imp Or.inl
  obtain hb | hb := hsymm.forall (hpair i hi hi0) (hpair j hj hj0)
    (by simp [hij])
  · exact (apart i j hi hj hb).1
  · exact (apart j i hj hi hb).2

/-- Settles O35: the codewords follow one another on the binary tree, each within its length. -/
theorem canonicalIsPrefixFree : Obligations.CanonicalIsPrefixFree := by
  unfold Obligations.CanonicalIsPrefixFree
  intro lens tab m hlen h32 h
  exact ⟨canonical_prefixFree hlen h32 h, fun e => canonical_codeword_fits hlen h32 h⟩

end Sys2Proof.Machine

namespace Sys2Proof.Machine

/-! ## VALID banks (R52) -/

theorem forall_lt_of_tooLong {maxLen : Nat} {lens : List Nat} (h : tooLong maxLen lens = none) :
    ∀ l ∈ lens, l < maxLen := by
  simpa [tooLong, List.findIdx?_eq_none_iff] using h

/-- A table the canonical assignment gives for lengths below MAXLEN is a VALID bank in order (R248). -/
theorem setBank_bankOk {s : State} (hp : s.params.wf = true) {lens : List Nat} {tab : List Code} {m : Nat}
    (hlen : lens.length = 256) (hmax : ∀ l ∈ lens, l < s.params.maxLen) (h : canonical lens = .ok (tab, m)) (b : Bank) :
    (s.setBank b tab ⟨BitVec.ofNat 8 m, true⟩).bankOk b := by
  have h33 : s.params.maxLen ≤ 33 := by
    simp only [Params.wf, Bool.and_eq_true, decide_eq_true_eq] at hp
    omega
  have h32 : ∀ l ∈ lens, l ≤ 32 := fun l hl => by have := hmax l hl; omega
  have hm : (BitVec.ofNat 8 m).toNat = m := by
    have := canonical_maxlen_le h32 h
    rw [BitVec.toNat_ofNat]
    omega
  intro _
  rw [State.setBank_table_self, State.setBank_info_self, State.setBank_params, canonical_tableLens hlen h32 h, hm]
  exact ⟨canonical_length h, hmax, h⟩

/-- What the banks' invariant reads. -/
theorem State.bankOk_congr {s t : State} {b : Bank} (h : s.bankOk b) (hp : t.params = s.params)
    (ht : t.table b = s.table b) (hi : t.info b = s.info b) : t.bankOk b := by
  unfold State.bankOk
  rwa [hp, ht, hi]

theorem State.SameBanks.bankOk {s t : State} (h : s.SameBanks t) {b : Bank} (hb : s.bankOk b) : t.bankOk b :=
  State.bankOk_congr hb h.params (h.table b) (h.info b)

theorem RuleFrame.bankOk {i : Instr} {s u : State} (h : RuleFrame i s u) {b : Bank} (ha : i ≠ .assign b)
    (hb : i ≠ .build b) (hs : s.bankOk b) : u.bankOk b :=
  State.bankOk_congr hs h.params (h.bank b ha hb).1 (h.bank b ha hb).2

theorem assignCmd_bankOk {s : State} (hp : s.params.wf = true) (hm : s.mem.wf) {b : Bank} (hb : s.bankOk b) :
    (assignCmd b s).leaves (State.bankOk · b) := by
  obtain ⟨-, e⟩ | ⟨-, ⟨f, -, e⟩ | ⟨bytes, hr, ⟨sym, -, e⟩ | ⟨hl, ⟨code, sym, -, e⟩ | ⟨tab, m, hc, e⟩⟩⟩⟩ :=
    assignCmd_cases b s <;> rw [e]
  · exact hb
  · trivial
  · exact hb
  · exact hb
  · have hlen : (bytes.map BitVec.toNat).length = 256 := by
      rw [List.length_map]
      exact ((readBytes_ok hm .lenBuf 0 alphabetSize bytes).mp hr).1
    exact setBank_bankOk hp hlen (forall_lt_of_tooLong hl) hc b

theorem buildCmd_bankOk {s : State} (hp : s.params.wf = true) (hm : s.mem.wf) {b : Bank} (hb : s.bankOk b) :
    (buildCmd b s).leaves (State.bankOk · b) := by
  obtain ⟨-, e⟩ | ⟨f, -, e⟩ | ⟨-, data, -, e⟩ := buildCmd_cases b s <;> rw [e]
  · exact hb
  · trivial
  · let s₁ : State := { s with freq := countList data }
    have hb₁ : (treeCmd s₁).bankOk b := State.bankOk_congr hb rfl (by cases b <;> rfl) (by cases b <;> rfl)
    exact assignCmd_bankOk (s := treeCmd s₁) hp (treeCmd_wf (s := s₁) hm) hb₁

theorem cmdRule_bankOk {s : State} (hp : s.params.wf = true) (hm : s.mem.wf) (i : Instr) {b : Bank} (hb : s.bankOk b) :
    (cmdRule i s).leaves (State.bankOk · b) := by
  by_cases ha : i = .assign b
  · exact ha ▸ assignCmd_bankOk hp hm hb
  by_cases hbd : i = .build b
  · exact hbd ▸ buildCmd_bankOk hp hm hb
  exact CmdResult.leaves_mono (fun u hu => hu.bankOk ha hbd hb) (cmdRule_frame i s)

theorem runTurn_bankOk {s t : State} (hi : s.Inv) {turn : Turn} (h : runTurn turn s = .next t) (b : Bank) :
    t.bankOk b := by
  obtain hs | ⟨i, -, h⟩ | ⟨-, rfl⟩ := runTurn_sameBanks h
  · exact hs.bankOk (hi.banks b)
  · obtain ⟨u, hu, -, ht⟩ := exec_completes (cmdRule_bankOk hi.params hi.mem.1 i (hi.banks b)) h
    have hpar : t.params = u.params := by obtain rfl | ⟨code, info, rfl⟩ := ht <;> rfl
    exact State.bankOk_congr hu hpar (completes_banks ht b).1 (completes_banks ht b).2
  · exact State.bankOk_congr (resetOf_bankOk s.params b) rfl (by cases b <;> rfl) (by cases b <;> rfl)

/-- Settles O55: only ASSIGN's commit writes a bank, and the canonical table has the lengths it was made from. -/
theorem stepKeepsBanks : Obligations.StepKeepsBanks := by
  unfold Obligations.StepKeepsBanks
  intro s t hi h
  obtain ⟨rest, turn, h⟩ := step_runTurn h
  exact runTurn_bankOk (s := { s with schedule := rest }) (hi.withSchedule rest) h

end Sys2Proof.Machine

namespace Sys2Proof.Machine

/-! ## What a DECODE reads is what it does not write (R98) -/

theorem readElem_congr {m m' : Memory} {a : Arr} {i : Nat}
    (h : ∀ x, a.base + 4 * i ≤ x → x < a.base + 4 * i + 4 → m'.read x = m.read x) :
    m'.readElem a i = m.readElem a i := by
  unfold Memory.readElem Memory.readWord
  rw [h _ (by omega) (by omega), h _ (by omega) (by omega), h _ (by omega) (by omega), h _ (by omega) (by omega)]

theorem readElems_congr {m m' : Memory} {a : Arr} {i n : Nat}
    (h : ∀ k, k < n → m'.readElem a (i + k) = m.readElem a (i + k)) : m'.readElems a i n = m.readElems a i n := by
  induction n generalizing i with
  | zero => rfl
  | succ n ih =>
    have hrest : m'.readElems a (i + 1) n = m.readElems a (i + 1) n := ih fun k hk => by
      rw [show i + 1 + k = i + (k + 1) by omega]
      exact h (k + 1) (by omega)
    rw [Memory.readElems, Memory.readElems, hrest, show m'.readElem a i = m.readElem a i from h 0 (by omega)]

/-- Addresses no DECODE writes: below the result arrays, or between them and OUT_BUF (R81). -/
def decodeReadOnly (x : Nat) : Prop :=
  x < Arr.base .blkStatus ∨ (Arr.base .blkEnd + Arr.window .blkEnd ≤ x ∧ x < Arr.base .outBuf)

/-- The two kinds of write of a DECODE leave the addresses it does not write as in `m₀`. -/
theorem decode_keeps_readOnly {env : DecodeEnv} (hn : env.counts.length ≤ 4096) (m₀ : Memory) :
    env.Keeps (fun m => ∀ x, decodeReadOnly x → m.read x = m₀.read x) where
  ended r w m hw hm x hx := by
    have hb : w.block < 4096 := hw.1.trans_le hn
    rw [read_endBlock, hm x hx]
    simp only [decodeReadOnly, Arr.base, Arr.window] at hx
    simp only [List.forall_mem_cons, List.not_mem_nil, false_imp_iff, implies_true, and_true, Arr.base]
    omega
  emitted w m b _ _ hm x hx := by
    rw [read_setRange_of_outside, hm x hx]
    simp only [decodeReadOnly, Arr.base, Arr.window] at hx
    simp only [Arr.base]
    omega

/-- An ended block leaves the BLK_STATUS of every other block alone. -/
theorem readElem_blkStatus_endBlock {r : BlockEnd} {w : Walk} {m : Memory} {i : Nat} (hi : i < 4096)
    (hne : i ≠ w.block) :
    (endBlock r w m).readElem .blkStatus i = m.readElem .blkStatus i := by
  refine readElem_congr fun x hl hu => read_endBlock ?_
  simp only [Arr.base] at hl hu
  simp only [List.forall_mem_cons, List.not_mem_nil, false_imp_iff, implies_true, and_true, Arr.base]
  omega

/-- A finished block stays finished. -/
theorem decode_keeps_finished {env : DecodeEnv} (hn : env.counts.length ≤ 4096) {i : Nat} (hi : i < 4096) :
    env.Keeps (blockFinished · i) where
  ended r w m hw hm := by
    by_cases hne : i = w.block
    · exact ⟨r, hne ▸ (endBlock_entries r w m (hw.1.trans_le hn)).1⟩
    · unfold blockFinished
      rwa [readElem_blkStatus_endBlock hi hne]
  emitted w m b _ _ hm := by
    unfold blockFinished
    rwa [readElem_congr fun x _ hu => read_setRange_of_outside ?_]
    simp only [Arr.base] at hu ⊢
    omega

/-! ## One iteration of a walk (R306) -/

/-- An iteration that goes on has taken one bit below total_bits: it emits a symbol, or its codeword grows by it. -/
theorem iterate_running {env : DecodeEnv} {w w' : Walk} {m m' : Memory} (h : env.iterate w m = .running w' m') :
    w.p < env.totalBits ∧ w.k < env.count w.block ∧
    ((∃ sym : Byte, w' = { w with p := w.p + 1, c := 0, l := 0, k := w.k + 1, q := w.p + 1 } ∧
        m' = m.setRange (Arr.base .outBuf + (w.base + w.k)) [sym]) ∨
     (∃ bit, bit < 2 ∧ w.l + 1 < env.maxlen ∧ w' = { w with p := w.p + 1, c := 2 * w.c + bit, l := w.l + 1 } ∧
        m' = m)) := by
  obtain ⟨-, e⟩ | ⟨-, -, e⟩ | ⟨hk, hp, ⟨-, e⟩ | ⟨bit, hbit, e⟩⟩ := iterate_cases env w m <;> rw [e] at h
  · cases h
  · cases h
  · cases h
  refine ⟨hp, hk, ?_⟩
  obtain ⟨sym, -, e⟩ | ⟨-, -, e⟩ | ⟨-, hl, e⟩ := takeBit_cases env w m bit <;> rw [e] at h
  · injection h with hw hm
    exact .inl ⟨_, hw.symm, hm.symm⟩
  · cases h
  · injection h with hw hm
    exact .inr ⟨bit, streamBit_lt hbit, hl, hw.symm, hm.symm⟩

theorem iterate_running_walkOk {env : DecodeEnv} {w w' : Walk} {m m' : Memory} (hw : env.walkOk w)
    (hbits : env.totalBits < 2 ^ 32) (h : env.iterate w m = .running w' m') : env.walkOk w' ∧ w'.block = w.block := by
  obtain ⟨hb, hbase, hk, hp, hq, hc, hl⟩ := hw
  obtain ⟨hp', hk', ⟨sym, rfl, -⟩ | ⟨bit, hbit, hl', rfl, -⟩⟩ := iterate_running h
  · exact ⟨⟨hb, hbase, hk', by dsimp only; omega, le_rfl, by simp, .inl rfl⟩, rfl⟩
  · refine ⟨⟨hb, hbase, hk, by dsimp only; omega, by dsimp only; omega, ?_, .inr hl'⟩, rfl⟩
    rw [Nat.pow_succ]
    dsimp only
    omega

/-- A walk begins in order: at its block's offset with nothing read and nothing emitted. -/
theorem startWalk_walkOk {env : DecodeEnv} {i : Nat} {m : Memory} {w : Walk} (hi : i < env.counts.length)
    (h : env.startWalk i m = .ok w) : env.walkOk w ∧ w.block = i := by
  unfold DecodeEnv.startWalk at h
  split at h
  · cases h
  · injection h with h
    subst h
    exact ⟨⟨hi, rfl, Nat.zero_le _, BitVec.isLt _, le_rfl, by simp, .inl rfl⟩, rfl⟩

/-! ## The blocks in the engines' hands -/

/-- Setting an engine changes its own block among those in hand, and no other. -/
theorem activeBlocks_set_perm {es : List (Option Walk)} {e : Nat} (he : e < es.length) (x : Option Walk) :
    (activeBlocks (es.set e x)).Perm ((x.map Walk.block).toList ++ activeBlocks (es.set e none)) := by
  simp only [activeBlocks, List.set_eq_take_append_cons_drop, if_pos he, List.filterMap_append]
  cases x <;> simp

/-- Setting an engine to what it is changes nothing. -/
theorem set_engine_self {es : List (Option Walk)} {e : Nat} {x : Option Walk} (he : es[e]? = some x) :
    es.set e x = es := by
  obtain ⟨hlt, rfl⟩ := List.getElem?_eq_some_iff.mp he
  exact List.set_getElem_self hlt

/-- The block of an engine's walk, beside those of the other engines. -/
theorem activeBlocks_perm {es : List (Option Walk)} {e : Nat} {w : Walk} (he : es[e]? = some (some w)) :
    (activeBlocks es).Perm (w.block :: activeBlocks (es.set e none)) := by
  obtain ⟨hlt, -⟩ := List.getElem?_eq_some_iff.mp he
  have hp := activeBlocks_set_perm hlt (some w)
  rwa [set_engine_self he] at hp


/-! ## The engines' invariant (R64, R305, R373) -/

theorem State.allIdle.activeBlocks {s : State} (h : s.allIdle) : activeBlocks s.engines = [] :=
  List.filterMap_eq_nil_iff.mpr fun e he => by rw [h.1 e he]; rfl

/-- At the start of a DECODE the engines are idle and no block is taken. -/
theorem State.allIdle.decodingOk {s : State} (h : s.allIdle) (env : DecodeEnv) : s.decodingOk env := by
  unfold State.decodingOk
  rw [h.activeBlocks, h.2]
  exact ⟨.nil, nofun, .nil, nofun, fun w hw => absurd (h.1 _ hw) nofun, nofun⟩

/-- Idle engines are in order whatever command is in progress. -/
theorem State.allIdle.enginesOk {s : State} (h : s.allIdle) (hn : s.engines.length = s.params.numEngines) :
    s.enginesOk := by
  refine ⟨hn, ?_⟩
  split
  · split
    · exact h.decodingOk _
    · exact h
    · exact h
  · exact h

/-- Outside a DECODE the engines are idle (R373). -/
theorem State.enginesOk.allIdle {s : State} (h : s.enginesOk) (hc : ∀ b, s.cur ≠ some (.decode b)) : s.allIdle := by
  have he := h.2
  split at he
  · exact absurd ‹_› (hc _)
  · exact he

theorem enginesOk_of_decodingOk {s : State} {b : Bank} {env : DecodeEnv} (hn : s.engines.length = s.params.numEngines)
    (hc : s.cur = some (.decode b)) (hp : invocationChecks b s = .pass env) (h : s.decodingOk env) : s.enginesOk :=
  ⟨hn, by simpa only [hc, hp] using h⟩

/-- A DECODE that passes its checks has at most 4096 blocks and a stream of fewer than 2^32 bits (R12). -/
theorem checked_bounds {s : State} {b : Bank} {env : DecodeEnv} (hp : s.params.wf = true)
    (h : invocationChecks b s = .pass env) : env.counts.length ≤ 4096 ∧ env.totalBits < 2 ^ 32 := by
  refine ⟨(checked_length_le h).trans (Params.wf_bounds hp).1, ?_⟩
  obtain ⟨-, hwidth, hwords, -, -, -, -, -, -, -, hbits⟩ := invocationChecks_pass h
  simp only [Params.wf, Bool.and_eq_true, decide_eq_true_eq] at hp
  have hw : s.wordWidth.toNat ≤ 32 := by
    simp only [legalWidth, Bool.or_eq_true, beq_iff_eq] at hwidth
    omega
  have hmul : s.streamWords.toNat * s.wordWidth.toNat ≤ 262144 * 32 := Nat.mul_le_mul (by omega) hw
  omega

/-- Writes that leave what DECODE reads alone leave its checks alone (R401). -/
theorem invocationChecks_engines {s : State} {b : Bank} {env : DecodeEnv} (hp : s.params.wf = true)
    (h : invocationChecks b s = .pass env) {m : Memory} (hm : ∀ x, decodeReadOnly x → m.read x = s.mem.read x)
    (es : List (Option Walk)) (taken : List Nat) :
    invocationChecks b { s with mem := m, engines := es, taken := taken } = .pass env := by
  obtain ⟨-, -, -, hblocks, -⟩ := invocationChecks_pass h
  have hmax := (Params.wf_bounds hp).1
  rw [← h]
  refine invocationChecks_congr (by cases b <;> rfl) (by cases b <;> rfl) rfl rfl rfl rfl rfl ?_
  refine readElems_congr fun k hk => readElem_congr fun x hl hu => hm x (.inl ?_)
  simp only [Arr.base] at hl hu ⊢
  omega

section
variable {s : State} {env : DecodeEnv} {e : Nat}

theorem State.decodingOk.walkOk (h : s.decodingOk env) {w : Walk} (hw : some w ∈ s.engines) : env.walkOk w := by
  obtain ⟨-, -, -, -, hok, -⟩ := h
  exact hok w hw

/-- An idle engine takes a block that no engine has taken (R305). -/
theorem State.decodingOk.take (h : s.decodingOk env) (he : s.engines[e]? = some none) {w : Walk}
    (hw : env.walkOk w) (hnew : w.block ∉ s.taken) :
    ({ s.setEngine e (some w) with taken := w.block :: s.taken } : State).decodingOk env := by
  obtain ⟨htaken, hlt, hactive, hsub, hok, hfin⟩ := h
  obtain ⟨hlen, -⟩ := List.getElem?_eq_some_iff.mp he
  have hp : (activeBlocks (s.engines.set e (some w))).Perm (w.block :: activeBlocks s.engines) := by
    simpa [set_engine_self he] using activeBlocks_set_perm hlen (some w)
  have hmem : ∀ i, i ∈ activeBlocks (s.engines.set e (some w)) ↔ i = w.block ∨ i ∈ activeBlocks s.engines :=
    fun i => hp.mem_iff.trans List.mem_cons
  refine ⟨List.nodup_cons.mpr ⟨hnew, htaken⟩, List.forall_mem_cons.mpr ⟨hw.1, hlt⟩, ?_, ?_, ?_, ?_⟩
  · exact hp.nodup_iff.mpr (List.nodup_cons.mpr ⟨fun hin => hnew (hsub _ hin), hactive⟩)
  · intro i hi
    exact List.mem_cons.mpr (((hmem i).mp hi).imp_right (hsub i))
  · intro v hv
    obtain hv | hv := List.mem_or_eq_of_mem_set hv
    · exact hok v hv
    · exact Option.some.inj hv ▸ hw
  · intro i hi hout
    obtain ⟨hne, hout'⟩ := not_or.mp (mt (hmem i).mpr hout)
    exact hfin i (List.mem_of_ne_of_mem hne hi) hout'

/-- A walk goes on with its block; memory may change, but finished blocks stay finished. -/
theorem State.decodingOk.run (h : s.decodingOk env) {w w' : Walk} (he : s.engines[e]? = some (some w))
    (hw : env.walkOk w') (hb : w'.block = w.block) {m : Memory}
    (hm : ∀ i, i < env.counts.length → blockFinished s.mem i → blockFinished m i) :
    ({ s.setEngine e (some w') with mem := m } : State).decodingOk env := by
  obtain ⟨htaken, hlt, hactive, hsub, hok, hfin⟩ := h
  obtain ⟨hlen, -⟩ := List.getElem?_eq_some_iff.mp he
  have hp : (activeBlocks (s.engines.set e (some w'))).Perm (activeBlocks s.engines) := by
    have hset := activeBlocks_set_perm hlen (some w')
    simp only [Option.map_some, hb] at hset
    exact hset.trans (activeBlocks_perm he).symm
  refine ⟨htaken, hlt, hp.nodup_iff.mpr hactive, fun i hi => hsub i (hp.mem_iff.mp hi), fun v hv => ?_,
    fun i hi hout => ?_⟩
  · obtain hv | hv := List.mem_or_eq_of_mem_set hv
    · exact hok v hv
    · exact Option.some.inj hv ▸ hw
  · exact hm i (hlt i hi) (hfin i hi (mt hp.mem_iff.mpr hout))

/-- A block ends: it is finished, and so is every block that was; its engine is idle (R311). -/
theorem State.decodingOk.finish (h : s.decodingOk env) {w : Walk} (he : s.engines[e]? = some (some w)) {m : Memory}
    (hw : blockFinished m w.block) (hm : ∀ i, i < env.counts.length → blockFinished s.mem i → blockFinished m i) :
    ({ s.setEngine e none with mem := m } : State).decodingOk env := by
  obtain ⟨htaken, hlt, hactive, hsub, hok, hfin⟩ := h
  have hp := activeBlocks_perm he
  refine ⟨htaken, hlt, (List.nodup_cons.mp (hp.nodup_iff.mp hactive)).2,
    fun i hi => hsub i (hp.mem_iff.mpr (List.mem_cons_of_mem _ hi)), fun v hv => ?_, fun i hi hout => ?_⟩
  · obtain hv | hv := List.mem_or_eq_of_mem_set hv
    · exact hok v hv
    · cases hv
  · by_cases hne : i = w.block
    · exact hne ▸ hw
    · exact hm i (hlt i hi) (hfin i hi fun hin => hout (List.mem_of_ne_of_mem hne (hp.mem_iff.mp hin)))

end

/-- An iteration that ends its block leaves it finished. -/
theorem iterate_ended_finished {env : DecodeEnv} {w : Walk} {m m' : Memory} (hb : w.block < 4096)
    (h : env.iterate w m = .ended m') : blockFinished m' w.block := by
  have hend : ∀ r (v : Walk), v.block = w.block → blockFinished (endBlock r v m) w.block := fun r v hv =>
    ⟨r, hv ▸ (endBlock_entries r v m (hv ▸ hb)).1⟩
  obtain ⟨-, e⟩ | ⟨-, -, e⟩ | ⟨-, -, ⟨-, e⟩ | ⟨bit, -, e⟩⟩ := iterate_cases env w m <;> rw [e] at h
  · injection h with h; exact h ▸ hend _ _ rfl
  · injection h with h; exact h ▸ hend _ _ rfl
  · cases h
  obtain ⟨sym, -, e⟩ | ⟨-, -, e⟩ | ⟨-, -, e⟩ := takeBit_cases env w m bit <;> rw [e] at h
  · cases h
  · injection h with h; exact h ▸ hend _ _ rfl
  · cases h

/-- Whatever memory an iteration leaves, what DECODE reads is as before and finished blocks stay finished. -/
theorem iterate_memory {env : DecodeEnv} {w : Walk} {m m' : Memory} (hn : env.counts.length ≤ 4096) (hw : env.placed w)
    (h : (∃ w', env.iterate w m = .running w' m') ∨ env.iterate w m = .ended m') :
    (∀ x, decodeReadOnly x → m'.read x = m.read x) ∧
      ∀ i, i < env.counts.length → blockFinished m i → blockFinished m' i := by
  have keeps : ∀ {P : Memory → Prop}, env.Keeps P → P m → P m' := fun hP hm => by
    have hi := iterate_keeps hP hw hm
    obtain ⟨w', h⟩ | h := h <;> rw [h] at hi
    · exact hi.2
    · exact hi
  exact ⟨keeps (decode_keeps_readOnly hn m) fun _ _ => rfl,
    fun i hi => keeps (decode_keeps_finished hn (hi.trans_le hn))⟩

theorem engineTurn_enginesOk {s t : State} (hi : s.Inv) {e pick : Nat} (h : engineTurn e pick s = .next t) :
    t.enginesOk := by
  obtain rfl | ⟨b, env, hc, hp, h⟩ := engineTurn_cases h
  · exact hi.engines
  have hd := hi.decoding hc hp
  obtain ⟨hblocks, hbits⟩ := checked_bounds hi.params hp
  have hcount : ∀ x, (s.engines.set e x).length = s.params.numEngines := fun x =>
    List.length_set.trans hi.engines.1
  obtain ⟨w, he, hpick, hnew, hw, rfl⟩ | ⟨w, w', m, he, hr, rfl⟩ | ⟨w, m, he, hr, rfl⟩ := h
  · obtain ⟨hok, rfl⟩ := startWalk_walkOk hpick hw
    refine enginesOk_of_decodingOk (hcount _) hc (invocationChecks_engines hi.params hp (fun _ _ => rfl) _ _) ?_
    exact hd.take he hok (by simpa using hnew)
  · have hmem := List.mem_of_getElem? he
    obtain ⟨hin, hfin⟩ := iterate_memory hblocks (hd.placed hmem) (.inl ⟨w', hr⟩)
    obtain ⟨hok, hblock⟩ := iterate_running_walkOk (hd.walkOk hmem) hbits hr
    refine enginesOk_of_decodingOk (hcount _) hc (invocationChecks_engines hi.params hp hin _ _) ?_
    exact hd.run he hok hblock hfin
  · have hplaced := hd.placed (List.mem_of_getElem? he)
    obtain ⟨hin, hfin⟩ := iterate_memory hblocks hplaced (.inr hr)
    refine enginesOk_of_decodingOk (hcount _) hc (invocationChecks_engines hi.params hp hin _ _) ?_
    exact hd.finish he (iterate_ended_finished (hplaced.1.trans_le hblocks) hr) hfin

theorem writeLocation_enginesOk {s : State} (h : s.enginesOk) (v : Word) (l : Location) :
    (s.writeLocation v l).enginesOk := by
  have idle : s.busy = false → s.allIdle := fun hb => h.allIdle fun b hc => by simp [State.busy, hc] at hb
  obtain e | ⟨-, e⟩ | ⟨i, -, hb, -, e⟩ | ⟨-, hb, -, e⟩ | ⟨-, e⟩ | ⟨-, e⟩ | ⟨r, -, -, hb, e⟩ | ⟨a, i, -, -, hb, e⟩ :=
    writeLocation_cases v l s <;> rw [e]
  · exact h
  · exact h
  · exact State.allIdle.enginesOk (idle hb) h.1
  · exact h
  · exact h
  · exact h
  · cases r <;> exact State.allIdle.enginesOk (idle hb) h.1
  · exact State.allIdle.enginesOk (idle hb) h.1

theorem hostTurn_enginesOk {s t : State} (h : s.enginesOk) (ht : hostTurn s = .next t) : t.enginesOk := by
  obtain ⟨-, rfl⟩ | ⟨off, n, rest, -, -, rfl⟩ | ⟨off, n, v, rest, -, -, rfl⟩ | ⟨rest, -, rfl⟩ := hostTurn_cases ht
  · exact h
  · exact h
  · exact writeLocation_enginesOk h v _
  · exact h

/-- Every command leaves the engines idle. -/
theorem cmdRule_allIdle {s : State} (h : s.enginesOk) {i : Instr} (hc : s.cur = some i) :
    (cmdRule i s).leaves State.allIdle := by
  by_cases hd : ∃ b, i = .decode b
  · obtain ⟨b, rfl⟩ := hd
    have he := h.2
    simp only [hc] at he
    obtain ⟨f, -, e⟩ | ⟨code, info, hp, e⟩ | ⟨env, -, ⟨f, -, e⟩ | ⟨m, -, ⟨-, e⟩ | ⟨i, rest, -, e⟩⟩⟩ :=
      decodeRule_cases b s <;> rw [cmdRule, e]
    · trivial
    · change s.allIdle
      simpa only [hp] using he
    · trivial
    · exact decoded_allIdle s m env.counts
    · exact decoded_allIdle s m env.counts
  · have hidle : s.allIdle := h.allIdle fun b hb => hd ⟨b, Option.some.inj (hc.symm.trans hb)⟩
    exact CmdResult.leaves_mono (fun u hu => hu.idle hidle) (cmdRule_frame i s)

theorem exec_enginesOk {i : Instr} {s t : State} (h : s.enginesOk) (hc : s.cur = some i) (ht : exec i s = .next t) :
    t.enginesOk := by
  obtain ⟨u, hidle, hu, ht⟩ := exec_completes (cmdRule_allIdle h hc) ht
  have hcount : u.engines.length = u.params.numEngines := by rw [hu.engineCount, hu.params, h.1]
  obtain rfl | ⟨code, info, rfl⟩ := ht
  · exact State.allIdle.enginesOk hidle hcount
  · exact State.allIdle.enginesOk hidle hcount

theorem runTurn_enginesOk {s t : State} (hi : s.Inv) {turn : Turn} (h : runTurn turn s = .next t) : t.enginesOk := by
  obtain ⟨-, h⟩ | ⟨-, -, rfl⟩ | ⟨i, -, hc, h⟩ | ⟨e, pick, -, h⟩ | ⟨-, rfl⟩ := runTurn_cases h
  · exact hostTurn_enginesOk hi.engines h
  · exact hi.engines
  · exact exec_enginesOk hi.engines hc h
  · exact engineTurn_enginesOk hi h
  · exact State.allIdle.enginesOk (resetOf_allIdle s.params) List.length_replicate

/-- Settles O56: an engine's turn takes, advances or finishes one block; every completion leaves the engines idle. -/
theorem stepKeepsEngines : Obligations.StepKeepsEngines := by
  unfold Obligations.StepKeepsEngines
  intro s t hi h
  obtain ⟨rest, turn, h⟩ := step_runTurn h
  exact runTurn_enginesOk (s := { s with schedule := rest }) (hi.withSchedule rest) h

end Sys2Proof.Machine

namespace Sys2Proof.Machine

/-! ## The outcomes of one iteration (R87, R88, R305 to R311) -/

/-- Bit `n` of a word, as a number. -/
theorem getLsbD_toNat (v : Word) (n : Nat) : (v.getLsbD n).toNat = (v.toNat >>> n) % 2 := by
  rw [BitVec.getLsbD, Nat.toNat_testBit, Nat.shiftRight_eq_div_pow]

theorem streamBit_eq {m : Memory} {width p : Nat} {v : Word} (h : m.readElem .stream (p / width) = some v) :
    streamBit m width p = some (v.getLsbD (width - 1 - p % width)).toNat := by
  rw [streamBit, h, getLsbD_toNat]
  rfl

theorem endBlock_blockEnded (r : BlockEnd) {w : Walk} (m : Memory) (hb : w.block < 4096) :
    blockEnded m (endBlock r w m) w.block (blockStatus r) (if r = .ok then 0#32 else BitVec.ofNat 32 w.q)
      (BitVec.ofNat 32 w.k) (BitVec.ofNat 32 w.p) := by
  obtain ⟨hs, he, hd, hp⟩ := endBlock_entries r w m hb
  exact ⟨hs, he, hd, hp, fun x hx => read_endBlock hx⟩

theorem findSymbol_eq_none {t : List Code} {l c : Nat} : findSymbol t l c = none ↔ ∀ j, ¬ isEntry t j l c := by
  simp only [findSymbol, List.findIdx?_eq_none_iff, isEntry]
  constructor
  · rintro h j ⟨e, he, rfl, rfl⟩
    simpa using h e (List.mem_of_getElem? he)
  · intro h e he
    obtain ⟨j, hj, rfl⟩ := List.getElem_of_mem he
    have := h j
    simpa [hj] using this

theorem isEntry_of_findSymbol {t : List Code} {l c sym : Nat} (h : findSymbol t l c = some sym) :
    isEntry t sym l c := by
  obtain ⟨hlt, hp, -⟩ := List.findIdx?_eq_some_iff_getElem.mp h
  rw [Bool.and_eq_true, decide_eq_true_eq, decide_eq_true_eq] at hp
  exact ⟨_, List.getElem?_eq_getElem hlt, hp.1, hp.2⟩

/-- The only symbol with a codelength and codeword is the one found (R52, R306). -/
theorem findSymbol_of_unique {t : List Code} {l c sym : Nat} (h : isEntry t sym l c)
    (hu : ∀ j, isEntry t j l c → j = sym) : findSymbol t l c = some sym := by
  cases hf : findSymbol t l c with
  | none => exact absurd h (findSymbol_eq_none.mp hf sym)
  | some j => rw [hu j (isEntry_of_findSymbol hf)]

section
variable {env : DecodeEnv} {w : Walk} {m : Memory}

theorem iterate_count_reached (hk : env.count w.block ≤ w.k) : env.iterate w m = .ended (endBlock .ok w m) := by
  rw [DecodeEnv.iterate, if_neg (by omega)]

theorem iterate_stream_exhausted (hk : w.k < env.count w.block) (hp : env.totalBits ≤ w.p) :
    env.iterate w m = .ended (endBlock .truncated w m) := by
  rw [DecodeEnv.iterate, if_pos hk, if_pos hp]

theorem iterate_slot_unwritten (hk : w.k < env.count w.block) (hp : w.p < env.totalBits)
    (hv : m.readElem .stream (w.p / env.width) = none) :
    env.iterate w m = .fault (.unwritten .stream (w.p / env.width)) := by
  rw [DecodeEnv.iterate, if_pos hk, if_neg (by omega), streamBit, hv]
  rfl

theorem iterate_takes_bit {v : Word} (hk : w.k < env.count w.block) (hp : w.p < env.totalBits)
    (hv : m.readElem .stream (w.p / env.width) = some v) :
    env.iterate w m = env.takeBit w m (v.getLsbD (env.width - 1 - w.p % env.width)).toNat := by
  rw [DecodeEnv.iterate, if_pos hk, if_neg (by omega), streamBit_eq hv]

theorem takeBit_emits {bit sym : Nat} (h : findSymbol env.table (w.l + 1) (2 * w.c + bit) = some sym) :
    env.takeBit w m bit = .running { w with p := w.p + 1, k := w.k + 1, c := 0, l := 0, q := w.p + 1 }
      (m.setRange (Arr.base .outBuf + (w.base + w.k)) [BitVec.ofNat 8 sym]) := by
  simp only [DecodeEnv.takeBit, h]

theorem takeBit_unmatched {bit : Nat} (h : findSymbol env.table (w.l + 1) (2 * w.c + bit) = none) :
    env.takeBit w m bit =
      let w' : Walk := { w with p := w.p + 1, c := 2 * w.c + bit, l := w.l + 1 }
      if env.maxlen ≤ w.l + 1 then .ended (endBlock .badCode w' m) else .running w' m := by
  simp only [DecodeEnv.takeBit, h]

end

theorem read_setRange_singleton (m : Memory) (a : Nat) (b : Byte) :
    (m.setRange a [b]).read a = some b ∧ ∀ x, x ≠ a → (m.setRange a [b]).read x = m.read x := by
  refine ⟨by simp [read_setRange], fun x hx => read_setRange_of_outside ?_⟩
  simp only [List.length_singleton]
  omega

/-- Settles O49: one clause per outcome, from the law of that outcome. -/
theorem engineIteration : Obligations.EngineIteration := by
  unfold Obligations.EngineIteration
  refine ⟨fun m width p v => streamBit_eq, ?running, ?countReached, ?exhausted,
    fun env w m => iterate_slot_unwritten, ?bit⟩
  case running =>
    intro env w w' m m' h
    obtain ⟨hp, hk, ⟨sym, rfl, rfl⟩ | ⟨bit, -, -, rfl, rfl⟩⟩ := iterate_running h
    · exact ⟨hp, rfl, hk, rfl, rfl, .inr ⟨rfl, rfl, rfl, rfl, (read_setRange_singleton m _ sym).2⟩⟩
    · exact ⟨hp, rfl, hk, rfl, rfl, .inl ⟨rfl, rfl⟩⟩
  case countReached => exact fun env w m hb hk => ⟨_, iterate_count_reached hk, endBlock_blockEnded .ok m hb⟩
  case exhausted =>
    exact fun env w m hb hk hp => ⟨_, iterate_stream_exhausted hk hp, endBlock_blockEnded .truncated m hb⟩
  case bit =>
    rintro env w m v c hk hp hv rfl
    rw [iterate_takes_bit hk hp hv]
    refine ⟨fun sym hs hu => ?_, fun hnone => ?_⟩
    · exact ⟨_, takeBit_emits (findSymbol_of_unique hs hu), read_setRange_singleton m _ _⟩
    · rw [takeBit_unmatched (findSymbol_eq_none.mpr hnone)]
      refine ⟨fun hl => if_neg (by omega), fun hl hb => ⟨_, if_pos hl, ?_⟩⟩
      exact endBlock_blockEnded .badCode (w := { w with p := w.p + 1, c := _, l := w.l + 1 }) m hb

end Sys2Proof.Machine

namespace Sys2Proof.Machine

/-! ## What an offset names (R81, R82) -/

theorem windows_disjoint {a b : Arr} (h : a ≠ b) : a.base + a.window ≤ b.base ∨ b.base + b.window ≤ a.base := by
  revert h
  cases a <;> cases b <;> decide

/-- The window of an array lies clear of the registers, the frequency windows and the tables. -/
theorem window_bounds (a : Arr) :
    (0x1000 ≤ a.base ∧ a.base + a.window ≤ 0x2000) ∨ (0x10000 ≤ a.base ∧ a.base + a.window ≤ 0x400000) := by
  cases a <;> decide

theorem arrayLocation_of_window (p : Params) {a : Arr} {o : Nat} {as : List Arr} (ha : a ∈ as) (hl : a.base ≤ o)
    (hu : o < a.base + a.window) :
    arrayLocation p o as = if o - a.base < a.bytes p then .array a (o - a.base) else .reserved := by
  induction as with
  | nil => cases ha
  | cons b as ih =>
    rw [arrayLocation]
    by_cases hb : b = a
    · rw [hb, if_pos ⟨hl, hu⟩]
    · have := windows_disjoint hb
      rw [if_neg (by omega), ih (List.mem_of_ne_of_mem (Ne.symm hb) ha)]

/-- The bytes of an array below its capacity stand at its offset in its window. -/
theorem locate_array (p : Params) {a : Arr} {i : Nat} (hi : i < a.bytes p) : locate p (a.base + i) = .array a i := by
  have hw : i < a.window := hi.trans_le (Nat.min_le_left _ _)
  have hb := window_bounds a
  rw [locate, if_neg (by omega), if_neg (by omega), if_neg (by omega), if_neg (by omega), if_neg (by omega),
    arrayLocation_of_window p (mem_allArrays a) (by omega) (by omega), Nat.add_sub_cancel_left, if_pos hi]

theorem locate_freqSym (p : Params) {i : Nat} (hi : i < 256) : locate p (0x2000 + 4 * i) = .freqSym i := by
  rw [locate, if_neg (by omega), if_pos (by omega), Nat.add_sub_cancel_left, Nat.mul_div_cancel_left _ (by decide)]

theorem locate_freqCnt (p : Params) {i : Nat} (hi : i < 256) : locate p (0x2400 + 4 * i) = .freqCnt i := by
  rw [locate, if_neg (by omega), if_neg (by omega), if_pos (by omega), Nat.add_sub_cancel_left,
    Nat.mul_div_cancel_left _ (by decide)]

theorem offset_toNat {n : Nat} (h : n < 0x400000) : (BitVec.ofNat 22 n).toNat = n :=
  (BitVec.toNat_ofNat n 22).trans (Nat.mod_eq_of_lt h)

/-- An offset in the window of an array is one of the interface's offsets. -/
theorem array_offset_toNat (p : Params) {a : Arr} {i : Nat} (hi : i < a.bytes p) :
    (BitVec.ofNat 22 (a.base + i)).toNat = a.base + i := by
  have hw : i < a.window := hi.trans_le (Nat.min_le_left _ _)
  have hb := window_bounds a
  exact offset_toNat (by omega)

/-! ## Host reads of an idle block (R150) -/

theorem State.inFlight_idle {s : State} (hc : s.cur = none) (l : Location) : s.inFlight l = false := by
  simp [State.inFlight, hc]

section
variable {s : State} {off : BitVec 22}

theorem hostRead_reg (hc : s.cur = none) {r : Reg} (hl : locate s.params off.toNat = .reg r) :
    s.hostRead off = s.regRead r := by
  simp [State.hostRead, hl, State.readLocation, State.inFlight_idle hc]

/-- STATUS is no output of any command: it reads the same in every state (R403). -/
theorem hostRead_status (s : State) : s.hostRead 0x00C#22 = statusWord s := by
  have hf : s.inFlight (.reg .status) = false := by
    unfold State.inFlight
    split
    · rename_i i _
      cases i <;> rfl
    · rfl
  have hl : locate s.params (0x00C#22).toNat = .reg .status := rfl
  rw [State.hostRead, hl, State.readLocation, hf, if_neg (by decide)]
  rfl

theorem hostRead_freqSym (hc : s.cur = none) {i : Nat} (hl : locate s.params off.toNat = .freqSym i) :
    s.hostRead off = s.freq[i]?.elim 0#32 (fun e => 0#24 ++ e.sym) := by
  rw [State.hostRead, hl, State.readLocation, State.inFlight_idle hc, if_neg (by decide)]
  cases s.freq[i]? <;> rfl

theorem hostRead_freqCnt (hc : s.cur = none) {i : Nat} (hl : locate s.params off.toNat = .freqCnt i) :
    s.hostRead off = s.freq[i]?.elim 0#32 FreqEntry.cnt := by
  rw [State.hostRead, hl, State.readLocation, State.inFlight_idle hc, if_neg (by decide)]
  cases s.freq[i]? <;> rfl

theorem hostRead_array (hc : s.cur = none) {a : Arr} {i : Nat} (hl : locate s.params off.toNat = .array a i) :
    s.hostRead off = ofLanes (s.readLane a i (Config.freeWord s.draws) 0) (s.readLane a i (Config.freeWord s.draws) 1)
      (s.readLane a i (Config.freeWord s.draws) 2) (s.readLane a i (Config.freeWord s.draws) 3) := by
  simp [State.hostRead, hl, State.readLocation, State.inFlight_idle hc]

theorem readLane_of_read {a : Arr} {i t : Nat} {x : Byte} (free : Word) (hi : i + t < a.bytes s.params)
    (h : s.mem.read (a.base + (i + t)) = some x) : s.readLane a i free t = x := by
  rw [State.readLane, if_pos hi, h, Option.getD_some]

/-- A word whose four bytes are written reads as their word (R85, R86). -/
theorem hostRead_of_lanes (hc : s.cur = none) {a : Arr} {i : Nat} (hl : locate s.params off.toNat = .array a i)
    (hi : i + 4 ≤ a.bytes s.params) {b0 b1 b2 b3 : Byte} (h0 : s.mem.read (a.base + i) = some b0)
    (h1 : s.mem.read (a.base + i + 1) = some b1) (h2 : s.mem.read (a.base + i + 2) = some b2)
    (h3 : s.mem.read (a.base + i + 3) = some b3) : s.hostRead off = ofLanes b0 b1 b2 b3 := by
  rw [hostRead_array hc hl, readLane_of_read _ (by omega) h0, readLane_of_read _ (by omega) h1,
    readLane_of_read _ (by omega) h2, readLane_of_read _ (by omega) h3]

theorem hostRead_of_readWord (hc : s.cur = none) {a : Arr} {i : Nat} (hl : locate s.params off.toNat = .array a i)
    (hi : i + 4 ≤ a.bytes s.params) {v : Word} (h : s.mem.readWord (a.base + i) = some v) : s.hostRead off = v := by
  unfold Memory.readWord at h
  split at h
  · injection h with h
    rw [← h]
    exact hostRead_of_lanes hc hl hi ‹_› ‹_› ‹_› ‹_›
  · cases h

end

theorem laneOf_ofLanes (b0 b1 b2 b3 : Byte) :
    laneOf (ofLanes b0 b1 b2 b3) 0 = b0 ∧ laneOf (ofLanes b0 b1 b2 b3) 1 = b1 ∧
      laneOf (ofLanes b0 b1 b2 b3) 2 = b2 ∧ laneOf (ofLanes b0 b1 b2 b3) 3 = b3 := by
  simp only [laneOf, ofLanes, BitVec.extractLsb'_append_eq_of_le, BitVec.extractLsb'_append_eq_of_add_le,
    Nat.reduceMul, Nat.reduceLeDiff, Nat.reduceSub]
  simp

/-- A byte lane of a host read of an array. -/
theorem laneOf_hostRead {s : State} {off : BitVec 22} (hc : s.cur = none) {a : Arr} {i t : Nat}
    (hl : locate s.params off.toNat = .array a i) (ht : t < 4) :
    laneOf (s.hostRead off) t = s.readLane a i (Config.freeWord s.draws) t := by
  rw [hostRead_array hc hl]
  obtain ⟨h0, h1, h2, h3⟩ := laneOf_ofLanes (s.readLane a i (Config.freeWord s.draws) 0)
    (s.readLane a i (Config.freeWord s.draws) 1) (s.readLane a i (Config.freeWord s.draws) 2)
    (s.readLane a i (Config.freeWord s.draws) 3)
  interval_cases t <;> assumption

/-! ## The fields of STATUS and TABLE_INFO (R36, R46) -/

theorem statusWord_fields (s : State) :
    (statusWord s).getLsbD 0 = s.busy ∧ (statusWord s).getLsbD 1 = s.status.done ∧
    (statusWord s).getLsbD 2 = s.status.err ∧ (statusWord s).getLsbD 3 = s.status.equal ∧
    (statusWord s).getLsbD 4 = s.status.overrun ∧ (statusWord s).extractLsb' 5 3 = 0#3 ∧
    (statusWord s).extractLsb' 8 3 = s.status.errClass ∧ (statusWord s).extractLsb' 11 5 = 0#5 ∧
    (statusWord s).extractLsb' 16 8 = s.status.errCode ∧ (statusWord s).extractLsb' 24 8 = 0#8 := by
  refine ⟨?_, ?_, ?_, ?_, ?_, ?_, ?_, ?_, ?_, ?_⟩
  all_goals
    simp only [statusWord, BitVec.getLsbD_append, BitVec.extractLsb'_append_eq_of_le,
      BitVec.extractLsb'_append_eq_of_add_le, Nat.reduceLeDiff, Nat.reduceSub]
    simp

theorem infoWord_fields (i : TableInfo) :
    (infoWord i).extractLsb' 0 8 = i.maxlen ∧ (infoWord i).extractLsb' 8 23 = 0#23 ∧
      (infoWord i).getLsbD 31 = i.valid := by
  simp only [infoWord, BitVec.getLsbD_append, BitVec.extractLsb'_append_eq_of_le,
    BitVec.extractLsb'_append_eq_of_add_le, Nat.reduceLeDiff, Nat.reduceSub]
  simp

/-! ## What the host reads -/

/-- The capacity of a word array is a whole number of words. -/
theorem word_array_bytes {p : Params} {a : Arr}
    (ha : a ∈ [Arr.blkOffset, Arr.blkCount, Arr.blkStatus, Arr.blkErrpos, Arr.blkDone, Arr.blkEnd, Arr.stream])
    {n : Nat} (hn : 4 * n < a.bytes p) : 4 * n + 4 ≤ a.bytes p := by
  cases a <;> simp [Arr.bytes, Arr.window] at ha hn ⊢ <;> omega

theorem zero_append_ofBool (b : Bool) : 0#31 ++ BitVec.ofBool b = if b then 1#32 else 0#32 := by
  cases b <;> rfl

/-- Settles O60: each offset names its register or array element, and no location is in flight. -/
theorem hostReadReturnsState : Obligations.HostReadReturnsState := by
  unfold Obligations.HostReadReturnsState
  refine ⟨fun s => ?status, fun s hc => ?regs, fun s b hc => ?info, fun s a n v hc ha hn hv => ?word,
    fun s a n t x hc _ ht hn hx => ?byte⟩
  case status =>
    rw [hostRead_status]
    exact statusWord_fields s
  case regs =>
    have ctrl : s.hostRead 0x010#22 = if s.ie then 1#32 else 0#32 := by
      rw [hostRead_reg hc (r := .ctrl) rfl, State.regRead, zero_append_ofBool]
    have reads : ∀ {off : BitVec 22} (r : Reg), locate s.params off.toNat = .reg r → s.hostRead off = s.regRead r :=
      fun _ => hostRead_reg hc
    exact ⟨reads .id rfl, reads .version rfl, reads .cmd rfl, ctrl, reads .errInfo rfl, reads .dataLen rfl,
      reads .lenSize rfl, reads .streamWords rfl, reads .trailing rfl, reads .wordWidth rfl, reads .numBlocks rfl,
      reads .outLen rfl, reads .blkFails rfl, reads .pMaxLen rfl, reads .pMaxDataBytes rfl,
      reads .pMaxStreamWords rfl, reads .pMaxBlocks rfl, reads .pMaxOutBytes rfl, reads .pNumEngines rfl,
      reads .pWordWidths rfl⟩
  case info =>
    have hr : s.hostRead (BitVec.ofNat 22 (0x03C + 4 * bankNumber b)) = infoWord (s.info b) := by
      cases b
      · exact hostRead_reg hc (r := .tableInfo0) rfl
      · exact hostRead_reg hc (r := .tableInfo1) rfl
    rw [hr]
    exact infoWord_fields _
  case word =>
    refine hostRead_of_readWord hc ?_ (word_array_bytes ha hn) hv
    rw [array_offset_toNat s.params hn, locate_array s.params hn]
  case byte =>
    have hn' : 4 * n < a.bytes s.params := by omega
    have hl : locate s.params (BitVec.ofNat 22 (a.base + 4 * n)).toNat = .array a (4 * n) := by
      rw [array_offset_toNat s.params hn', locate_array s.params hn']
    rw [laneOf_hostRead hc hl ht]
    exact readLane_of_read _ hn hx

theorem zero_append_toNat (m : Nat) {n : Nat} (x : BitVec n) : (0#m ++ x).toNat = x.toNat := by
  simp [BitVec.toNat_append]

/-- Settles O17: each offset names its entry, and an entry at or beyond FREQ_N reads 0 (R50). -/
theorem frequencyWindows : Obligations.FrequencyWindows := by
  unfold Obligations.FrequencyWindows
  intro s i hc hi hlen
  have hsym : locate s.params (BitVec.ofNat 22 (0x2000 + 4 * i)).toNat = .freqSym i := by
    rw [offset_toNat (by omega), locate_freqSym _ hi]
  have hcnt : locate s.params (BitVec.ofNat 22 (0x2400 + 4 * i)).toNat = .freqCnt i := by
    rw [offset_toNat (by omega), locate_freqCnt _ hi]
  refine ⟨?_, ?_, ?_⟩
  · rw [hostRead_reg hc (r := .freqN) rfl]
    refine BitVec.eq_of_toNat_eq ?_
    rw [State.regRead, zero_append_toNat, State.freqN, BitVec.toNat_ofNat, BitVec.toNat_ofNat]
    omega
  · rw [hostRead_freqSym hc hsym]
    cases s.freq[i]? with
    | none => rfl
    | some e => exact BitVec.eq_of_toNat_eq ((zero_append_toNat 24 e.sym).trans (by rw [BitVec.toNat_setWidth]; omega))
  · rw [hostRead_freqCnt hc hcnt]
    cases s.freq[i]? <;> rfl

/-! ## Host writes of an idle block (R151) -/

/-- The input locations are the input registers and the words of the input arrays (R152). -/
theorem isInputLocation_iff (l : Location) :
    isInputLocation l = true ↔
      (∃ r, l = .reg r ∧ r.isInput = true) ∨ (∃ a i, l = .array a i ∧ a.isInput = true) := by
  cases l with
  | reg r => cases r <;> simp [isInputLocation, Reg.isInput]
  | array a i => cases a <;> simp [isInputLocation, Arr.isInput]
  | freqSym _ => simp [isInputLocation]
  | freqCnt _ => simp [isInputLocation]
  | tableCw _ _ => simp [isInputLocation]
  | tableLen _ _ => simp [isInputLocation]
  | reserved => simp [isInputLocation]

section
variable {s : State} {off : BitVec 22} {v : Word}

theorem hostWrite_input_reg (hc : s.cur = none) {r : Reg} (hl : locate s.params off.toNat = .reg r)
    (hr : r.isInput = true) : s.hostWrite off v = s.storeReg r v := by
  have hw : s.writeLocation v (.reg r) = s.inputWrite (s.storeReg r v) := by
    cases r <;> simp [Reg.isInput] at hr <;> rfl
  simp [State.hostWrite, hl, hw, State.inputWrite, State.busy, hc]

theorem hostWrite_input_array (hc : s.cur = none) {a : Arr} {i : Nat} (hl : locate s.params off.toNat = .array a i)
    (ha : a.isInput = true) : s.hostWrite off v = s.storeArray a i v := by
  simp [State.hostWrite, hl, State.writeLocation, State.inputWrite, State.busy, hc, ha]

theorem State.storeReg_params_cur (s : State) (r : Reg) (v : Word) :
    (s.storeReg r v).params = s.params ∧ (s.storeReg r v).cur = s.cur := by
  cases r <;> exact ⟨rfl, rfl⟩

theorem regRead_storeReg {r : Reg} (hr : r.isInput = true) : (s.storeReg r v).regRead r = v := by
  cases r <;> simp [Reg.isInput] at hr <;> rfl

theorem storeArray_mem_of_fits {a : Arr} {i : Nat} (hi : i + 4 ≤ a.bytes s.params) :
    (s.storeArray a i v).mem = s.mem.writeWord (a.base + i) v := by
  rw [State.storeArray_mem, List.take_of_length_le (by rw [length_lanes]; omega)]
  rfl

theorem hostRead_hostWrite_input (hc : s.cur = none) (hin : isInputLocation (locate s.params off.toNat) = true)
    (hw : wholeWord s.params (locate s.params off.toNat) = true) : (s.hostWrite off v).hostRead off = v := by
  obtain ⟨r, hl, hr⟩ | ⟨a, i, hl, ha⟩ := (isInputLocation_iff _).mp hin
  · rw [hostWrite_input_reg hc hl hr]
    obtain ⟨hp, hc'⟩ := s.storeReg_params_cur r v
    rw [hostRead_reg (hc'.trans hc) (by rw [hp, hl]), regRead_storeReg hr]
  · have hfits : i + 4 ≤ a.bytes s.params := by simpa [hl, wholeWord] using hw
    rw [hostWrite_input_array hc hl ha]
    refine hostRead_of_readWord (s := s.storeArray a i v) hc hl hfits ?_
    rw [storeArray_mem_of_fits hfits, readWord_writeWord]

end

/-- Settles O10: a register or a whole word of an array is stored, and read at the same location. -/
theorem inputWriteReadsBack : Obligations.InputWriteReadsBack := by
  unfold Obligations.InputWriteReadsBack
  refine ⟨fun s off v hc hin hw => ⟨hostRead_hostWrite_input hc hin hw, fun a i hl => ?_⟩, fun s v hc => ?_⟩
  · have ha : a.isInput = true := by
      rw [hl] at hin
      simpa using (isInputLocation_iff _).mp hin
    have hfits : i + 4 ≤ a.bytes s.params := by simpa [hl, wholeWord] using hw
    rw [hostWrite_input_array hc hl ha]
    refine ⟨⟨_, rfl⟩, fun x hx => ?_⟩
    rw [storeArray_mem_of_fits hfits]
    exact read_setRange_of_outside (by simpa using hx)
  · exact ⟨hostWrite_input_reg hc (r := .dataLen) rfl rfl, hostWrite_input_reg hc (r := .lenSize) rfl rfl,
      hostWrite_input_reg hc (r := .streamWords) rfl rfl, hostWrite_input_reg hc (r := .trailing) rfl rfl,
      hostWrite_input_reg hc (r := .wordWidth) rfl rfl, hostWrite_input_reg hc (r := .numBlocks) rfl rfl⟩

/-- A location that is no input and none of CMD, STATUS and CTRL ignores a write. -/
theorem writeLocation_ignored {l : Location} (hin : isInputLocation l = false)
    (hne : l ∉ [.reg .cmd, .reg .status, .reg .ctrl]) (v : Word) (s : State) : s.writeLocation v l = s := by
  cases l with
  | reg r => cases r <;> simp [isInputLocation] at hin hne <;> rfl
  | array a i => cases a <;> simp [isInputLocation] at hin <;> rfl
  | freqSym _ => rfl
  | freqCnt _ => rfl
  | tableCw _ _ => rfl
  | tableLen _ _ => rfl
  | reserved => rfl

/-- Settles O11: what is neither an input nor CMD, STATUS or CTRL ignores the write, whatever BUSY is. -/
theorem readOnlyWritesIgnored : Obligations.ReadOnlyWritesIgnored := by
  unfold Obligations.ReadOnlyWritesIgnored
  exact fun s v off hin hne => writeLocation_ignored hin hne v s

end Sys2Proof.Machine

namespace Sys2Proof.Machine

/-! ## Host accesses (R80, R92) -/

/-- Settles O14: the read is admitted, and the host's turn only records its value. -/
theorem readHasNoSideEffect : Obligations.ReadHasNoSideEffect := by
  unfold Obligations.ReadHasNoSideEffect
  intro s off ops ha hs
  have hadm : admittedAccess off 4 = true := by simp [admittedAccess, ha]
  simp [hostTurn, hs, hadm, State.respond]

/-- Settles O15: neither width nor alignment is optional for an admitted access. -/
theorem unadmittedAccessRefused : Obligations.UnadmittedAccessRefused := by
  unfold Obligations.UnadmittedAccessRefused
  intro s off n v ops h
  have hadm : admittedAccess off n = false := by
    rw [admittedAccess, Bool.and_eq_false_iff]
    simpa using h
  simp [hostTurn, hadm]

/-! ## Reserved offsets (R81, R83) -/

theorem arrayLocation_outside (p : Params) {o : Nat} {as : List Arr}
    (h : ∀ a ∈ as, o < a.base ∨ a.base + a.window ≤ o) : arrayLocation p o as = .reserved := by
  induction as with
  | nil => rfl
  | cons a as ih =>
    obtain ⟨ha, has⟩ := List.forall_mem_cons.mp h
    rw [arrayLocation, if_neg (by omega), ih has]

theorem reservedOffset_outside {o : Nat} (h : reservedOffset o) (a : Arr) : o < a.base ∨ a.base + a.window ≤ o := by
  unfold reservedOffset at h
  cases a <;> simp only [Arr.base, Arr.window] <;> omega

/-- The register block ends at 0x60, at word index 24 (R32). -/
theorem locate_reserved (p : Params) {o : Nat} (h : reservedOffset o) : locate p o = .reserved := by
  have harr := arrayLocation_outside p (as := allArrays) fun a _ => reservedOffset_outside h a
  unfold reservedOffset at h
  rw [locate, if_neg (by omega), if_neg (by omega), if_neg (by omega), if_neg (by omega), if_neg (by omega), harr]

/-- An offset of an array's window at or beyond the capacity is reserved (R82). -/
theorem locate_beyond_capacity (p : Params) {a : Arr} {o : Nat} (hl : a.base + a.bytes p ≤ o)
    (hu : o < a.base + a.window) : locate p o = .reserved := by
  have hb := window_bounds a
  rw [locate, if_neg (by omega), if_neg (by omega), if_neg (by omega), if_neg (by omega), if_neg (by omega),
    arrayLocation_of_window p (mem_allArrays a) (by omega) hu, if_neg (by omega)]

/-- A reserved location reads 0 and ignores a write, whatever the command in progress (R83). -/
theorem host_reserved {s : State} {off : BitVec 22} (v : Word) (hl : locate s.params off.toNat = .reserved) :
    s.hostRead off = 0#32 ∧ s.hostWrite off v = s := by
  rw [State.hostRead, State.hostWrite, hl]
  exact ⟨rfl, rfl⟩

/-- Settles O12: a reserved offset lies in no window, and an admitted access answers. -/
theorem reservedOffsets : Obligations.ReservedOffsets := by
  unfold Obligations.ReservedOffsets
  refine ⟨fun s off v h => host_reserved v (locate_reserved s.params h), fun s off v ops ha => ?_⟩
  have hadm : admittedAccess off 4 = true := by simp [admittedAccess, ha]
  exact ⟨⟨_, if_pos hadm⟩, ⟨_, if_pos hadm⟩⟩

/-! ## Words that straddle a capacity (R82, R85) -/

section
variable {s : State} {off : BitVec 22} {a : Arr} {i t : Nat}

theorem readLane_beyond (free : Word) (h : a.bytes s.params ≤ i + t) : s.readLane a i free t = 0#8 := by
  rw [State.readLane, if_neg (by omega)]

/-- Lane `t` of a word given lane by lane. -/
theorem laneOf_ofLanes_apply (f : Nat → Byte) (ht : t < 4) : laneOf (ofLanes (f 0) (f 1) (f 2) (f 3)) t = f t := by
  obtain ⟨h0, h1, h2, h3⟩ := laneOf_ofLanes (f 0) (f 1) (f 2) (f 3)
  interval_cases t <;> assumption

/-- A byte at or beyond the capacity reads 0, also while a command writes the array. -/
theorem laneOf_hostRead_beyond (hl : locate s.params off.toNat = .array a i) (ht : t < 4)
    (h : a.bytes s.params ≤ i + t) : laneOf (s.hostRead off) t = 0#8 := by
  rw [State.hostRead, hl, State.readLocation]
  split
  · rw [if_neg (by omega)]
    exact (laneOf_ofLanes_apply (fun k => if i + k < a.bytes s.params then laneOf (Config.freeWord s.draws) k else 0#8)
      ht).trans (if_neg (by omega))
  · exact (laneOf_ofLanes_apply (s.readLane a i _) ht).trans (readLane_beyond _ h)

theorem length_take_lanes (v : Word) (n : Nat) : ((lanes v).take n).length = min n 4 := by
  rw [List.length_take, length_lanes]

/-- A host write leaves the bytes at or beyond the capacity alone. -/
theorem read_hostWrite_beyond (v : Word) (hl : locate s.params off.toNat = .array a i)
    (h : a.bytes s.params ≤ i + t) :
    (s.hostWrite off v).mem.read (a.base + (i + t)) = s.mem.read (a.base + (i + t)) := by
  rw [State.hostWrite, hl, State.writeLocation, State.inputWrite]
  split
  · split
    · rfl
    · refine read_setRange_of_outside (.inr ?_)
      rw [length_take_lanes]
      omega
  · rfl

theorem lanes_getElem? (v : Word) (ht : t < 4) : (lanes v)[t]? = some (laneOf v t) := by
  interval_cases t <;> rfl

/-- A store writes each byte below the capacity with its lane of the word (R85). -/
theorem read_storeArray (v : Word) (ht : t < 4) (h : i + t < a.bytes s.params) :
    (s.storeArray a i v).mem.read (a.base + (i + t)) = some (laneOf v t) := by
  rw [State.storeArray_mem, read_setRange, if_pos (by rw [length_take_lanes]; omega),
    show a.base + (i + t) - (a.base + i) = t by omega, List.getElem?_take_of_lt (by omega), lanes_getElem? v ht]

end

/-- Settles O13: lane by lane on both sides of the capacity, and reserved beyond the array's words. -/
theorem beyondCapacity : Obligations.BeyondCapacity := by
  unfold Obligations.BeyondCapacity
  refine ⟨fun s off v a i t hl ht h => ⟨laneOf_hostRead_beyond hl ht h, read_hostWrite_beyond v hl h⟩,
    fun s off v a i t hc hl ha ht h => ?_, fun s off v a hl hu => host_reserved v (locate_beyond_capacity _ hl hu)⟩
  have hin : a.isInput = true := by
    revert ha
    cases a <;> decide
  have hmem := read_storeArray (s := s) v ht h
  rw [hostWrite_input_array hc hl hin]
  refine ⟨hmem, ?_⟩
  rw [laneOf_hostRead (s := s.storeArray a i v) hc hl ht]
  exact readLane_of_read _ h hmem

/-! ## The table windows (R84, R285) -/

theorem locate_table (p : Params) (b : Bank) {k : Nat} (hk : k < 0x800) :
    locate p (0x3000 + 0x800 * bankNumber b + k) = tableLocation b k := by
  cases b
  · rw [show 0x3000 + 0x800 * bankNumber .bank0 + k = 0x3000 + k from rfl, locate, if_neg (by omega),
      if_neg (by omega), if_neg (by omega), if_pos (by omega), Nat.add_sub_cancel_left]
  · rw [show 0x3000 + 0x800 * bankNumber .bank1 + k = 0x3800 + k from rfl, locate, if_neg (by omega),
      if_neg (by omega), if_neg (by omega), if_neg (by omega), if_pos (by omega), Nat.add_sub_cancel_left]

/-- The entry of a symbol lies at 8 bytes a symbol, the CW word first. -/
theorem tableLocation_entry (b : Bank) (sym : Nat) :
    tableLocation b (8 * sym) = .tableCw b sym ∧ tableLocation b (8 * sym + 4) = .tableLen b sym := by
  refine ⟨?_, ?_⟩
  · rw [tableLocation, if_pos (by omega), Nat.mul_div_cancel_left _ (by decide)]
  · rw [tableLocation, if_neg (by omega), show (8 * sym + 4) / 8 = sym by omega]

/-- A host read in the window of a bank of an idle block is of that byte of the bank's table. -/
theorem hostRead_table {s : State} (b : Bank) {k : Nat} (hk : k < 0x800) :
    s.hostRead (BitVec.ofNat 22 (0x3000 + 0x800 * bankNumber b + k)) =
      s.readLocation (Config.freeWord s.draws) (tableLocation b k) := by
  have hb : bankNumber b ≤ 1 := by cases b <;> decide
  rw [State.hostRead, offset_toNat (by omega), locate_table s.params b hk]

theorem readCode_valid {s : State} {b : Bank} {sym : Nat} {e : Code} (hv : (s.info b).valid = true)
    (he : (s.table b)[sym]? = some e) (free : Word) (field : Code → Word) : s.readCode b sym free field = field e := by
  rw [State.readCode, if_pos hv, he]

/-- Settles O18: each of the two offsets names its word of the entry, which a VALID bank holds. -/
theorem tableLookup : Obligations.TableLookup := by
  unfold Obligations.TableLookup
  intro s b sym e hc hv hsym he
  obtain ⟨hcw, hlen⟩ := tableLocation_entry b sym
  refine ⟨?_, ?_⟩
  · rw [hostRead_table b (by omega), hcw, State.readLocation, State.inFlight_idle hc, if_neg (by decide),
      readCode_valid hv he]
  · rw [Nat.add_assoc, hostRead_table b (by omega), hlen, State.readLocation, State.inFlight_idle hc,
      if_neg (by decide), readCode_valid hv he]
    refine BitVec.eq_of_toNat_eq ((zero_append_toNat 24 e.len).trans ?_)
    rw [BitVec.toNat_setWidth]
    omega

end Sys2Proof.Machine

namespace Sys2Proof.Machine

/-! ## The frame of a DECODE (R98, R307, R311) -/

/-- The bytes a DECODE may write: its output region and the result entries of its blocks. -/
def DecodeEnv.writes (env : DecodeEnv) (x : Nat) : Prop :=
  (Arr.base .outBuf ≤ x ∧ x < Arr.base .outBuf + env.counts.sum) ∨ inResultEntry env.counts.length x

/-- The bytes block `i` may write: its part of the output region and its own result entries (R308, R311). -/
def DecodeEnv.owns (env : DecodeEnv) (i x : Nat) : Prop :=
  (Arr.base .outBuf + env.base i ≤ x ∧ x < Arr.base .outBuf + (env.base i + env.count i)) ∨
    ∃ a ∈ [Arr.blkStatus, Arr.blkErrpos, Arr.blkDone, Arr.blkEnd], a.base + 4 * i ≤ x ∧ x < a.base + 4 * i + 4

/-- A block's bytes are among those of its DECODE. -/
theorem DecodeEnv.owns.writes {env : DecodeEnv} {i x : Nat} (hi : i < env.counts.length) (h : env.owns i x) :
    env.writes x := by
  have hc := base_add_count_le env i
  obtain ⟨hl, hu⟩ | ⟨a, ha, hx⟩ := h
  · exact .inl (by omega)
  · refine .inr ⟨i, hi, ?_⟩
    simp only [List.mem_cons, List.not_mem_nil, or_false] at ha
    obtain rfl | rfl | rfl | rfl := ha <;> simp only [hx, true_and, true_or, or_true]

theorem read_endBlock_of_not_owns {env : DecodeEnv} {r : BlockEnd} {w : Walk} {m : Memory} {x : Nat}
    (h : ¬ env.owns w.block x) : (endBlock r w m).read x = m.read x := by
  refine read_endBlock fun a ha => ?_
  by_contra hx
  exact h (.inr ⟨a, ha, by omega⟩)

/-- The address of the next symbol of a walk is its block's (R307). -/
theorem owns_output {env : DecodeEnv} {w : Walk} (hw : env.placed w) (hk : w.k < env.count w.block) :
    env.owns w.block (Arr.base .outBuf + (w.base + w.k)) := by
  obtain ⟨-, hb⟩ := hw
  exact .inl (by omega)

theorem decode_keeps_unwritten (env : DecodeEnv) (m₀ : Memory) :
    env.Keeps (fun m => ∀ x, ¬ env.writes x → m.read x = m₀.read x) where
  ended r w m hw hm x hx := by
    rw [read_endBlock_of_not_owns fun ho => hx (ho.writes hw.1), hm x hx]
  emitted w m b hw hk hm x hx := by
    rw [(read_setRange_singleton m _ b).2 x fun e => hx (e ▸ (owns_output hw hk).writes hw.1), hm x hx]

/-- A DECODE that passes its checks and answers a next state has finished every block and completed. -/
theorem exec_decode_next {s t : State} {b : Bank} {env : DecodeEnv} (hp : invocationChecks b s = .pass env)
    (h : exec (.decode b) s = .next t) :
    ∃ m, env.finishAll s = .ok m ∧
      (t = (s.decoded m env.counts).complete ∨ ∃ code info, t = (s.decoded m env.counts).completeError code info) := by
  rw [exec_eq_finish, cmdRule] at h
  obtain ⟨f, -, e⟩ | ⟨code, info, hp', -⟩ | ⟨env', hp', ⟨f, -, e⟩ | ⟨m, hm, ⟨-, e⟩ | ⟨i, rest, -, e⟩⟩⟩ :=
    decodeRule_cases b s
  · rw [e] at h; cases h
  · rw [hp] at hp'; cases hp'
  · rw [e] at h; cases h
  · rw [hp] at hp'; cases hp'
    rw [e] at h; cases h
    exact ⟨m, hm, .inl rfl⟩
  · rw [hp] at hp'; cases hp'
    rw [e] at h; cases h
    exact ⟨m, hm, .inr ⟨_, _, rfl⟩⟩

/-- Settles O44: a completed DECODE differs in memory only where its blocks write. -/
theorem decodeFrame : Obligations.DecodeFrame := by
  unfold Obligations.DecodeFrame
  intro s t b env hi hc hp h
  obtain ⟨m, hm, ht⟩ := exec_decode_next hp h
  have frame : ∀ x, ¬ env.writes x → m.read x = s.mem.read x :=
    finishAll_keeps (decode_keeps_unwritten env s.mem) (fun w => (hi.decoding hc hp).placed) (fun _ _ => rfl) hm
  obtain rfl | ⟨code, info, rfl⟩ := ht
  · exact ⟨rfl, rfl, rfl, fun x ho hr => frame x (not_or.mpr ⟨ho, hr⟩)⟩
  · exact ⟨rfl, rfl, rfl, fun x ho hr => frame x (not_or.mpr ⟨ho, hr⟩)⟩

end Sys2Proof.Machine

namespace Sys2Proof.Machine

/-! ## One walk from two memories (R98, R314) -/

/-- The same writes lead from `m` to `m'` and from `n` to `n'`, all of them to bytes `own`. -/
def sameWrites (own : Nat → Prop) (m m' n n' : Memory) : Prop :=
  ∀ x, (m'.read x = m.read x ∧ n'.read x = n.read x) ∨ (own x ∧ m'.read x = n'.read x)

section
variable {own : Nat → Prop} {m m' m'' n n' n'' : Memory}

theorem sameWrites.refl : sameWrites own m m n n := fun _ => .inl ⟨rfl, rfl⟩

theorem sameWrites.trans (h : sameWrites own m m' n n') (h' : sameWrites own m' m'' n' n'') :
    sameWrites own m m'' n n'' := by
  intro x
  obtain ⟨e, e'⟩ | heq := h' x
  · rw [e, e']; exact h x
  · exact .inr heq

theorem sameWrites.read_eq (h : sameWrites own m m' n n') {x : Nat} (hx : ¬ own x) :
    m'.read x = m.read x ∧ n'.read x = n.read x :=
  (h x).resolve_right fun ho => hx ho.1

theorem setRange_sameWrites {a : Nat} {bs : List Byte} (h : ∀ x, a ≤ x → x < a + bs.length → own x) :
    sameWrites own m (m.setRange a bs) n (n.setRange a bs) := by
  intro x
  rw [read_setRange, read_setRange]
  by_cases hx : a ≤ x ∧ x < a + bs.length
  · exact .inr ⟨h x hx.1 hx.2, by rw [if_pos hx, if_pos hx]⟩
  · exact .inl ⟨if_neg hx, if_neg hx⟩

end

theorem endBlock_sameWrites (env : DecodeEnv) (r : BlockEnd) (w : Walk) (m n : Memory) :
    sameWrites (env.owns w.block) m (endBlock r w m) n (endBlock r w n) := by
  have write : ∀ {m' n' : Memory} {a : Arr} (v : Word), a ∈ [Arr.blkStatus, Arr.blkErrpos, Arr.blkDone, Arr.blkEnd] →
      sameWrites (env.owns w.block) m m' n n' →
      sameWrites (env.owns w.block) m (m'.writeElem a w.block v) n (n'.writeElem a w.block v) := fun v ha h =>
    h.trans (setRange_sameWrites fun x hl hu => .inr ⟨_, ha, hl, hu⟩)
  exact write _ (by simp) (write _ (by simp) (write _ (by simp) (write _ (by simp) .refl)))

/-- Two memories agree on what a DECODE reads. -/
def readAlike (m n : Memory) : Prop := ∀ x, decodeReadOnly x → n.read x = m.read x

/-- The blocks and the stream lie within the windows of R81. -/
structure DecodeEnv.fits (env : DecodeEnv) : Prop where
  blocks : env.counts.length ≤ 4096
  bits : env.totalBits ≤ 262144 * env.width

theorem checked_fits {s : State} {b : Bank} {env : DecodeEnv} (hp : s.params.wf = true)
    (h : invocationChecks b s = .pass env) : env.fits := by
  refine ⟨(checked_bounds hp h).1, ?_⟩
  obtain ⟨-, -, hwords, -, -, -, -, -, -, hwidth, hbits⟩ := invocationChecks_pass h
  simp only [Params.wf, Bool.and_eq_true, decide_eq_true_eq] at hp
  have hmul : s.streamWords.toNat * s.wordWidth.toNat ≤ 262144 * s.wordWidth.toNat :=
    Nat.mul_le_mul_right _ (by omega)
  rw [hwidth]
  omega

/-- A block writes nothing that a DECODE reads. -/
theorem not_owns_of_readOnly {env : DecodeEnv} {i x : Nat} (hi : i < 4096) (hx : decodeReadOnly x) :
    ¬ env.owns i x := by
  unfold DecodeEnv.owns
  simp only [decodeReadOnly, List.mem_cons, List.not_mem_nil, or_false, exists_eq_or_imp, exists_eq_left, Arr.base,
    Arr.window] at *
  omega

/-- What one iteration of a walk leads to from two memories: the same, with the same writes. -/
inductive Iter.Alike (own : Nat → Prop) (m n : Memory) : Iter → Iter → Prop where
  | running (w : Walk) {m' n' : Memory} (h : sameWrites own m m' n n') : Alike own m n (.running w m') (.running w n')
  | ended {m' n' : Memory} (h : sameWrites own m m' n n') : Alike own m n (.ended m') (.ended n')
  | fault (f : Fault) : Alike own m n (.fault f) (.fault f)

section
variable {env : DecodeEnv} {w : Walk} {m n : Memory}

theorem streamBit_alike (hb : env.totalBits ≤ 262144 * env.width) (h : readAlike m n) {p : Nat}
    (hp : p < env.totalBits) : streamBit n env.width p = streamBit m env.width p := by
  have hslot : p / env.width < 262144 := Nat.div_lt_of_lt_mul (by rw [Nat.mul_comm]; omega)
  unfold streamBit
  rw [readElem_congr fun x hl hu => h x (.inr ?_)]
  simp only [Arr.base, Arr.window] at *
  omega

theorem takeBit_alike (hw : env.placed w) (hk : w.k < env.count w.block) (bit : Nat) :
    Iter.Alike (env.owns w.block) m n (env.takeBit w m bit) (env.takeBit w n bit) := by
  unfold DecodeEnv.takeBit
  dsimp only
  split
  · refine .running _ (setRange_sameWrites fun x hl hu => ?_)
    have hx : x = Arr.base .outBuf + (w.base + w.k) := by simp only [List.length_singleton] at hu; omega
    exact hx ▸ owns_output hw hk
  · split
    · exact .ended (endBlock_sameWrites env .badCode _ m n)
    · exact .running _ .refl

theorem iterate_alike (hf : env.fits) (hw : env.placed w) (h : readAlike m n) :
    Iter.Alike (env.owns w.block) m n (env.iterate w m) (env.iterate w n) := by
  unfold DecodeEnv.iterate
  split
  · split
    · exact .ended (endBlock_sameWrites env .truncated w m n)
    · rw [streamBit_alike hf.bits h (by omega)]
      split
      · exact .fault _
      · exact takeBit_alike hw ‹_› _
  · exact .ended (endBlock_sameWrites env .ok w m n)

/-- Writes of a block leave two memories that agree on what a DECODE reads so. -/
theorem sameWrites.readAlike {i : Nat} {m' n' : Memory} (hi : i < 4096) (hs : sameWrites (env.owns i) m m' n n')
    (h : readAlike m n) : Sys2Proof.Machine.readAlike m' n' := by
  intro x hx
  obtain ⟨hm, hn⟩ := hs.read_eq (not_owns_of_readOnly hi hx)
  rw [hm, hn, h x hx]

theorem iterate_running_placed {w' : Walk} {m' : Memory} (hw : env.placed w) (h : env.iterate w m = .running w' m') :
    env.placed w' ∧ w'.block = w.block := by
  obtain ⟨-, -, ⟨sym, rfl, -⟩ | ⟨bit, -, -, rfl, -⟩⟩ := iterate_running h <;> exact ⟨hw, rfl⟩

theorem finishWalk_alike (hf : env.fits) (k : Nat) (hw : env.placed w) (h : readAlike m n) {m' : Memory}
    (e : env.finishWalk k w m = .ok m') :
    ∃ n', env.finishWalk k w n = .ok n' ∧ sameWrites (env.owns w.block) m m' n n' := by
  induction k generalizing w m n with
  | zero =>
    injection e with e
    exact ⟨_, rfl, e ▸ endBlock_sameWrites env _ w m n⟩
  | succ k ih =>
    have ha := iterate_alike hf hw h
    simp only [DecodeEnv.finishWalk] at e ⊢
    generalize hr : env.iterate w m = r at ha e
    generalize env.iterate w n = r' at ha ⊢
    cases ha with
    | fault f => cases e
    | ended hs =>
      injection e with e
      exact ⟨_, rfl, e ▸ hs⟩
    | running w' hs =>
      obtain ⟨hw', hb⟩ := iterate_running_placed hw hr
      obtain ⟨n', hn, hs'⟩ := ih hw' (hs.readAlike (hw.1.trans_le hf.blocks) h) e
      exact ⟨n', hn, hs.trans (hb ▸ hs')⟩

theorem startWalk_alike {i : Nat} (hi : i < 4096) (h : readAlike m n) : env.startWalk i n = env.startWalk i m := by
  unfold DecodeEnv.startWalk
  rw [readElem_congr fun x _ hu => h x (.inl ?_)]
  simp only [Arr.base] at *
  omega

theorem decodeBlock_alike (hf : env.fits) {i : Nat} (hi : i < env.counts.length) (h : readAlike m n) {m' : Memory}
    (e : env.decodeBlock i m = .ok m') :
    ∃ n', env.decodeBlock i n = .ok n' ∧ sameWrites (env.owns i) m m' n n' := by
  unfold DecodeEnv.decodeBlock at e ⊢
  rw [startWalk_alike (hi.trans_le hf.blocks) h]
  cases hs : env.startWalk i m with
  | error f => rw [hs] at e; cases e
  | ok w =>
    rw [hs] at e
    obtain ⟨-, rfl⟩ := startWalk_walkOk hi hs
    exact finishWalk_alike hf _ (startWalk_placed hi hs) h e

end

/-! ## Blocks in any order (R305, R314) -/

/-- A block that the completion of a DECODE has to finish: in an engine's hands, or taken by none. -/
inductive Job where
  | walk (w : Walk)
  | block (i : Nat)

/-- The block of a job. -/
def Job.index : Job → Nat
  | .walk w => w.block
  | .block i => i

/-- The job is about a block of the DECODE, at that block's output base. -/
def DecodeEnv.placedJob (env : DecodeEnv) : Job → Prop
  | .walk w => env.placed w
  | .block i => i < env.counts.length

/-- A job done, as `DecodeEnv.finishAll` does it. -/
def DecodeEnv.runJob (env : DecodeEnv) : Job → Memory → Except Fault Memory
  | .walk w, m => env.finishWalk (env.totalBits - w.p) w m
  | .block i, m => env.decodeBlock i m

/-- The jobs done one after another lead from one memory to the other. -/
inductive DecodeEnv.Runs (env : DecodeEnv) : List Job → Memory → Memory → Prop where
  | nil (m : Memory) : Runs env [] m m
  | cons {j : Job} {js : List Job} {m m₁ m' : Memory} (h : env.runJob j m = .ok m₁) (hs : Runs env js m₁ m') :
      Runs env (j :: js) m m'

/-- Jobs on blocks of the DECODE, no two on the same block. -/
structure DecodeEnv.Apart (env : DecodeEnv) (js : List Job) : Prop where
  placed : ∀ j ∈ js, env.placedJob j
  nodup : (js.map Job.index).Nodup

theorem DecodeEnv.Apart.perm {env : DecodeEnv} {js js' : List Job} (h : env.Apart js) (hp : js.Perm js') :
    env.Apart js' :=
  ⟨fun j hj => h.placed j (hp.mem_iff.mpr hj), (hp.map Job.index).nodup_iff.mp h.nodup⟩

section
variable {env : DecodeEnv} {j k : Job} {js js' : List Job} {m m' n : Memory}

theorem placedJob_index_lt (h : env.placedJob j) : j.index < env.counts.length := by
  cases j with
  | walk w => exact h.1
  | block i => exact h

theorem runJob_wf (hm : m.wf) (h : env.runJob j m = .ok m') : m'.wf := by
  cases j with
  | walk w => exact finishWalk_wf _ hm h
  | block i => exact decodeBlock_wf hm h

theorem runJob_alike (hf : env.fits) (hj : env.placedJob j) (hr : readAlike m n) (h : env.runJob j m = .ok m') :
    ∃ n', env.runJob j n = .ok n' ∧ sameWrites (env.owns j.index) m m' n n' := by
  cases j with
  | walk w => exact finishWalk_alike hf _ hj hr h
  | block i => exact decodeBlock_alike hf hj hr h

/-- The part of the output region of a block ends before that of a later block begins (R308). -/
theorem base_add_count_le_base (env : DecodeEnv) {i j : Nat} (h : i < j) : env.base i + env.count i ≤ env.base j := by
  have hle := base_add_count_le { env with counts := env.counts.take j } i
  simpa only [DecodeEnv.base, DecodeEnv.count, List.take_take, min_eq_left h.le, List.getD_eq_getElem?_getD,
    List.getElem?_take_of_lt h] using hle

/-- No two blocks write the same byte (R98). -/
theorem owns_disjoint {i j x : Nat} (hi : i < 4096) (hj : j < 4096) (hne : i ≠ j) (h : env.owns i x) :
    ¬ env.owns j x := by
  have hout : env.base i + env.count i ≤ env.base j ∨ env.base j + env.count j ≤ env.base i :=
    (Nat.lt_or_gt_of_ne hne).imp (base_add_count_le_base env) (base_add_count_le_base env)
  simp only [DecodeEnv.owns, List.mem_cons, List.not_mem_nil, or_false, exists_eq_or_imp, exists_eq_left,
    Arr.base] at *
  omega

/-- A job leaves what a DECODE reads alone. -/
theorem runJob_readAlike (hf : env.fits) (hj : env.placedJob j) (h : env.runJob j m = .ok m') : readAlike m m' := by
  obtain ⟨n', -, hs⟩ := runJob_alike hf hj (fun _ _ => rfl) h
  exact fun x hx => (hs.read_eq (not_owns_of_readOnly ((placedJob_index_lt hj).trans_le hf.blocks) hx)).1

/-- Two jobs on different blocks may change places. -/
theorem runJob_swap (hf : env.fits) (hj : env.placedJob j) (hk : env.placedJob k) (hne : j.index ≠ k.index)
    (hm : m.wf) {m₁ m₂ : Memory} (h₁ : env.runJob j m = .ok m₁) (h₂ : env.runJob k m₁ = .ok m₂) :
    ∃ n₁, env.runJob k m = .ok n₁ ∧ env.runJob j n₁ = .ok m₂ := by
  have hlt : ∀ {j : Job}, env.placedJob j → j.index < 4096 := fun hj => (placedJob_index_lt hj).trans_le hf.blocks
  have hr := runJob_readAlike hf hj h₁
  obtain ⟨n₁, hn₁, hs₂⟩ := runJob_alike hf hk (fun x hx => (hr x hx).symm) h₂
  obtain ⟨n₂, hn₂, hs₁⟩ := runJob_alike hf hj (runJob_readAlike hf hk hn₁) h₁
  refine ⟨n₁, hn₁, ?_⟩
  rw [hn₂, wf_ext (runJob_wf (runJob_wf hm hn₁) hn₂) (runJob_wf (runJob_wf hm h₁) h₂) fun x => ?_]
  by_cases hx : env.owns j.index x
  · obtain ⟨e, e'⟩ := hs₂.read_eq (owns_disjoint (hlt hj) (hlt hk) hne hx)
    obtain ⟨d, d'⟩ | ⟨-, d⟩ := hs₁ x
    · rw [d', e', e, d]
    · rw [e, d]
  · obtain ⟨d, d'⟩ := hs₁.read_eq hx
    obtain ⟨e, e'⟩ | ⟨-, e⟩ := hs₂ x
    · rw [d', e', e, d]
    · rw [d', e]

theorem runs_cons : env.Runs (j :: js) m m' ↔ ∃ m₁, env.runJob j m = .ok m₁ ∧ env.Runs js m₁ m' :=
  ⟨fun | .cons h hs => ⟨_, h, hs⟩, fun ⟨_, h, hs⟩ => .cons h hs⟩

/-- The order of the jobs does not matter (R314). -/
theorem runs_perm (hf : env.fits) (hp : js.Perm js') (ha : env.Apart js) (hm : m.wf) (h : env.Runs js m m') :
    env.Runs js' m m' := by
  induction hp generalizing m with
  | nil => exact h
  | cons j _ ih =>
    obtain ⟨m₁, h₁, hs⟩ := runs_cons.mp h
    exact .cons h₁ (ih ⟨fun k hk => ha.placed k (List.mem_cons_of_mem _ hk), (List.nodup_cons.mp ha.nodup).2⟩
      (runJob_wf hm h₁) hs)
  | swap j k js =>
    obtain ⟨m₁, h₁, hs⟩ := runs_cons.mp h
    obtain ⟨m₂, h₂, hs⟩ := runs_cons.mp hs
    have hne : k.index ≠ j.index := fun e => by simpa [e] using ha.nodup
    obtain ⟨n₁, hn₁, hn₂⟩ := runJob_swap hf (ha.placed k (by simp)) (ha.placed j (by simp)) hne hm h₁ h₂
    exact .cons hn₁ (.cons hn₂ hs)
  | trans hp _ ih ih' => exact ih' (ha.perm hp) hm (ih ha hm h)

end

end Sys2Proof.Machine

namespace Sys2Proof.Machine

/-! ## What is left of a DECODE as jobs -/

/-- The walks in the engines' hands, as jobs. -/
def engineJobs (es : List (Option Walk)) : List Job := es.filterMap fun e => e.map Job.walk

/-- The blocks no engine has taken, as jobs. -/
def DecodeEnv.openJobs (env : DecodeEnv) (taken : List Nat) : List Job :=
  ((List.range env.counts.length).filter fun i => !taken.contains i).map Job.block

/-- Every job the completion of a DECODE has to do. -/
def DecodeEnv.jobs (env : DecodeEnv) (s : State) : List Job := engineJobs s.engines ++ env.openJobs s.taken

section
variable {env : DecodeEnv} {js js' : List Job} {m m' : Memory}

theorem runs_nil : env.Runs [] m m' ↔ m = m' := ⟨fun | .nil _ => rfl, fun h => h ▸ .nil m⟩

theorem runs_append : env.Runs (js ++ js') m m' ↔ ∃ m₁, env.Runs js m m₁ ∧ env.Runs js' m₁ m' := by
  induction js generalizing m with
  | nil => simp [runs_nil]
  | cons j js ih =>
    simp only [List.cons_append, runs_cons, ih]
    exact ⟨fun ⟨m₁, h, m₂, h₁, h₂⟩ => ⟨m₂, ⟨m₁, h, h₁⟩, h₂⟩, fun ⟨m₂, ⟨m₁, h, h₁⟩, h₂⟩ => ⟨m₁, h, m₂, h₁, h₂⟩⟩

theorem finishEngines_ok {es : List (Option Walk)} : env.finishEngines es m = .ok m' ↔ env.Runs (engineJobs es) m m' := by
  induction es generalizing m with
  | nil => simp [engineJobs, runs_nil, DecodeEnv.finishEngines]
  | cons e es ih =>
    cases e with
    | none => exact ih
    | some w =>
      change _ ↔ env.Runs (.walk w :: engineJobs es) m m'
      rw [runs_cons, DecodeEnv.finishEngines, DecodeEnv.runJob]
      cases env.finishWalk (env.totalBits - w.p) w m with
      | error f => simp
      | ok m₁ => simp [ih]

theorem decodeBlocks_ok {is : List Nat} : env.decodeBlocks is m = .ok m' ↔ env.Runs (is.map .block) m m' := by
  induction is generalizing m with
  | nil => simp [runs_nil, DecodeEnv.decodeBlocks]
  | cons i is ih =>
    rw [List.map_cons, runs_cons, DecodeEnv.decodeBlocks, DecodeEnv.runJob]
    cases env.decodeBlock i m with
    | error f => simp
    | ok m₁ => simp [ih]

/-- The completion of a DECODE does its jobs. -/
theorem finishAll_ok {s : State} : env.finishAll s = .ok m' ↔ env.Runs (env.jobs s) s.mem m' := by
  simp only [DecodeEnv.jobs, DecodeEnv.openJobs, runs_append, ← finishEngines_ok, ← decodeBlocks_ok,
    DecodeEnv.finishAll]
  cases env.finishEngines s.engines s.mem <;> simp

theorem engineJobs_index (es : List (Option Walk)) : (engineJobs es).map Job.index = activeBlocks es := by
  simp only [engineJobs, activeBlocks, List.map_filterMap, Option.map_map]
  rfl

theorem openJobs_index (env : DecodeEnv) (taken : List Nat) :
    (env.openJobs taken).map Job.index = (List.range env.counts.length).filter fun i => !taken.contains i := by
  rw [DecodeEnv.openJobs, List.map_map]
  exact List.map_id _

/-- During a DECODE no two jobs are on the same block (R305). -/
theorem State.decodingOk.apart {s : State} (h : s.decodingOk env) : env.Apart (env.jobs s) where
  placed j hj := by
    obtain hj | hj := List.mem_append.mp hj
    · obtain ⟨x, hx, he⟩ := List.mem_filterMap.mp hj
      obtain ⟨w, rfl, rfl⟩ := Option.map_eq_some_iff.mp he
      exact h.placed hx
    · obtain ⟨i, hi, rfl⟩ := List.mem_map.mp hj
      exact List.mem_range.mp (List.mem_of_mem_filter hi)
  nodup := by
    obtain ⟨-, -, hactive, hsub, -, -⟩ := h
    rw [DecodeEnv.jobs, List.map_append, engineJobs_index, openJobs_index]
    refine hactive.append (List.nodup_range.filter _) fun i hi ho => ?_
    have := (List.mem_filter.mp ho).2
    simp [hsub i hi] at this

/-- Setting an engine changes its own job, and no other. -/
theorem engineJobs_set_perm {es : List (Option Walk)} {e : Nat} (he : e < es.length) (x : Option Walk) :
    (engineJobs (es.set e x)).Perm ((x.map Job.walk).toList ++ engineJobs (es.set e none)) := by
  simp only [engineJobs, List.set_eq_take_append_cons_drop, if_pos he, List.filterMap_append]
  cases x <;> simp

/-- The job of an engine's walk, beside those of the other engines. -/
theorem engineJobs_perm {es : List (Option Walk)} {e : Nat} {w : Walk} (he : es[e]? = some (some w)) :
    (engineJobs es).Perm (.walk w :: engineJobs (es.set e none)) := by
  obtain ⟨hlt, -⟩ := List.getElem?_eq_some_iff.mp he
  have hset := engineJobs_set_perm hlt (some w)
  rwa [set_engine_self he] at hset

/-- A block that is open is one job beside those that stay open when it is taken. -/
theorem openJobs_perm {taken : List Nat} {i : Nat} (hi : i < env.counts.length) (hn : taken.contains i = false) :
    (env.openJobs taken).Perm (.block i :: env.openJobs (i :: taken)) := by
  refine List.Perm.map Job.block (l₂ := i :: _) ((List.perm_ext_iff_of_nodup ?_ ?_).mpr fun k => ?_)
  · exact List.nodup_range.filter _
  · exact List.nodup_cons.mpr ⟨by simp, List.nodup_range.filter _⟩
  · by_cases hk : k = i <;> simp_all

/-! ## One step of an engine (R305) -/

theorem runJob_of_running {w w' : Walk} (h : env.iterate w m = .running w' m') :
    env.runJob (.walk w) m = env.runJob (.walk w') m' := by
  obtain ⟨hp, -, hw⟩ := iterate_running h
  have hp' : w'.p = w.p + 1 := by obtain ⟨_, rfl, -⟩ | ⟨_, -, -, rfl, -⟩ := hw <;> rfl
  rw [DecodeEnv.runJob, DecodeEnv.runJob, hp', show env.totalBits - w.p = env.totalBits - (w.p + 1) + 1 by omega,
    DecodeEnv.finishWalk, h]

theorem runJob_of_ended {w : Walk} (h : env.iterate w m = .ended m') : env.runJob (.walk w) m = .ok m' := by
  rw [DecodeEnv.runJob]
  cases hn : env.totalBits - w.p with
  | succ n => rw [DecodeEnv.finishWalk, h]
  | zero =>
    rw [DecodeEnv.finishWalk]
    split
    · rw [iterate_stream_exhausted ‹_› (by omega)] at h
      injection h with h
      rw [h]
    · rw [iterate_count_reached (by omega)] at h
      injection h with h
      rw [h]

theorem runJob_of_start {i : Nat} {w : Walk} (h : env.startWalk i m = .ok w) :
    env.runJob (.block i) m = env.runJob (.walk w) m := by
  simp only [DecodeEnv.runJob, DecodeEnv.decodeBlock, h]

end

theorem engineTurn_readOnly {s t : State} (hi : s.Inv) {e pick : Nat} (h : engineTurn e pick s = .next t) :
    readAlike s.mem t.mem := by
  obtain rfl | ⟨b, env, hc, hp, h⟩ := engineTurn_cases h
  · exact fun _ _ => rfl
  have hblocks := (checked_bounds hi.params hp).1
  have hd := hi.decoding hc hp
  obtain ⟨w, -, -, -, -, rfl⟩ | ⟨w, w', m, he, hr, rfl⟩ | ⟨w, m, he, hr, rfl⟩ := h
  · exact fun _ _ => rfl
  · exact (iterate_memory hblocks (hd.placed (List.mem_of_getElem? he)) (.inl ⟨w', hr⟩)).1
  · exact (iterate_memory hblocks (hd.placed (List.mem_of_getElem? he)) (.inr hr)).1

/-- A step of an engine leaves the checks of its DECODE as they were (R401). -/
theorem engineTurn_checks {s t : State} (hi : s.Inv) {e pick : Nat} {b : Bank} {env : DecodeEnv}
    (hp : invocationChecks b s = .pass env) (h : engineTurn e pick s = .next t) : invocationChecks b t = .pass env := by
  rw [engineTurn_eq h]
  exact invocationChecks_engines hi.params hp (engineTurn_readOnly hi h) _ _

theorem engineTurn_cur {s t : State} {e pick : Nat} (h : engineTurn e pick s = .next t) : t.cur = s.cur := by
  rw [engineTurn_eq h]

theorem engineTurn_decodingOk {s t : State} (hi : s.Inv) {e pick : Nat} {b : Bank} {env : DecodeEnv}
    (hc : s.cur = some (.decode b)) (hp : invocationChecks b s = .pass env) (h : engineTurn e pick s = .next t) :
    t.decodingOk env := by
  have he := (engineTurn_enginesOk hi h).2
  simpa only [engineTurn_cur h, hc, engineTurn_checks hi hp h] using he

/-- An engine's step does a part of one job: jobs of the state before, in some order, and jobs of the state after, in some
order, lead to the same memory. -/
theorem engineTurn_jobs {s t : State} {e pick : Nat} {b : Bank} {env : DecodeEnv} (hc : s.cur = some (.decode b))
    (hp : invocationChecks b s = .pass env) (h : engineTurn e pick s = .next t) :
    ∃ js js', (env.jobs s).Perm js ∧ js'.Perm (env.jobs t) ∧ ∀ m', env.Runs js s.mem m' → env.Runs js' t.mem m' := by
  obtain rfl | ⟨b', env', hc', hp', h⟩ := engineTurn_cases h
  · exact ⟨_, _, .refl _, .refl _, fun _ => id⟩
  obtain rfl : b = b' := by rw [hc] at hc'; cases hc'; rfl
  obtain rfl : env = env' := by rw [hp] at hp'; cases hp'; rfl
  obtain ⟨w, he, hpick, hnew, hw, rfl⟩ | ⟨w, w', m, he, hr, rfl⟩ | ⟨w, m, he, hr, rfl⟩ := h
  · obtain ⟨hlt, -⟩ := List.getElem?_eq_some_iff.mp he
    have hset := engineJobs_set_perm hlt (some w)
    rw [set_engine_self he] at hset
    refine ⟨_, _, ((openJobs_perm hpick hnew).append_left _).trans List.perm_middle, (hset.append_right _).symm,
      fun m' hm => ?_⟩
    obtain ⟨m₁, h₁, hs⟩ := runs_cons.mp hm
    exact .cons (runJob_of_start hw ▸ h₁) hs
  · obtain ⟨hlt, -⟩ := List.getElem?_eq_some_iff.mp he
    refine ⟨_, _, (engineJobs_perm he).append_right _, ((engineJobs_set_perm hlt (some w')).append_right _).symm,
      fun m' hm => ?_⟩
    obtain ⟨m₁, h₁, hs⟩ := runs_cons.mp hm
    exact .cons (runJob_of_running hr ▸ h₁) hs
  · refine ⟨_, _, (engineJobs_perm he).append_right _, .refl _, fun m' hm => ?_⟩
    obtain ⟨m₁, h₁, hs⟩ := runs_cons.mp hm
    rw [runJob_of_ended hr] at h₁
    cases h₁
    exact hs

/-- What is left of a DECODE ends in the same memory after a step of an engine (R314). -/
theorem engineTurn_finishAll {s t : State} (hi : s.Inv) {e pick : Nat} {b : Bank} {env : DecodeEnv} {m' : Memory}
    (hc : s.cur = some (.decode b)) (hp : invocationChecks b s = .pass env) (ht : engineTurn e pick s = .next t)
    (h : env.finishAll s = .ok m') : env.finishAll t = .ok m' := by
  have hf := checked_fits hi.params hp
  obtain ⟨js, js', hjs, hjs', hrun⟩ := engineTurn_jobs hc hp ht
  have hapart := (engineTurn_decodingOk hi hc hp ht).apart.perm hjs'.symm
  have hstart := runs_perm hf hjs (hi.decoding hc hp).apart hi.mem.1 (finishAll_ok.mp h)
  exact finishAll_ok.mpr (runs_perm hf hjs' hapart (engineTurn_memOkFor hi ht).1.1 (hrun m' hstart))

/-- The rule of a DECODE that passes its checks follows from the memory its blocks end in. -/
theorem decodeRule_congr {s t : State} {b : Bank} {env : DecodeEnv} {m : Memory}
    (hs : invocationChecks b s = .pass env) (ht : invocationChecks b t = .pass env) (hms : env.finishAll s = .ok m)
    (hmt : env.finishAll t = .ok m) (hd : t.decoded m env.counts = s.decoded m env.counts) :
    decodeRule b t = decodeRule b s := by
  unfold State.decoded at hd
  simp only [decodeRule, hs, ht, hms, hmt, hd]

/-- Of what a DECODE leaves beside memory nothing depends on what its engines have done. -/
theorem engineTurn_decoded {s t : State} (hi : s.Inv) {e pick : Nat} (h : engineTurn e pick s = .next t) (m : Memory)
    (counts : List Nat) : t.decoded m counts = s.decoded m counts := by
  have hlen : t.engines.length = s.engines.length := by
    rw [(engineTurn_enginesOk hi h).1, hi.engines.1, (engineTurn_sameBanks h).params]
  rw [engineTurn_eq h]
  simp only [State.decoded, State.idleEngines, hlen]

/-- Settles O50: what is left to do ends in the same memory; nothing else DECODE leaves depends on the engines. -/
theorem engineStepsKeepResult : Obligations.EngineStepsKeepResult := by
  unfold Obligations.EngineStepsKeepResult
  intro s s' t b e pick hi hc he ht
  obtain rfl | ⟨b', env, hc', hp, -⟩ := engineTurn_cases he
  · exact ht
  obtain rfl : b = b' := by rw [hc] at hc'; cases hc'; rfl
  obtain ⟨m, hm, -⟩ := exec_decode_next hp ht
  rw [exec_eq_finish, cmdRule, decodeRule_congr hp (engineTurn_checks hi hp he) hm
    (engineTurn_finishAll hi hc hp he hm) (engineTurn_decoded hi he m env.counts)]
  rwa [exec_eq_finish] at ht

end Sys2Proof.Machine

namespace Sys2Proof.Machine

/-! ## The codewords of a canonical table on the stream (R129, R315) -/

theorem canonical_le_maxlen {lens : List Nat} {tab : List Code} {m : Nat} (h : canonical lens = .ok (tab, m))
    {l : Nat} (hl : l ∈ lens) : l ≤ m := by
  obtain ⟨sym, hs⟩ := List.mem_iff_getElem?.mp hl
  by_cases h0 : l = 0
  · omega
  have hmem : (sym, l) ∈ sortedPairs lens := mem_sortedPairs.mpr ⟨hs, h0⟩
  have hord := sortedPairs_pairwise lens
  obtain ⟨he, -, -⟩ | ⟨s, l', rest, he, rfl, -⟩ := canonical_cases h <;> rw [he] at hmem
  · cases hmem
  · rw [he] at hord
    obtain heq | hin := List.mem_cons.mp hmem
    · cases heq; rfl
    · have := (List.pairwise_cons.mp hord).1 _ hin
      dsimp only at this
      omega

/-- A table no codeword of which begins another, whose codewords fit their lengths, the longest at most `maxlen`: what a
walk needs of a canonical table (R52, R247). -/
structure ReadableTable (tab : List Code) (maxlen : Nat) : Prop where
  apart : prefixFree tab
  fits : ∀ e ∈ tab, e.cw.toNat < 2 ^ e.len.toNat
  short : ∀ e ∈ tab, e.len.toNat ≤ maxlen

theorem canonical_readable {lens : List Nat} {tab : List Code} {m : Nat} (hlen : lens.length = 256)
    (h32 : ∀ l ∈ lens, l ≤ 32) (h : canonical lens = .ok (tab, m)) : ReadableTable tab m where
  apart := canonical_prefixFree hlen h32 h
  fits _ := canonical_codeword_fits hlen h32 h
  short e he := canonical_le_maxlen h (by
    rw [← canonical_tableLens hlen h32 h]
    exact List.mem_map_of_mem he)

theorem length_codeString (e : Code) : (codeString e).length = e.len.toNat := by
  simp [codeString]

/-- The leading `l` bits of a codeword, as a number. -/
def leading (e : Code) (l : Nat) : Nat := e.cw.toNat >>> (e.len.toNat - l)

/-- The leading bits grow by one bit of the codeword (R306). -/
theorem leading_succ {e : Code} {l : Nat} (hl : l < e.len.toNat) :
    leading e (l + 1) = 2 * leading e l + ((codeString e)[l]'(by rwa [length_codeString])).toNat := by
  have hbit : (codeString e)[l]'(by rwa [length_codeString]) = e.cw.getLsbD (e.len.toNat - 1 - l) := by
    simp [codeString]
  rw [hbit, getLsbD_toNat, leading, leading, show e.len.toNat - l = e.len.toNat - 1 - l + 1 by omega,
    show e.len.toNat - (l + 1) = e.len.toNat - 1 - l by omega, Nat.shiftRight_succ]
  omega

theorem leading_zero {e : Code} (he : e.cw.toNat < 2 ^ e.len.toNat) : leading e 0 = 0 := by
  rw [leading, Nat.sub_zero, Nat.shiftRight_eq_div_pow, Nat.div_eq_of_lt he]

theorem leading_len (e : Code) : leading e e.len.toNat = e.cw.toNat := by
  rw [leading, Nat.sub_self, Nat.shiftRight_zero]

/-- A codeword that is the leading bits of another begins it. -/
theorem codeString_prefix_of_leading {e f : Code} (hl : f.len.toNat ≤ e.len.toNat)
    (hc : f.cw.toNat = leading e f.len.toNat) : codeString f <+: codeString e := by
  rw [List.prefix_iff_eq_take]
  refine List.ext_getElem (by simpa [length_codeString] using hl) fun j hj hj' => ?_
  rw [length_codeString] at hj
  simp only [codeString, List.getElem_map, List.getElem_range, List.getElem_take, BitVec.getLsbD, hc, leading,
    Nat.testBit_shiftRight]
  congr 1
  omega

section
variable {tab : List Code} {maxlen x : Nat} {e : Code}

/-- While a codeword is read, the only entry with the bits read so far is its own, at its full length (R306). -/
theorem isEntry_leading (hd : ReadableTable tab maxlen) (hx : tab[x]? = some e) (he : e.len ≠ 0#8) {l j : Nat}
    (h0 : 0 < l) (hl : l ≤ e.len.toNat) : isEntry tab j l (leading e l) ↔ j = x ∧ l = e.len.toNat := by
  obtain ⟨hlt, rfl⟩ := List.getElem?_eq_some_iff.mp hx
  constructor
  · rintro ⟨f, hf, rfl, hc⟩
    obtain ⟨hjlt, rfl⟩ := List.getElem?_eq_some_iff.mp hf
    have hjx : j = x := by
      by_contra hne
      exact hd.apart j x hjlt hlt hne (by rintro h; simp [h] at h0) he (codeString_prefix_of_leading hl hc)
    subst hjx
    exact ⟨rfl, rfl⟩
  · rintro ⟨rfl, rfl⟩
    exact ⟨_, hx, rfl, (leading_len _).symm⟩

theorem findSymbol_codeword (hd : ReadableTable tab maxlen) (hx : tab[x]? = some e) (he : e.len ≠ 0#8) :
    findSymbol tab e.len.toNat e.cw.toNat = some x := by
  have h0 : 0 < e.len.toNat := Nat.pos_of_ne_zero fun h => he (BitVec.eq_of_toNat_eq h)
  have hiff := fun j => isEntry_leading (j := j) hd hx he h0 le_rfl
  rw [leading_len] at hiff
  exact findSymbol_of_unique ((hiff x).mpr ⟨rfl, rfl⟩) fun j hj => ((hiff j).mp hj).1

theorem findSymbol_leading (hd : ReadableTable tab maxlen) (hx : tab[x]? = some e) (he : e.len ≠ 0#8) {l : Nat}
    (h0 : 0 < l) (hl : l < e.len.toNat) : findSymbol tab l (leading e l) = none :=
  findSymbol_eq_none.mpr fun _ hj => hl.ne ((isEntry_leading hd hx he h0 hl.le).mp hj).2

end

/-! ## The walk through the codewords -/

/-- The walk with a symbol emitted and the cursor at `p` (R307). -/
def Walk.emitted (w : Walk) (p : Nat) : Walk := { w with p := p, c := 0, l := 0, k := w.k + 1, q := p }

/-- The stream holds the bits `bs` from position `p` on (R87, R88). -/
def DecodeEnv.streamHolds (env : DecodeEnv) (m : Memory) (p : Nat) (bs : List Bool) : Prop :=
  ∀ j (h : j < bs.length), streamBit m env.width (p + j) = some bs[j].toNat

section
variable {env : DecodeEnv} {w : Walk} {m : Memory} {p : Nat}

theorem streamHolds_append {bs bs' : List Bool} (h : env.streamHolds m p (bs ++ bs')) :
    env.streamHolds m p bs ∧ env.streamHolds m (p + bs.length) bs' := by
  refine ⟨fun j hj => ?_, fun j hj => ?_⟩
  · rw [h j (by rw [List.length_append]; omega), List.getElem_append_left hj]
  · rw [Nat.add_assoc, h (bs.length + j) (by rw [List.length_append]; omega), List.getElem_append_right (by omega)]
    simp

theorem iterate_of_streamBit {bit : Nat} (hk : w.k < env.count w.block) (hp : w.p < env.totalBits)
    (hb : streamBit m env.width w.p = some bit) : env.iterate w m = env.takeBit w m bit := by
  rw [DecodeEnv.iterate, if_pos hk, if_neg (by omega), hb]

/-- A walk that has read some leading bits of a codeword and finds the rest on the stream emits its symbol (R307). -/
theorem runJob_codeword {w : Walk} {x l : Nat} {e : Code} (hd : ReadableTable env.table env.maxlen)
    (hx : env.table[x]? = some e) (he : e.len ≠ 0#8) (hl : l < e.len.toNat) (hk : w.k < env.count w.block)
    (hwl : w.l = l) (hwc : w.c = leading e l) (hwp : w.p = p + l) (hp : p + e.len.toNat ≤ env.totalBits) (hs : env.streamHolds m p (codeString e)) :
    env.runJob (.walk w) m = env.runJob (.walk (w.emitted (p + e.len.toNat)))
      (m.setRange (Arr.base .outBuf + (w.base + w.k)) [BitVec.ofNat 8 x]) := by
  have hlen : l < (codeString e).length := by rwa [length_codeString]
  have hit : env.iterate w m = env.takeBit w m (codeString e)[l].toNat :=
    iterate_of_streamBit hk (by omega) (hwp ▸ hs l hlen)
  have hc : 2 * w.c + (codeString e)[l].toNat = leading e (l + 1) := by rw [hwc, leading_succ hl]
  obtain hlast | hmore : l + 1 = e.len.toNat ∨ l + 1 < e.len.toNat := by omega
  · have hf : findSymbol env.table (w.l + 1) (2 * w.c + (codeString e)[l].toNat) = some x := by
      rw [hc, hwl, hlast, leading_len, findSymbol_codeword hd hx he]
    rw [runJob_of_running (hit.trans (takeBit_emits hf)), hwp, Nat.add_assoc, hlast, Walk.emitted]
  · have hf : findSymbol env.table (w.l + 1) (2 * w.c + (codeString e)[l].toNat) = none := by
      rw [hc, hwl, findSymbol_leading hd hx he (by omega) hmore]
    have hmax := hd.short e (List.mem_of_getElem? hx)
    have hrun := hit.trans ((takeBit_unmatched hf).trans (if_neg (by omega)))
    rw [runJob_of_running hrun]
    exact runJob_codeword (w := { w with p := w.p + 1, c := _, l := w.l + 1 }) hd hx he hmore hk (by rw [hwl]) hc
      (by dsimp only; omega) hp hs
termination_by e.len.toNat - l

/-- One byte written and then those after it read as one write of all of them. -/
theorem read_setRange_cons (m : Memory) (a : Nat) (b : Byte) (bs : List Byte) (y : Nat) :
    ((m.setRange a [b]).setRange (a + 1) bs).read y = (m.setRange a (b :: bs)).read y := by
  rw [read_setRange, read_setRange, read_setRange, List.length_singleton, List.length_cons]
  rcases Nat.lt_trichotomy y a with h | rfl | h
  · rw [if_neg (by omega), if_neg (by omega), if_neg (by omega)]
  · rw [if_neg (by omega), if_pos (by omega), if_pos (by omega), Nat.sub_self]
    rfl
  · rw [if_neg (c := a ≤ y ∧ y < a + 1) (by omega), show y - a = y - (a + 1) + 1 by omega, List.getElem?_cons_succ]
    exact if_congr (by omega) rfl rfl

/-- An emitted symbol leaves what a DECODE reads alone (R98). -/
theorem output_readAlike (m : Memory) (k : Nat) (bs : List Byte) :
    readAlike m (m.setRange (Arr.base .outBuf + k) bs) := by
  intro x hx
  refine read_setRange_of_outside (.inl ?_)
  simp only [decodeReadOnly, Arr.base, Arr.window] at *
  omega

/-- The result entries of a block that ends OK depend on its cursor and its count of symbols only (R310). -/
theorem endBlock_ok_congr {v w : Walk} (hb : v.block = w.block) (hk : v.k = w.k) (hp : v.p = w.p) (m : Memory) :
    endBlock .ok v m = endBlock .ok w m := by
  simp only [endBlock, hb, hk, hp, if_true]

theorem getElem?_of_present {tab : List Code} {x : Nat} (h : (tab.getD x absentCode).len ≠ 0#8) :
    tab[x]? = some (tab.getD x absentCode) := by
  rw [List.getD_eq_getElem?_getD] at *
  cases hx : tab[x]? with
  | some e => rfl
  | none => simp [hx, absentCode] at h

/-- A walk that finds the codewords of the symbols it still has to emit on the stream emits them and ends OK (R315). -/
theorem runJob_symbols {xs : List Nat} {w : Walk} {m : Memory} (hd : ReadableTable env.table env.maxlen)
    (hb : env.totalBits ≤ 262144 * env.width) (hxs : ∀ x ∈ xs, (env.table.getD x absentCode).len ≠ 0#8)
    (hk : w.k + xs.length = env.count w.block) (hwc : w.c = 0) (hwl : w.l = 0)
    (hp : w.p + (encodeSymbols env.table xs).length ≤ env.totalBits)
    (hs : env.streamHolds m w.p (encodeSymbols env.table xs)) :
    ∃ m₁ : Memory, env.runJob (.walk w) m = .ok (endBlock .ok
        { w with p := w.p + (encodeSymbols env.table xs).length, k := w.k + xs.length } m₁) ∧
      ∀ y, m₁.read y = (m.setRange (Arr.base .outBuf + (w.base + w.k)) (xs.map (BitVec.ofNat 8))).read y := by
  induction xs generalizing w m with
  | nil =>
    refine ⟨m, runJob_of_ended (iterate_count_reached (by simpa using hk.ge)), fun y => ?_⟩
    exact (read_setRange_of_outside (by simp only [List.map_nil, List.length_nil]; omega)).symm
  | cons x xs ih =>
    obtain ⟨hx, hxs⟩ := List.forall_mem_cons.mp hxs
    have he := getElem?_of_present hx
    have henc : encodeSymbols env.table (x :: xs) =
      codeString (env.table.getD x absentCode) ++ encodeSymbols env.table xs := rfl
    rw [henc] at hp hs ⊢
    generalize env.table.getD x absentCode = e at hx he hp hs
    have hlen : 0 < e.len.toNat := Nat.pos_of_ne_zero fun h => hx (BitVec.eq_of_toNat_eq h)
    obtain ⟨hcode, hrest⟩ := streamHolds_append hs
    rw [List.length_append, length_codeString] at *
    rw [List.length_cons] at *
    have hfirst := runJob_codeword (p := w.p) (l := 0) hd he hx hlen (by omega) hwl
      (hwc.trans (leading_zero (hd.fits e (List.mem_of_getElem? he))).symm) rfl (by omega) hcode
    have hkept : env.streamHolds (m.setRange (Arr.base .outBuf + (w.base + w.k)) [BitVec.ofNat 8 x])
        (w.p + e.len.toNat) (encodeSymbols env.table xs) := fun j hj =>
      (streamBit_alike hb (output_readAlike m _ _) (by omega)).trans (hrest j hj)
    obtain ⟨m₁, hrun, hread⟩ := ih (w := w.emitted (w.p + e.len.toNat)) hxs
      (by simp only [Walk.emitted]; omega) rfl rfl (by simp only [Walk.emitted]; omega) hkept
    refine ⟨m₁, hfirst.trans (hrun.trans (congrArg Except.ok (endBlock_ok_congr ?_ ?_ ?_ m₁))), fun y => ?_⟩
    · rfl
    · simp only [Walk.emitted]; omega
    · simp only [Walk.emitted]; omega
    · rw [hread, List.map_cons, ← read_setRange_cons]
      rfl

end

theorem startWalk_of_offset (env : DecodeEnv) {m : Memory} {i : Nat} {v : Word} (h : m.readElem .blkOffset i = some v) :
    env.startWalk i m = .ok ⟨i, v.toNat, 0, 0, 0, v.toNat, env.base i⟩ := by
  rw [DecodeEnv.startWalk, h]

/-- Settles O47: the block's walk emits symbol after symbol, each at the end of its codeword. -/
theorem decodeRoundTrip : Obligations.DecodeRoundTrip := by
  unfold Obligations.DecodeRoundTrip
  rintro lens tab ml env m i off xs hlen h32 hcan rfl rfl - hbits hi hcount hxs hoff hstart hfit hstream
  have hs : env.streamHolds m off (encodeSymbols env.table xs) := fun j hj => by
    obtain ⟨v, hv, hbit⟩ := hstream j hj
    rw [streamBit_eq hv, hbit]
  have hp : (BitVec.ofNat 32 off).toNat = off := by
    rw [BitVec.toNat_ofNat, Nat.mod_eq_of_lt hoff]
  have hw := startWalk_of_offset env hstart
  rw [hp] at hw
  obtain ⟨m₁, hrun, hread⟩ := runJob_symbols (w := ⟨i, off, 0, 0, 0, off, env.base i⟩)
    (canonical_readable hlen h32 hcan) hbits (fun x hx => (hxs x hx).2) (by simpa using hcount.symm) rfl rfl hfit hs
  rw [← runJob_of_start hw, Nat.zero_add] at hrun
  replace hread : ∀ y, m₁.read y = (m.setRange (Arr.base .outBuf + env.base i) (xs.map (BitVec.ofNat 8))).read y :=
    hread
  obtain ⟨hst, herr, hdone, hend⟩ := endBlock_entries .ok
    (⟨i, off + (encodeSymbols env.table xs).length, 0, 0, xs.length, off, env.base i⟩ : Walk) m₁ hi
  refine ⟨_, hrun, hst, herr, hdone, hend, fun j hj => ?_⟩
  rw [read_endBlock, hread, read_setRange, if_pos (by rw [List.length_map]; omega),
    show Arr.base .outBuf + (env.base i + j) - (Arr.base .outBuf + env.base i) = j by omega]
  · simp [hj]
  · simp only [List.forall_mem_cons, List.not_mem_nil, false_imp_iff, implies_true, and_true, Arr.base]
    omega

end Sys2Proof.Machine

namespace Sys2Proof.Machine

/-! ## The inputs of a command in progress (R96, R98, R401) -/

/-- The input registers that no command writes (R152). -/
def State.fixedInputs (s : State) : Word × Word × Word × Word × Word :=
  (s.dataLen, s.streamWords, s.trailing, s.wordWidth, s.numBlocks)

/-- On the way from `s` to `t` no input of the command `i` changes: the input registers, what a DECODE only reads, and the
frequency list, but for what TREE and BUILD write (LEN_SIZE and LEN_BUF) and COUNT and BUILD (the frequency list). -/
structure SameInputs (i : Instr) (s t : State) : Prop where
  regs : t.fixedInputs = s.fixedInputs
  mem : ∀ x, decodeReadOnly x → x < Arr.base .lenBuf ∨ Arr.base .lenBuf + 256 ≤ x → t.mem.read x = s.mem.read x
  lens : i ≠ .tree → (∀ b, i ≠ .build b) → t.lenSize = s.lenSize ∧ readAlike s.mem t.mem
  freq : i ≠ .count → (∀ b, i ≠ .build b) → t.freq = s.freq

section
variable {i j : Instr} {b : Bank} {s t u : State}

theorem SameInputs.of_readAlike (hm : readAlike s.mem t.mem) (hr : t.fixedInputs = s.fixedInputs)
    (hl : t.lenSize = s.lenSize) (hf : t.freq = s.freq) : SameInputs i s t :=
  ⟨hr, fun x hx _ => hm x hx, fun _ _ => ⟨hl, hm⟩, fun _ _ => hf⟩

theorem SameInputs.refl : SameInputs i s s := .of_readAlike (fun _ _ => rfl) rfl rfl rfl

/-- Of stages that keep their own inputs BUILD is made (R250). -/
theorem SameInputs.build (h : SameInputs i s t) (h' : SameInputs j t u) : SameInputs (.build b) s u :=
  ⟨h'.regs.trans h.regs, fun x hx ho => (h'.mem x hx ho).trans (h.mem x hx ho), fun _ hb => absurd rfl (hb b),
    fun _ hb => absurd rfl (hb b)⟩

theorem setBank_sameInputs (tab : List Code) (info : TableInfo) : SameInputs i s (s.setBank b tab info) := by
  cases b <;> exact .of_readAlike (fun _ _ => rfl) rfl rfl rfl

theorem freq_sameInputs (l : List FreqEntry) : SameInputs .count s { s with freq := l } :=
  ⟨rfl, fun _ _ _ => rfl, fun _ _ => ⟨rfl, fun _ _ => rfl⟩, fun h => absurd rfl h⟩

theorem treeCmd_sameInputs (s : State) : SameInputs .tree s (treeCmd s) :=
  ⟨rfl, fun _ _ ho => read_setRange_of_outside (by simpa [treeLens, alphabetSize] using ho),
    fun h => absurd rfl h, fun _ _ => rfl⟩

theorem countCmd_sameInputs (s : State) : (countCmd s).leaves (SameInputs .count s) := by
  obtain ⟨-, e⟩ | ⟨-, ⟨f, -, e⟩ | ⟨data, -, e⟩⟩ := countCmd_cases s <;> rw [e]
  · exact .refl
  · trivial
  · exact freq_sameInputs _

theorem assignCmd_sameInputs (b : Bank) (s : State) : (assignCmd b s).leaves (SameInputs (.assign b) s) := by
  obtain ⟨-, e⟩ | ⟨-, ⟨f, -, e⟩ | ⟨bytes, -, ⟨sym, -, e⟩ | ⟨-, ⟨code, sym, -, e⟩ | ⟨tab, m, -, e⟩⟩⟩⟩ :=
    assignCmd_cases b s <;> rw [e]
  · exact .refl
  · trivial
  · exact .refl
  · exact .refl
  · exact setBank_sameInputs tab _

theorem buildCmd_sameInputs (b : Bank) (s : State) : (buildCmd b s).leaves (SameInputs (.build b) s) := by
  obtain ⟨-, e⟩ | ⟨f, -, e⟩ | ⟨-, data, -, e⟩ := buildCmd_cases b s <;> rw [e]
  · exact .refl
  · trivial
  · have hs : SameInputs (.build b) s (treeCmd { s with freq := countList data }) :=
      (freq_sameInputs _).build (treeCmd_sameInputs _)
    exact CmdResult.leaves_mono (fun u hu => hs.build hu) (assignCmd_sameInputs b _)

theorem compareCmd_sameInputs (s : State) : (compareCmd s).leaves (SameInputs .compare s) := by
  obtain ⟨-, e⟩ | ⟨-, -, e⟩ | ⟨-, -, e⟩ := compareCmd_cases s <;> rw [e]
  · exact .refl
  · exact .refl
  · exact .of_readAlike (fun _ _ => rfl) rfl rfl rfl

/-- DECODE writes neither a register of its inputs nor memory that it reads (R98). -/
theorem decodeRule_sameInputs (hi : s.Inv) (hc : s.cur = some (.decode b)) :
    (decodeRule b s).leaves (SameInputs (.decode b) s) := by
  have decoded : ∀ env m, invocationChecks b s = .pass env → env.finishAll s = .ok m →
      SameInputs (.decode b) s (s.decoded m env.counts) := fun env m hp hm =>
    .of_readAlike (finishAll_keeps (decode_keeps_readOnly (checked_bounds hi.params hp).1 s.mem)
      (fun w => (hi.decoding hc hp).placed) (fun _ _ => rfl) hm) rfl rfl rfl
  obtain ⟨f, -, e⟩ | ⟨code, info, -, e⟩ | ⟨env, hp, ⟨f, -, e⟩ | ⟨m, hm, ⟨-, e⟩ | ⟨i, rest, -, e⟩⟩⟩ :=
    decodeRule_cases b s <;> rw [e]
  · trivial
  · exact .refl
  · trivial
  · exact decoded env m hp hm
  · exact decoded env m hp hm

theorem cmdRule_sameInputs (hi : s.Inv) (hc : s.cur = some i) : (cmdRule i s).leaves (SameInputs i s) := by
  cases i with
  | assign b => exact assignCmd_sameInputs b s
  | count => exact countCmd_sameInputs s
  | tree => exact treeCmd_sameInputs s
  | build b => exact buildCmd_sameInputs b s
  | decode b => exact decodeRule_sameInputs hi hc
  | compare => exact compareCmd_sameInputs s

theorem exec_sameInputs (hi : s.Inv) (hc : s.cur = some i) (h : exec i s = .next t) : SameInputs i s t := by
  obtain ⟨u, hu, -, rfl | ⟨code, info, rfl⟩⟩ := exec_completes (cmdRule_sameInputs hi hc) h
  · exact ⟨hu.regs, hu.mem, hu.lens, hu.freq⟩
  · exact ⟨hu.regs, hu.mem, hu.lens, hu.freq⟩

/-- A host write while a command is in progress reaches STATUS and CTRL only (R401, R402). -/
theorem writeLocation_busy (hb : s.busy = true) (v : Word) (l : Location) :
    s.writeLocation v l =
      { s with status := (s.writeLocation v l).status, ie := (s.writeLocation v l).ie } := by
  obtain e | ⟨-, e⟩ | ⟨i, -, hb', -, -⟩ | ⟨-, hb', -, -⟩ | ⟨-, e⟩ | ⟨-, e⟩ | ⟨r, -, -, hb', -⟩ | ⟨a, i, -, -, hb', -⟩ :=
    writeLocation_cases v l s
  · rw [e]
  · rw [e]; rfl
  · rw [hb] at hb'; cases hb'
  · rw [hb] at hb'; cases hb'
  · rw [e]; rfl
  · rw [e]
  · rw [hb] at hb'; cases hb'
  · rw [hb] at hb'; cases hb'

theorem hostTurn_sameInputs (hb : s.busy = true) (h : hostTurn s = .next t) : SameInputs i s t := by
  obtain ⟨-, rfl⟩ | ⟨off, n, rest, -, -, rfl⟩ | ⟨off, n, v, rest, -, -, rfl⟩ | ⟨rest, -, rfl⟩ := hostTurn_cases h
  · exact .refl
  · exact .of_readAlike (fun _ _ => rfl) rfl rfl rfl
  · rw [State.hostWrite, writeLocation_busy hb]
    exact .of_readAlike (fun _ _ => rfl) rfl rfl rfl
  · exact .of_readAlike (fun _ _ => rfl) rfl rfl rfl

theorem engineTurn_sameInputs (hi : s.Inv) {e pick : Nat} (h : engineTurn e pick s = .next t) : SameInputs i s t := by
  have hm := engineTurn_readOnly hi h
  rw [engineTurn_eq h]
  exact .of_readAlike hm rfl rfl rfl

/-- No turn but the reset input changes an input of the command in progress. -/
theorem runTurn_sameInputs (hi : s.Inv) (hc : s.cur = some i) {turn : Turn} (hr : turn ≠ .reset)
    (h : runTurn turn s = .next t) : SameInputs i s t := by
  obtain ⟨-, h⟩ | ⟨-, hc', -⟩ | ⟨i', -, hc', h⟩ | ⟨e, pick, -, h⟩ | ⟨hr', -⟩ := runTurn_cases h
  · exact hostTurn_sameInputs (by simp [State.busy, hc]) h
  · rw [hc] at hc'; cases hc'
  · rw [hc] at hc'; cases hc'
    exact exec_sameInputs hi hc h
  · exact engineTurn_sameInputs hi h
  · exact absurd hr' hr

end

/-- A step that the schedule gives to another agent than the reset input is a turn of another agent. -/
theorem step_runTurn_of_not_reset {s t : State} (h : step s = .next t) (hr : s.schedule.head? ≠ some .reset) :
    ∃ rest turn, turn ≠ .reset ∧ runTurn turn { s with schedule := rest } = .next t := by
  obtain ⟨s₀, turn, h, ⟨-, rfl, rfl⟩ | ⟨rest, hs, rfl⟩⟩ := step_cases h
  · exact ⟨s₀.schedule, _, by obtain hd | hd := defaultTurn_cases s₀ <;> rw [hd] <;> decide, h⟩
  · exact ⟨rest, turn, fun e => hr (by rw [hs, e]; rfl), h⟩

/-- The bytes of the input arrays other than LEN_BUF lie where no command writes. -/
theorem input_readOnly {p : Params} {a : Arr} {i : Nat}
    (ha : a ∈ [Arr.dataBuf, Arr.stream, Arr.blkOffset, Arr.blkCount]) (hi : i < a.bytes p) :
    decodeReadOnly (a.base + i) ∧ (a.base + i < Arr.base .lenBuf ∨ Arr.base .lenBuf + 256 ≤ a.base + i) := by
  have hw : i < a.window := hi.trans_le (Nat.min_le_left _ _)
  simp only [List.mem_cons, List.not_mem_nil, or_false] at ha
  obtain rfl | rfl | rfl | rfl := ha <;> simp only [decodeReadOnly, Arr.base, Arr.window] at * <;> omega

/-- Settles O59: every turn but the reset input keeps the inputs of the command in progress. -/
theorem inputsFixedWhileBusy : Obligations.InputsFixedWhileBusy := by
  unfold Obligations.InputsFixedWhileBusy
  intro s t hi hb h hr
  obtain ⟨i, hc⟩ := Option.isSome_iff_exists.mp hb
  obtain ⟨rest, turn, hturn, h⟩ := step_runTurn_of_not_reset h hr
  have hs := runTurn_sameInputs (s := { s with schedule := rest }) (hi.withSchedule rest) hc hturn h
  have hne : ∀ {j : Instr}, s.cur ≠ some j → i ≠ j := fun hj e => hj (e ▸ hc)
  have hregs := hs.regs
  simp only [State.fixedInputs, Prod.mk.injEq] at hregs
  obtain ⟨hdata, hwords, htrail, hwidth, hblocks⟩ := hregs
  refine ⟨hdata, hwords, htrail, hwidth, hblocks, fun a k ha hk => ?arrays,
    fun ht hbd => ?lens, fun hcount hbd => hs.freq (hne hcount) fun b => hne (hbd b)⟩
  case arrays =>
    obtain ⟨hro, hout⟩ := input_readOnly ha hk
    exact hs.mem _ hro hout
  case lens =>
    obtain ⟨hsize, hmem⟩ := hs.lens (hne ht) fun b => hne (hbd b)
    exact ⟨hsize, fun k hk => hmem _ (.inl (by simp only [Arr.base]; omega))⟩

end Sys2Proof.Machine

namespace Sys2Proof

/-! ## A command word and its three fields (R120) -/

/-- A word is its fields put together: reserved bits 31:5, TB in bit 4, OP in bits 3:0. -/
theorem append_wordFields (v : Word) :
    v.extractLsb' 5 27 ++ BitVec.ofBool (v.getLsbD 4) ++ v.extractLsb' 0 4 = v := by
  have high : v.extractLsb' 5 27 ++ BitVec.ofBool (v.getLsbD 4) = v.extractLsb' 4 28 := by
    have hbit : BitVec.ofBool (v.getLsbD 4) = v.extractLsb' 4 1 := by
      ext k hk
      obtain rfl : k = 0 := by omega
      simp
    rw [hbit]
    exact BitVec.extractLsb'_append_extractLsb'_eq_extractLsb' rfl
  rw [high]
  exact BitVec.extractLsb'_append_extractLsb'

theorem Bank.bit_ofBit (tb : Bool) : (Bank.ofBit tb).bit = tb := by cases tb <;> rfl

/-- What the decoder has found in the fields of a word that it gives a command (R125). -/
theorem decodeCmd_fields {v : Word} {i : Instr} (h : decodeCmd v = some i) :
    v.extractLsb' 5 27 = 0#27 ∧ v.getLsbD 4 = i.tb ∧ v.extractLsb' 0 4 = i.op := by
  simp only [decodeCmd] at h
  split_ifs at h with h0 hassign hcount hcountTb htree htreeTb hbuild hdecode hcompare hcompareTb
  all_goals
    obtain rfl := Option.some.inj h
    simp_all [Instr.tb, Instr.op, Bank.bit_ofBit]

/-- The decoder refuses a word for its reserved bits, or for its OP and TB (R123). -/
theorem decodeCmd_eq_none_iff (v : Word) :
    decodeCmd v = none ↔
      (v.extractLsb' 0 4 = 0#4 ∨ 7 ≤ (v.extractLsb' 0 4).toNat ∨ v.extractLsb' 5 27 ≠ 0#27 ∨
        (v.extractLsb' 0 4 ∈ [2#4, 3#4, 6#4] ∧ v.getLsbD 4 = true)) := by
  unfold decodeCmd
  by_cases h0 : v.extractLsb' 5 27 = 0#27
  case neg => simp [h0]
  case pos =>
    rw [h0]
    generalize v.extractLsb' 0 4 = op
    generalize v.getLsbD 4 = tb
    revert op tb
    decide

/-! ## Decoder and encoder (R124, R125) -/

theorem decodeCmd_encode (i : Instr) : decodeCmd (encode i) = some i := by
  cases i with
  | assign tb => cases tb <;> rfl
  | count => rfl
  | tree => rfl
  | build tb => cases tb <;> rfl
  | decode tb => cases tb <;> rfl
  | compare => rfl

theorem encode_of_decodeCmd {v : Word} {i : Instr} (h : decodeCmd v = some i) : encode i = v := by
  obtain ⟨hreserved, htb, hop⟩ := decodeCmd_fields h
  calc encode i = v.extractLsb' 5 27 ++ BitVec.ofBool (v.getLsbD 4) ++ v.extractLsb' 0 4 := by
        rw [hreserved, htb, hop]; rfl
    _ = v := append_wordFields v

/-- Settles O2: the encoder inverts the decoder on the fields, and the decoder the encoder on each command. -/
theorem decodeIffEncode : Obligations.DecodeIffEncode := by
  unfold Obligations.DecodeIffEncode
  exact fun v i => ⟨encode_of_decodeCmd, fun h => h ▸ decodeCmd_encode i⟩

/-! ## The table of legal words (R126) -/

/-- The commands in the order of R126's table. -/
def allCommands : List Instr :=
  [.assign .bank0, .assign .bank1, .count, .tree, .build .bank0, .build .bank1, .decode .bank0, .decode .bank1, .compare]

theorem mem_allCommands (i : Instr) : i ∈ allCommands := by
  cases i with
  | assign tb => cases tb <;> decide
  | count => decide
  | tree => decide
  | build tb => cases tb <;> decide
  | decode tb => cases tb <;> decide
  | compare => decide

theorem encode_allCommands :
    allCommands.map encode = [0x01#32, 0x11#32, 0x02#32, 0x03#32, 0x04#32, 0x14#32, 0x05#32, 0x15#32, 0x06#32] := by
  decide

/-- A word is legal exactly when it is the word of one of the commands. -/
theorem decodeCmd_isSome_iff (v : Word) : (decodeCmd v).isSome = true ↔ v ∈ allCommands.map encode := by
  rw [Option.isSome_iff_exists, List.mem_map]
  exact exists_congr fun i => (decodeIffEncode v i).trans (and_iff_right (mem_allCommands i)).symm

/-- Settles O3: a legal word is one of the nine encodings, and each of the nine decodes to what it encodes. -/
theorem nineLegalWords : Obligations.NineLegalWords := by
  unfold Obligations.NineLegalWords
  refine ⟨fun v => encode_allCommands ▸ decodeCmd_isSome_iff v, ?_, ?_, ?_, ?_, ?_, ?_, ?_, ?_, ?_⟩
  all_goals exact (decodeIffEncode _ _).mpr (by decide)

/-- Settles O1: each word is the encoding of its command. -/
theorem sampleWordsDecode : Obligations.SampleWordsDecode := by
  unfold Obligations.SampleWordsDecode
  refine ⟨?_, ?_, ?_, ?_, ?_, ?_⟩
  all_goals exact (decodeIffEncode _ _).mpr (by decide)

end Sys2Proof

namespace Sys2Proof.Machine

/-! ## A write of an illegal word (R155, R157) -/

/-- With no command in progress CommandWrite rejects a word that does not decode. -/
theorem commandWrite_illegal {v : Word} {s : State} (hc : s.cur = none) (hv : decodeCmd v = none) :
    s.commandWrite v = s.reject v := by
  simp [State.commandWrite, State.busy, hc, hv]

/-- Settles O4: the decoder's refusals, and rejection writes STATUS and ERR_INFO only. -/
theorem illegalWordsRejected : Obligations.IllegalWordsRejected := by
  unfold Obligations.IllegalWordsRejected
  exact ⟨decodeCmd_eq_none_iff, fun v s hv hc =>
    ⟨(s.reject v).status, commandWrite_illegal hc hv, rfl, rfl, rfl⟩⟩

end Sys2Proof.Machine

namespace Sys2Proof.Machine

/-! ## Faults: the array a command finds unwritten (R392) -/

/-- The array whose unwritten element a fault names. -/
def Fault.array : Fault → Arr
  | .unwritten a _ => a

theorem takeBytes_fault {arr : Arr} {i n : Nat} {m : Memory} {f : Fault} (h : takeBytes arr i n m = .error f) :
    f.array = arr := by
  induction n generalizing i m with
  | zero => rw [takeBytes] at h; cases h
  | succ n ih =>
    cases m with
    | nil => cases h; rfl
    | cons c m =>
      rw [takeBytes] at h
      split at h
      · split at h
        · cases h; exact ih ‹_›
        · cases h
      · cases h; rfl

theorem readBytes_fault {m : Memory} {arr : Arr} {i n : Nat} {f : Fault} (h : m.readBytes arr i n = .error f) :
    f.array = arr :=
  takeBytes_fault h

theorem readElems_fault {m : Memory} {arr : Arr} {i n : Nat} {f : Fault} (h : m.readElems arr i n = .error f) :
    f.array = arr := by
  induction n generalizing i with
  | zero => cases h
  | succ n ih =>
    rw [Memory.readElems] at h
    split at h
    · cases h; rfl
    · split at h
      · cases h; exact ih ‹_›
      · cases h

/-! ## LEN_BUF after TREE: BUILD's ASSIGN stage finds it written (R250) -/

theorem takeBytes_cellsAt (arr : Arr) (i : Nat) (bs : List Byte) (rest : Memory) :
    takeBytes arr i bs.length (cellsAt (arr.base + i) bs ++ rest) = .ok bs := by
  induction bs generalizing i with
  | nil => rw [List.length_nil, takeBytes]
  | cons b bs ih =>
    rw [cellsAt, List.cons_append, List.length_cons, takeBytes, if_pos rfl, Nat.add_assoc, ih]

/-- Bytes just written are read back, also from a memory that is not in canonical form: the read passes over the cells
below the range, and the cells of the range come next. -/
theorem readBytes_setRange (m : Memory) (arr : Arr) (i : Nat) (bs : List Byte) :
    (m.setRange (arr.base + i) bs).readBytes arr i bs.length = .ok bs := by
  cases bs with
  | nil => rw [Memory.readBytes, List.length_nil, takeBytes]
  | cons b bs =>
    have hbelow : ∀ c ∈ m.filter (fun c => decide (c.1 < arr.base + i)), decide (c.1 < arr.base + i) = true :=
      fun c hc => (List.mem_filter.mp hc).2
    rw [Memory.readBytes, Memory.setRange, List.append_assoc, List.dropWhile_append_of_pos hbelow, cellsAt,
      List.cons_append, List.dropWhile_cons_of_neg (by simp)]
    exact takeBytes_cellsAt arr i (b :: bs) _

theorem readBytes_treeCmd (s : State) :
    (treeCmd s).mem.readBytes .lenBuf 0 alphabetSize = .ok (treeLens s.freq) := by
  have hlen : (treeLens s.freq).length = alphabetSize := by simp [treeLens]
  exact hlen ▸ readBytes_setRange s.mem .lenBuf 0 (treeLens s.freq)

/-! ## Where a DECODE faults -/

theorem invocationChecks_fault {b : Bank} {s : State} {f : Fault} (h : invocationChecks b s = .fault f) :
    f.array = .blkCount := by
  unfold invocationChecks at h
  iterate 4
    split at h
    · cases h
  split at h
  · cases h; exact readElems_fault ‹_›
  · split at h
    · cases h
    · split at h <;> cases h

section
variable {env : DecodeEnv} {m : Memory} {f : Fault}

theorem startWalk_fault {i : Nat} (h : env.startWalk i m = .error f) : f.array = .blkOffset := by
  unfold DecodeEnv.startWalk at h
  split at h
  · cases h; rfl
  · cases h

theorem iterate_fault {w : Walk} (h : env.iterate w m = .fault f) : f.array = .stream := by
  obtain ⟨-, e⟩ | ⟨-, -, e⟩ | ⟨-, -, ⟨-, e⟩ | ⟨bit, -, e⟩⟩ := iterate_cases env w m <;> rw [e] at h
  · cases h
  · cases h
  · cases h; rfl
  · obtain ⟨sym, -, e⟩ | ⟨-, -, e⟩ | ⟨-, -, e⟩ := takeBit_cases env w m bit <;> rw [e] at h <;> cases h

theorem finishWalk_fault {n : Nat} {w : Walk} (h : env.finishWalk n w m = .error f) : f.array = .stream := by
  induction n generalizing w m with
  | zero => cases h
  | succ n ih =>
    rw [DecodeEnv.finishWalk] at h
    split at h
    · cases h
    · cases h; exact iterate_fault ‹_›
    · exact ih h

theorem decodeBlock_fault {i : Nat} (h : env.decodeBlock i m = .error f) :
    f.array = .blkOffset ∨ f.array = .stream := by
  unfold DecodeEnv.decodeBlock at h
  split at h
  · cases h; exact .inl (startWalk_fault ‹_›)
  · exact .inr (finishWalk_fault h)

theorem finishEngines_fault {es : List (Option Walk)} (h : env.finishEngines es m = .error f) : f.array = .stream := by
  induction es generalizing m with
  | nil => cases h
  | cons e es ih =>
    cases e with
    | none => exact ih h
    | some w =>
      rw [DecodeEnv.finishEngines] at h
      split at h
      · cases h; exact finishWalk_fault ‹_›
      · exact ih h

theorem decodeBlocks_fault {is : List Nat} (h : env.decodeBlocks is m = .error f) :
    f.array = .blkOffset ∨ f.array = .stream := by
  induction is generalizing m with
  | nil => cases h
  | cons i is ih =>
    rw [DecodeEnv.decodeBlocks] at h
    split at h
    · cases h; exact decodeBlock_fault ‹_›
    · exact ih h

theorem finishAll_fault {s : State} (h : env.finishAll s = .error f) : f.array = .blkOffset ∨ f.array = .stream := by
  unfold DecodeEnv.finishAll at h
  split at h
  · cases h; exact .inr (finishEngines_fault ‹_›)
  · exact decodeBlocks_fault h

end

/-! ## Where a command faults (R392) -/

section
variable {b : Bank} {s : State} {f : Fault}

theorem countCmd_fault (h : countCmd s = .fault f) : f.array = .dataBuf := by
  obtain ⟨-, e⟩ | ⟨-, ⟨g, hr, e⟩ | ⟨data, -, e⟩⟩ := countCmd_cases s <;> rw [e] at h <;> cases h
  exact readBytes_fault hr

/-- ASSIGN faults only where its read of LEN_BUF does. -/
theorem assignCmd_fault (h : assignCmd b s = .fault f) : s.mem.readBytes .lenBuf 0 alphabetSize = .error f := by
  obtain ⟨-, e⟩ | ⟨-, ⟨g, hr, e⟩ | ⟨bytes, -, ⟨sym, -, e⟩ | ⟨-, ⟨code, sym, -, e⟩ | ⟨t, n, -, e⟩⟩⟩⟩ :=
    assignCmd_cases b s <;> rw [e] at h <;> cases h
  exact hr

/-- BUILD faults on DATA_BUF only, since TREE has written all of LEN_BUF. -/
theorem buildCmd_fault (h : buildCmd b s = .fault f) : f.array = .dataBuf := by
  obtain ⟨-, e⟩ | ⟨g, hr, e⟩ | ⟨-, data, -, e⟩ := buildCmd_cases b s <;> rw [e] at h
  · cases h
  · cases h; exact readBytes_fault hr
  · have hlen := assignCmd_fault h
    rw [readBytes_treeCmd] at hlen
    cases hlen

theorem compareCmd_ne_fault (s : State) (f : Fault) : compareCmd s ≠ .fault f := by
  obtain ⟨-, e⟩ | ⟨-, -, e⟩ | ⟨-, -, e⟩ := compareCmd_cases s <;> rw [e] <;> exact nofun

theorem decodeRule_fault (h : decodeRule b s = .fault f) :
    f.array = .blkCount ∨ f.array = .blkOffset ∨ f.array = .stream := by
  obtain ⟨g, hc, e⟩ | ⟨code, info, -, e⟩ | ⟨env, -, ⟨g, hf, e⟩ | ⟨m, -, ⟨-, e⟩ | ⟨i, rest, -, e⟩⟩⟩ :=
    decodeRule_cases b s <;> rw [e] at h <;> cases h
  · exact .inl (invocationChecks_fault hc)
  · exact .inr (finishAll_fault hf)

theorem cmdRule_fault {i : Instr} (h : cmdRule i s = .fault f) : readsArray i f.array = true := by
  cases i with
  | assign b => simp [readsArray, readBytes_fault (assignCmd_fault h)]
  | count => simp [readsArray, countCmd_fault h]
  | tree => cases h
  | build b => simp [readsArray, buildCmd_fault h]
  | decode b => simpa [readsArray, or_assoc] using decodeRule_fault h
  | compare => exact absurd h (compareCmd_ne_fault s f)

end

/-- Settles O21: the rule's result is completed, or it is the fault of an array that the command reads. -/
theorem everyCommandCompletes : Obligations.EveryCommandCompletes := by
  unfold Obligations.EveryCommandCompletes
  intro i s
  rw [exec_eq_finish]
  cases h : cmdRule i s with
  | done t => exact .inl ⟨t.complete, rfl, rfl, rfl⟩
  | error t code info => exact .inl ⟨t.completeError code info, rfl, rfl, rfl⟩
  | fault f =>
    obtain ⟨a, n⟩ := f
    exact .inr ⟨a, n, rfl, cmdRule_fault h⟩

end Sys2Proof.Machine

namespace Sys2Proof.Machine

/-! ## Whose turn a step is (log 1) -/

section
variable {s : State} {i : Instr}

theorem step_scheduled {t : Turn} {ts : List Turn} (hs : s.schedule = t :: ts) :
    step s = runTurn t { s with schedule := ts } := by
  simp [step, takeTurn, hs]

theorem step_default (hs : s.schedule = []) : step s = runTurn s.defaultTurn s := by
  simp [step, takeTurn, hs]

theorem controllerTurn_busy (hc : s.cur = some i) : controllerTurn s = exec i s := by
  simp [controllerTurn, hc]

theorem step_busy (hc : s.cur = some i) (hs : s.schedule = []) : step s = exec i s := by
  have hturn : s.defaultTurn = .controller := by simp [State.defaultTurn, State.busy, hc]
  rw [step_default hs, hturn]
  exact controllerTurn_busy hc

theorem step_idle (hc : s.cur = none) (hs : s.schedule = []) : step s = hostTurn s := by
  have hturn : s.defaultTurn = .host := by simp [State.defaultTurn, State.busy, hc]
  rw [step_default hs, hturn]
  rfl

end

/-! ## The step of a write to CMD (R155 to R157) -/

section
variable {s : State} {v : Word} {i : Instr} {ops : List HostOp}

theorem hostTurn_write_cmd (hw : s.script = .write cmdOffset 4 v :: ops) :
    hostTurn s = .next { s.commandWrite v with script := ops } := by
  have hadm : admittedAccess cmdOffset 4 = true := by decide
  simp only [hostTurn, hw, hadm, if_true]
  rfl

theorem commandWrite_legal (hc : s.cur = none) (hv : decodeCmd v = some i) : s.commandWrite v = s.accept i := by
  simp [State.commandWrite, State.busy, hc, hv]

theorem step_accept (hc : s.cur = none) (hs : s.schedule = []) (hw : s.script = .write cmdOffset 4 v :: ops)
    (hv : decodeCmd v = some i) : step s = .next { s.accept i with script := ops } := by
  rw [step_idle hc hs, hostTurn_write_cmd hw, commandWrite_legal hc hv]

theorem step_accepted (hs : s.schedule = []) (i : Instr) (ops : List HostOp) :
    step { s.accept i with script := ops } = exec i { s.accept i with script := ops } :=
  step_busy (s := { s.accept i with script := ops }) rfl hs

theorem step_reject (hc : s.cur = none) (hs : s.schedule = []) (hw : s.script = .write cmdOffset 4 v :: ops)
    (hv : decodeCmd v = none) : step s = .next { s.reject v with script := ops } := by
  rw [step_idle hc hs, hostTurn_write_cmd hw, commandWrite_illegal hc hv]

end

/-- Settles O5: the controller's turn executes the command in progress, and acceptance makes its turn the default one. -/
theorem stepRunsCommand : Obligations.StepRunsCommand := by
  unfold Obligations.StepRunsCommand
  refine ⟨fun s i hc hs => step_busy hc hs, fun s i ts hc hs => ?_, fun s v i ops hc hs hw hv => ?_⟩
  · rw [step_scheduled hs]
    exact controllerTurn_busy hc
  · exact ⟨_, step_accept hc hs hw hv, rfl, step_accepted hs i ops⟩

/-- Settles O6: the step is acceptance, whose state is the one R156 spells out. -/
theorem acceptLegalWord : Obligations.AcceptLegalWord := by
  unfold Obligations.AcceptLegalWord
  exact fun s v i ops hc hs hw hv => ⟨_, step_accept hc hs hw hv, rfl, step_accepted hs i ops, rfl⟩

/-- Settles O7: the step is rejection, whose state is the one R157 spells out; its example is evaluated. -/
theorem rejectIllegalWord : Obligations.RejectIllegalWord := by
  unfold Obligations.RejectIllegalWord
  exact ⟨fun s v ops hc hs hw hv => ⟨_, step_reject hc hs hw hv, by simp [State.busy, hc], rfl⟩, by decide, by decide⟩

end Sys2Proof.Machine


namespace Sys2Proof.Machine

/-! ## The frequency list of a byte sequence (R190 to R193) -/

/-- The entry COUNT lists for a symbol that occurs (R190). -/
def entryOf (data : List Byte) (b : Byte) : FreqEntry := ⟨b, BitVec.ofNat 32 (data.count b)⟩

section
variable {data : List Byte}

/-- The count of a symbol fits FREQ_CNT (R50). -/
theorem entryOf_cnt (hd : data.length < 2 ^ 32) (b : Byte) : (entryOf data b).cnt.toNat = data.count b :=
  Nat.mod_eq_of_lt (Nat.lt_of_le_of_lt List.count_le_length hd)

theorem mem_countPairs {e : FreqEntry} : e ∈ countPairs data ↔ 0 < data.count e.sym ∧ e = entryOf data e.sym := by
  simp only [countPairs, List.mem_filterMap, List.mem_range, alphabetSize, Option.ite_none_right_eq_some,
    Option.some.injEq]
  constructor
  · rintro ⟨n, -, h, rfl⟩
    exact ⟨h, rfl⟩
  · rintro ⟨h, he⟩
    exact ⟨e.sym.toNat, e.sym.isLt, by simpa [symbolCount] using h, by simpa [symbolCount, entryOf] using he.symm⟩

theorem countPairs_pairwise (data : List Byte) : (countPairs data).Pairwise (fun x y => x.sym.toNat < y.sym.toNat) := by
  refine List.pairwise_filterMap.mpr (List.pairwise_lt_range.imp_of_mem fun {m n} hm hn hmn x hx y hy => ?_)
  simp only [Option.ite_none_right_eq_some, Option.some.injEq] at hx hy
  obtain ⟨-, rfl⟩ := hx
  obtain ⟨-, rfl⟩ := hy
  simp only [List.mem_range, alphabetSize] at hm hn
  simp only [BitVec.toNat_ofNat]
  omega

theorem countList_perm (data : List Byte) : (countList data).Perm (countPairs data) := List.perm_insertionSort _ _

theorem mem_countList (hd : data.length < 2 ^ 32) {e : FreqEntry} :
    e ∈ countList data ↔ 0 < e.cnt.toNat ∧ e.cnt.toNat = data.count e.sym := by
  rw [(countList_perm data).mem_iff, mem_countPairs]
  constructor
  · rintro ⟨h, he⟩
    have hc : e.cnt.toNat = data.count e.sym := (congrArg (·.cnt.toNat) he).trans (entryOf_cnt hd e.sym)
    exact ⟨hc ▸ h, hc⟩
  · rintro ⟨h, hc⟩
    have he : e.cnt = (entryOf data e.sym).cnt := BitVec.eq_of_toNat_eq (hc.trans (entryOf_cnt hd e.sym).symm)
    exact ⟨hc ▸ h, congrArg (FreqEntry.mk e.sym) he⟩

theorem countList_symbols_ne (data : List Byte) : (countList data).Pairwise (fun x y => x.sym ≠ y.sym) :=
  ((countList_perm data).pairwise_iff fun h => h.symm).mpr
    ((countPairs_pairwise data).imp fun h e => Nat.ne_of_lt h (congrArg _ e))

theorem countList_symbols_nodup (data : List Byte) : ((countList data).map FreqEntry.sym).Nodup :=
  List.pairwise_map.mpr (countList_symbols_ne data)

/-- The order of R193 with the symbols told apart. -/
theorem countList_pairwise (data : List Byte) : (countList data).Pairwise freqLt := by
  have iff : ∀ x y, freqOrder x y = true ↔
      x.cnt.toNat < y.cnt.toNat ∨ (x.cnt.toNat = y.cnt.toNat ∧ x.sym.toNat ≤ y.sym.toNat) := by simp [freqOrder]
  have htrans : IsTrans FreqEntry (fun x y => freqOrder x y = true) := ⟨fun x y z => by simp only [iff]; omega⟩
  have htotal : Std.Total (fun x y : FreqEntry => freqOrder x y = true) := ⟨fun x y => by simp only [iff]; omega⟩
  have hord : (countList data).Pairwise (fun x y => freqOrder x y = true) := List.pairwise_insertionSort _ _
  refine (hord.and (countList_symbols_ne data)).imp fun {x y} h => ?_
  have hle := (iff x y).mp h.1
  have hne : x.sym.toNat ≠ y.sym.toNat := fun e => h.2 (BitVec.eq_of_toNat_eq e)
  omega

/-- There are no more pairs than symbols. -/
theorem length_countList_le (data : List Byte) : (countList data).length ≤ 256 := by
  rw [(countList_perm data).length_eq, countPairs]
  exact (List.length_filterMap_le _ _).trans_eq List.length_range

theorem countList_symbols_perm (hd : data.length < 2 ^ 32) : ((countList data).map FreqEntry.sym).Perm data.dedup := by
  refine (List.perm_ext_iff_of_nodup (countList_symbols_nodup data) data.nodup_dedup).mpr fun b => ?_
  rw [List.mem_map, List.mem_dedup, ← List.count_pos_iff (l := data)]
  constructor
  · rintro ⟨e, he, rfl⟩
    obtain ⟨hpos, hc⟩ := (mem_countList hd).mp he
    exact hc ▸ hpos
  · exact fun h => ⟨entryOf data b, (countList_perm data).mem_iff.mpr (mem_countPairs.mpr ⟨h, rfl⟩), rfl⟩

/-- Every byte is counted once: the counts sum to the number of bytes (R215). -/
theorem countList_sum (hd : data.length < 2 ^ 32) : ((countList data).map (fun e => e.cnt.toNat)).sum = data.length :=
  calc ((countList data).map (fun e => e.cnt.toNat)).sum
      = ((countList data).map (fun e => data.count e.sym)).sum :=
        congrArg List.sum (List.map_congr_left fun _ he => ((mem_countList hd).mp he).2)
    _ = (((countList data).map FreqEntry.sym).map fun b => data.count b).sum := by rw [List.map_map]; rfl
    _ = (data.dedup.map fun b => data.count b).sum := ((countList_symbols_perm hd).map _).sum_eq
    _ = data.length := List.sum_map_count_dedup_eq_length data

end

/-! ## COUNT (R190 to R194) -/

section
variable {s : State}

theorem countCmd_tooLong (h : s.params.maxDataBytes < s.dataLen.toNat) :
    countCmd s = .error s .dataTooLong s.dataLen := if_pos h

/-- COUNT's error ends BUILD (R252). -/
theorem buildCmd_tooLong (h : s.params.maxDataBytes < s.dataLen.toNat) (b : Bank) :
    buildCmd b s = .error s .dataTooLong s.dataLen := by
  rw [buildCmd, countCmd_tooLong h]

theorem readBytes_of_holdsBytes (hm : s.mem.wf) {a : Arr} {bs : List Byte} (h : holdsBytes s.mem a bs) :
    s.mem.readBytes a 0 bs.length = .ok bs :=
  (readBytes_ok hm a 0 bs.length bs).mpr ⟨rfl, fun k hk => by rw [Nat.zero_add]; exact h k hk⟩

theorem countCmd_readable {data : List Byte} (hle : s.dataLen.toNat ≤ s.params.maxDataBytes)
    (hr : s.mem.readBytes .dataBuf 0 s.dataLen.toNat = .ok data) :
    countCmd s = .done { s with freq := countList data } := by
  rw [countCmd, if_neg (Nat.not_lt.mpr hle), hr]

end

/-! ## What a step does to the frequency list (R195) -/

/-- The frequency list of `u` is that of `s`, or the one COUNT makes of the data of `s`. -/
def State.freqKeptOrCounted (s u : State) : Prop :=
  u.freq = s.freq ∨ ∃ data, s.dataLen.toNat ≤ s.params.maxDataBytes ∧
    s.mem.readBytes .dataBuf 0 s.dataLen.toNat = .ok data ∧ u.freq = countList data

section
variable {s t : State}

theorem countCmd_freq (s : State) : (countCmd s).leaves s.freqKeptOrCounted := by
  obtain ⟨-, e⟩ | ⟨hle, ⟨f, -, e⟩ | ⟨data, hr, e⟩⟩ := countCmd_cases s <;> rw [e]
  · exact .inl rfl
  · trivial
  · exact .inr ⟨data, hle, hr, rfl⟩

/-- TREE and ASSIGN keep the list that BUILD's COUNT makes (R250). -/
theorem buildCmd_freq (b : Bank) (s : State) : (buildCmd b s).leaves s.freqKeptOrCounted := by
  obtain ⟨-, e⟩ | ⟨f, -, e⟩ | ⟨hle, data, hr, e⟩ := buildCmd_cases b s <;> rw [e]
  · exact .inl rfl
  · trivial
  · exact CmdResult.leaves_mono (fun u hu => .inr ⟨data, hle, hr, hu.freq nofun nofun⟩) (assignCmd_sameInputs b _)

theorem cmdRule_freq (hi : s.Inv) {i : Instr} (hc : s.cur = some i) : (cmdRule i s).leaves s.freqKeptOrCounted := by
  by_cases hcount : i = .count
  · exact hcount ▸ countCmd_freq s
  by_cases hbuild : ∃ b, i = .build b
  · obtain ⟨b, rfl⟩ := hbuild
    exact buildCmd_freq b s
  exact CmdResult.leaves_mono (fun u hu => .inl (hu.freq hcount fun b e => hbuild ⟨b, e⟩)) (cmdRule_sameInputs hi hc)

theorem exec_freq (hi : s.Inv) {i : Instr} (hc : s.cur = some i) (h : exec i s = .next t) : s.freqKeptOrCounted t := by
  obtain ⟨u, hu, -, rfl | ⟨code, info, rfl⟩⟩ := exec_completes (cmdRule_freq hi hc) h
  · exact hu
  · exact hu

/-- No host write reaches the frequency list (R47). -/
theorem writeLocation_freq (v : Word) (l : Location) (s : State) : (s.writeLocation v l).freq = s.freq := by
  obtain e | ⟨-, e⟩ | ⟨i, -, -, -, e⟩ | ⟨-, -, -, e⟩ | ⟨-, e⟩ | ⟨-, e⟩ | ⟨r, -, -, -, e⟩ | ⟨a, i, -, -, -, e⟩ :=
    writeLocation_cases v l s <;> rw [e]
  · rfl
  · rfl
  · rfl
  · rfl
  · cases r <;> rfl
  · rfl

theorem hostTurn_freq (h : hostTurn s = .next t) : t.freq = s.freq := by
  obtain ⟨-, rfl⟩ | ⟨off, n, rest, -, -, rfl⟩ | ⟨off, n, v, rest, -, -, rfl⟩ | ⟨rest, -, rfl⟩ := hostTurn_cases h
  · rfl
  · rfl
  · exact writeLocation_freq v _ s
  · rfl

theorem engineTurn_freq {e pick : Nat} (h : engineTurn e pick s = .next t) : t.freq = s.freq := by
  rw [engineTurn_eq h]

/-- The frequency list's invariant reads the list and MAX_DATA_BYTES. -/
theorem State.freqOk_congr (h : s.freqOk) (hf : t.freq = s.freq) (hp : t.params = s.params) : t.freqOk := by
  unfold State.freqOk
  rwa [hf, hp]

/-- The list COUNT makes of data of a legal length meets the invariant (R195). -/
theorem countList_freqOk {data : List Byte} (hf : t.freq = countList data) (hd : data.length < 2 ^ 32)
    (hle : data.length ≤ t.params.maxDataBytes) : t.freqOk := by
  unfold State.freqOk
  rw [hf, countList_sum hd]
  exact ⟨countList_pairwise data, countList_symbols_nodup data, fun e he => ((mem_countList hd).mp he).1, hle⟩

theorem State.freqKeptOrCounted.freqOk (h : s.freqKeptOrCounted t) (hm : s.mem.wf) (hs : s.freqOk)
    (hp : t.params = s.params) : t.freqOk := by
  obtain hf | ⟨data, hle, hr, hf⟩ := h
  · exact State.freqOk_congr hs hf hp
  · obtain ⟨hl, -⟩ := (readBytes_ok hm .dataBuf 0 _ data).mp hr
    exact countList_freqOk hf (hl ▸ s.dataLen.isLt) (by rwa [hl, hp])

theorem runTurn_freqOk (hi : s.Inv) {turn : Turn} (h : runTurn turn s = .next t) : t.freqOk := by
  have hp : t.params = s.params := (runTurn_memOkFor hi h).2
  obtain ⟨-, h⟩ | ⟨-, -, rfl⟩ | ⟨i, -, hc, h⟩ | ⟨e, pick, -, h⟩ | ⟨-, rfl⟩ := runTurn_cases h
  · exact State.freqOk_congr hi.freq (hostTurn_freq h) hp
  · exact hi.freq
  · exact (exec_freq hi hc h).freqOk hi.mem.1 hi.freq hp
  · exact State.freqOk_congr hi.freq (engineTurn_freq h) hp
  · exact resetOf_freqOk s.params

end

/-- Settles O54: a step keeps the list, empties it at reset, or replaces it by the list of at most MAX_DATA_BYTES bytes. -/
theorem stepKeepsFrequencyList : Obligations.StepKeepsFrequencyList := by
  unfold Obligations.StepKeepsFrequencyList
  intro s t hi h
  obtain ⟨rest, turn, h⟩ := step_runTurn h
  exact runTurn_freqOk (s := { s with schedule := rest }) (hi.withSchedule rest) h

/-- Settles O23: COUNT reads the data and completes with its frequency list. -/
theorem countListsTheSymbols : Obligations.CountListsTheSymbols := by
  unfold Obligations.CountListsTheSymbols
  intro s data hm hle hl hh
  have hr : s.mem.readBytes .dataBuf 0 s.dataLen.toNat = .ok data := hl ▸ readBytes_of_holdsBytes hm hh
  have hexec : exec .count s = .next { s.succeeded with freq := countList data } := by
    rw [exec_eq_finish, cmdRule, countCmd_readable hle hr]
    rfl
  exact ⟨countList data, hexec, countList_pairwise data, fun _ => mem_countList (hl ▸ s.dataLen.isLt),
    length_countList_le data, rfl⟩

/-- Settles O24: the size check is COUNT's first action, and its error ends BUILD. -/
theorem dataTooLong : Obligations.DataTooLong := by
  unfold Obligations.DataTooLong
  intro s h
  refine ⟨?_, fun b => ?_⟩
  · rw [exec_eq_finish, cmdRule, countCmd_tooLong h]
    rfl
  · rw [exec_eq_finish, cmdRule, buildCmd_tooLong h]
    rfl

end Sys2Proof.Machine

namespace Sys2Proof.Machine

/-! ## The depth of a symbol in a list of leaves (R210) -/

section
variable {ds : List (Nat × Nat)} {s : Nat}

@[simp] theorem depthOf_nil (s : Nat) : depthOf [] s = 0 := rfl

@[simp] theorem depthOf_cons (p : Nat × Nat) (ds : List (Nat × Nat)) (s : Nat) :
    depthOf (p :: ds) s = if s = p.1 then p.2 else depthOf ds s := by
  obtain ⟨k, d⟩ := p
  by_cases h : s = k
  · simp [depthOf, h]
  · simp [depthOf, List.lookup_cons, beq_false_of_ne h, h]

theorem depthOf_eq_zero_of_not_mem (h : s ∉ ds.map Prod.fst) : depthOf ds s = 0 := by
  have hnone : ds.lookup s = none :=
    List.lookup_eq_none_iff.mpr fun p hp => bne_iff_ne.mpr fun e => h (e ▸ List.mem_map_of_mem hp)
  rw [depthOf, hnone, Option.getD_none]

theorem mem_depthOf (h : s ∈ ds.map Prod.fst) : (s, depthOf ds s) ∈ ds := by
  induction ds with
  | nil => cases h
  | cons p ds ih =>
    rw [depthOf_cons]
    split
    · subst s; exact List.mem_cons_self
    · exact List.mem_cons_of_mem p (ih ((List.mem_cons.mp h).resolve_left ‹_›))

/-- With one leaf for each symbol, every leaf's depth is its symbol's. -/
theorem depthOf_of_mem (hn : (ds.map Prod.fst).Nodup) {p : Nat × Nat} (hp : p ∈ ds) : depthOf ds p.1 = p.2 := by
  have h : (p.1, depthOf ds p.1) ∈ ds := mem_depthOf (List.mem_map_of_mem hp)
  exact congrArg Prod.snd (List.inj_on_of_nodup_map hn h hp rfl)

/-- A sum over an alphabet in which a symbol without a leaf counts nothing is the sum over the leaves. -/
theorem sum_depthOf (hn : (ds.map Prod.fst).Nodup) {n : Nat} (hlt : ∀ s ∈ ds.map Prod.fst, s < n) {f : Nat → Nat}
    (h0 : f 0 = 0) : ((List.range n).map fun s => f (depthOf ds s)).sum = (ds.map fun p => f p.2).sum :=
  calc ((List.range n).map fun s => f (depthOf ds s)).sum
    _ = ∑ s ∈ (List.range n).toFinset, f (depthOf ds s) := (List.sum_toFinset _ List.nodup_range).symm
    _ = ∑ s ∈ (ds.map Prod.fst).toFinset, f (depthOf ds s) := by
      refine (Finset.sum_subset (fun s hs => ?_) fun s _ hs => ?_).symm
      · simpa using hlt s (List.mem_toFinset.mp hs)
      · rw [depthOf_eq_zero_of_not_mem (fun h => hs (List.mem_toFinset.mpr h)), h0]
    _ = ((ds.map Prod.fst).map fun s => f (depthOf ds s)).sum := List.sum_toFinset _ hn
    _ = (ds.map fun p => f p.2).sum := by
      rw [List.map_map]
      exact congrArg List.sum (List.map_congr_left fun p hp => congrArg f (depthOf_of_mem hn hp))

end

/-! ## The leaves of a tree (R215, R216) -/

/-- The symbols of a tree's leaves, from left to right. -/
def Tree.symbols : Tree → List Nat
  | .leaf s => [s]
  | .internal x y => x.symbols ++ y.symbols

theorem leafDepths_symbols (d : Nat) (t : Tree) : (leafDepths d t).map Prod.fst = t.symbols := by
  induction t generalizing d with
  | leaf s => rfl
  | internal x y ihx ihy => rw [leafDepths, List.map_append, ihx, ihy, Tree.symbols]

theorem Tree.length_symbols_pos (t : Tree) : 0 < t.symbols.length := by
  induction t with
  | leaf s => exact Nat.one_pos
  | internal x y ihx _ => rw [Tree.symbols, List.length_append]; omega

theorem le_of_mem_leafDepths {d : Nat} {t : Tree} {p : Nat × Nat} (hp : p ∈ leafDepths d t) : d ≤ p.2 := by
  induction t generalizing d with
  | leaf s => rw [List.mem_singleton.mp hp]
  | internal x y ihx ihy =>
    obtain hx | hy := List.mem_append.mp hp
    · exact Nat.le_of_succ_le (ihx hx)
    · exact Nat.le_of_succ_le (ihy hy)

/-- A root with two leaves below it is internal, so none of its leaves is at its own depth. -/
theorem lt_of_mem_leafDepths {d : Nat} {t : Tree} (ht : 2 ≤ t.symbols.length) {p : Nat × Nat}
    (hp : p ∈ leafDepths d t) : d < p.2 := by
  cases t with
  | leaf s => exact absurd ht (by decide : ¬ 2 ≤ 1)
  | internal x y => exact (List.mem_append.mp hp).elim le_of_mem_leafDepths le_of_mem_leafDepths

/-- A level of the tree costs a leaf, so a leaf is fewer levels down than the tree has leaves. -/
theorem leafDepths_lt {d : Nat} {t : Tree} {p : Nat × Nat} (hp : p ∈ leafDepths d t) :
    p.2 < d + t.symbols.length := by
  induction t generalizing d with
  | leaf s => rw [List.mem_singleton.mp hp]; exact Nat.lt_succ_self d
  | internal x y ihx ihy =>
    have hx := x.length_symbols_pos
    have hy := y.length_symbols_pos
    rw [Tree.symbols, List.length_append]
    obtain h | h := List.mem_append.mp hp
    · have := ihx h; omega
    · have := ihy h; omega

/-- The summand of R218's sum, scaled by 2^m: nothing for a symbol without a leaf. -/
def kraftTerm (m d : Nat) : Nat := if d = 0 then 0 else 2 ^ (m - d)

theorem kraft_eq_sum (m : Nat) (lens : List Nat) : kraft m lens = (lens.map (kraftTerm m)).sum := rfl

theorem kraftTerm_zero (m : Nat) : kraftTerm m 0 = 0 := rfl

theorem kraftTerm_of_pos (m : Nat) {d : Nat} (h : 0 < d) : kraftTerm m d = 2 ^ (m - d) := if_neg (Nat.ne_of_gt h)

/-- The sum of R218 below a node at depth `d`: the leaves' weights make up the node's, as the two children of an
internal node are halves of it. -/
theorem sum_leafDepths {m d : Nat} {t : Tree} (h : d + t.symbols.length ≤ m + 1) :
    ((leafDepths d t).map fun p => 2 ^ (m - p.2)).sum = 2 ^ (m - d) := by
  induction t generalizing d with
  | leaf s => exact Nat.add_zero _
  | internal x y ihx ihy =>
    have hx := x.length_symbols_pos
    have hy := y.length_symbols_pos
    rw [Tree.symbols, List.length_append] at h
    have hd : m - d = m - (d + 1) + 1 := by omega
    rw [leafDepths, List.map_append, List.sum_append, ihx (by omega), ihy (by omega), hd, Nat.pow_succ, Nat.mul_two]

/-! ## The merge neither loses nor adds a leaf (R214, R215) -/

/-- The symbols of the leaves below the entries of a heap. -/
def heapSymbols (h : List HeapEntry) : List Nat := h.flatMap fun e => e.node.symbols

theorem pushHeap_symbols (e : HeapEntry) (h : List HeapEntry) :
    (heapSymbols (pushHeap e h)).Perm (e.node.symbols ++ heapSymbols h) :=
  (pushHeap_perm e h).flatMap_right _

theorem pushLeaves_symbols (l : List FreqEntry) (i : Nat) (h : List HeapEntry) :
    (heapSymbols (pushLeaves i l h)).Perm (l.map (fun e => e.sym.toNat) ++ heapSymbols h) := by
  induction l generalizing i h with
  | nil => exact .refl _
  | cons e l ih => exact (ih _ _).trans (((pushHeap_symbols _ h).append_left _).trans List.perm_middle)

theorem mergeHeap_symbols (rounds next : Nat) (h : List HeapEntry) :
    (heapSymbols (mergeHeap rounds next h)).Perm (heapSymbols h) := by
  induction rounds generalizing next h with
  | zero => exact .refl _
  | succ rounds ih =>
    match h with
    | [] => exact .refl _
    | [e] => exact .refl _
    | a :: b :: rest =>
      rw [mergeHeap_cons_cons]
      calc (heapSymbols (mergeHeap rounds (next + 1) (pushHeap _ rest)))
        _ |>.Perm _ := ih _ _
        _ |>.Perm ((a.node.symbols ++ b.node.symbols) ++ heapSymbols rest) := pushHeap_symbols _ rest
        _ |>.Perm (heapSymbols (a :: b :: rest)) := .of_eq (List.append_assoc ..)

/-- The depths of two or more frequency pairs are those of the leaves of one tree, which has a leaf for every pair. -/
theorem treeDepths_eq_leafDepths {l : List FreqEntry} (hl : 2 ≤ l.length) :
    ∃ t : Tree, treeDepths l = leafDepths 0 t ∧ t.symbols.Perm (l.map fun e => e.sym.toNat) := by
  obtain ⟨root, hroot, hd⟩ := treeDepths_eq_root hl
  refine ⟨root.node, hd, ?_⟩
  have h := (mergeHeap_symbols l.length l.length (pushLeaves 0 l [])).trans (pushLeaves_symbols l 0 [])
  rw [hroot] at h
  simpa [heapSymbols] using h

/-! ## The depths of two or more distinct symbols (R216, R218) -/

section
variable {l : List FreqEntry}

theorem nodup_symbol_numbers (hn : (l.map FreqEntry.sym).Nodup) : (l.map fun e => e.sym.toNat).Nodup := by
  simpa [Function.comp_def] using hn.map (f := BitVec.toNat) fun _ _ => BitVec.eq_of_toNat_eq

theorem symbol_number_lt {s : Nat} (h : s ∈ l.map fun e => e.sym.toNat) : s < alphabetSize := by
  obtain ⟨e, -, rfl⟩ := List.mem_map.mp h
  exact e.sym.isLt

theorem length_le_alphabetSize (hn : (l.map FreqEntry.sym).Nodup) : l.length ≤ alphabetSize := by
  simpa using ((nodup_symbol_numbers hn).subperm fun s hs => List.mem_range.mpr (symbol_number_lt hs)).length_le

variable (hl : 2 ≤ l.length)
include hl

theorem treeDepths_symbols_perm : ((treeDepths l).map Prod.fst).Perm (l.map fun e => e.sym.toNat) := by
  obtain ⟨t, ht, hp⟩ := treeDepths_eq_leafDepths hl
  rwa [ht, leafDepths_symbols]

theorem treeDepths_bounds {p : Nat × Nat} (hp : p ∈ treeDepths l) : 0 < p.2 ∧ p.2 < l.length := by
  obtain ⟨t, ht, hs⟩ := treeDepths_eq_leafDepths hl
  have hlen : t.symbols.length = l.length := by simpa using hs.length_eq
  rw [ht] at hp
  have hlt := leafDepths_lt hp
  exact ⟨lt_of_mem_leafDepths (hlen ▸ hl) hp, by omega⟩

/-- Every symbol's depth is below the number of symbols. -/
theorem depthOf_treeDepths_lt (s : Nat) : depthOf (treeDepths l) s < l.length := by
  by_cases h : s ∈ (treeDepths l).map Prod.fst
  · exact (treeDepths_bounds hl (mem_depthOf h)).2
  · rw [depthOf_eq_zero_of_not_mem h]; omega

theorem depthOf_treeDepths_ne_zero_iff (s : Nat) :
    depthOf (treeDepths l) s ≠ 0 ↔ s ∈ l.map fun e => e.sym.toNat := by
  rw [← (treeDepths_symbols_perm hl).mem_iff]
  refine ⟨fun h => ?_, fun h => ?_⟩
  · exact Classical.not_not.mp fun hs => h (depthOf_eq_zero_of_not_mem hs)
  · exact Nat.ne_of_gt (treeDepths_bounds hl (mem_depthOf h)).1

variable (hn : (l.map FreqEntry.sym).Nodup)
include hn

/-- The bytes TREE writes are the depths themselves: a tree of at most 256 leaves has no depth above 255. -/
theorem treeLens_toNat : (treeLens l).map BitVec.toNat = (List.range alphabetSize).map (depthOf (treeDepths l)) := by
  rw [treeLens, List.map_map]
  refine List.map_congr_left fun s _ => ?_
  exact Nat.mod_eq_of_lt (Nat.lt_of_lt_of_le (depthOf_treeDepths_lt hl s) (length_le_alphabetSize hn))

/-- The leaves' weights of R218 make up the root's. -/
theorem kraft_treeLens : kraft 255 ((treeLens l).map BitVec.toNat) = 2 ^ 255 := by
  obtain ⟨t, ht, hs⟩ := treeDepths_eq_leafDepths hl
  have hperm := treeDepths_symbols_perm hl
  have hlen : t.symbols.length ≤ alphabetSize := by simpa [hs.length_eq] using length_le_alphabetSize hn
  calc kraft 255 ((treeLens l).map BitVec.toNat)
    _ = ((List.range alphabetSize).map fun s => kraftTerm 255 (depthOf (treeDepths l) s)).sum := by
      rw [treeLens_toNat hl hn, kraft_eq_sum, List.map_map]
      rfl
    _ = ((treeDepths l).map fun p => kraftTerm 255 p.2).sum :=
      sum_depthOf (hperm.nodup_iff.mpr (nodup_symbol_numbers hn))
        (fun s h => symbol_number_lt (hperm.mem_iff.mp h)) (kraftTerm_zero 255)
    _ = ((treeDepths l).map fun p => 2 ^ (255 - p.2)).sum :=
      congrArg List.sum (List.map_congr_left fun p hp => kraftTerm_of_pos 255 (treeDepths_bounds hl hp).1)
    _ = 2 ^ 255 := by
      rw [ht]
      exact sum_leafDepths (by simpa [alphabetSize] using hlen)

end

/-- Settles O29: the depths are those of the leaves of one tree with a leaf for every listed symbol. -/
theorem treeIsFull : Obligations.TreeIsFull := by
  unfold Obligations.TreeIsFull
  intro l hl hn
  refine ⟨fun sym => ?_, fun sym => Nat.le_sub_one_of_lt (depthOf_treeDepths_lt hl sym), kraft_treeLens hl hn⟩
  rw [depthOf_treeDepths_ne_zero_iff hl]
  simp [← BitVec.toNat_inj]

/-! ## What TREE writes (R212, R213, R216, R217) -/

theorem exec_tree (s : State) : exec .tree s = .next (treeCmd s).complete := rfl

/-- LEN_BUF after TREE (R216). -/
theorem read_treeCmd_lenBuf (s : State) {sym : Nat} (h : sym < 256) :
    (treeCmd s).mem.read (Arr.base .lenBuf + sym) = some (BitVec.ofNat 8 (depthOf (treeDepths s.freq) sym)) := by
  rw [treeCmd, read_setRange, if_pos (by simpa [treeLens, alphabetSize] using h)]
  simp [treeLens, alphabetSize, h]

/-- TREE writes no byte outside LEN_BUF (R210). -/
theorem read_treeCmd_of_outside (s : State) {x : Nat} (h : x < Arr.base .lenBuf ∨ Arr.base .lenBuf + 256 ≤ x) :
    (treeCmd s).mem.read x = s.mem.read x :=
  read_setRange_of_outside (by simpa [treeLens, alphabetSize] using h)

/-- Settles O26: TREE is one write of LEN_BUF's 256 bytes and of LEN_SIZE. -/
theorem treeWritesDepths : Obligations.TreeWritesDepths := by
  unfold Obligations.TreeWritesDepths
  exact fun s => ⟨(treeCmd s).mem, exec_tree s, fun _ => read_treeCmd_lenBuf s, fun _ => read_treeCmd_of_outside s⟩

/-- Settles O27: the list of depths is empty for no symbol and has one pair, of depth 1, for one. -/
theorem treeOfNoneOrOne : Obligations.TreeOfNoneOrOne := by
  unfold Obligations.TreeOfNoneOrOne
  refine ⟨fun s hs => ?none, fun s e hs => ?one⟩
  case none =>
    refine ⟨_, exec_tree s, rfl, fun sym hsym => (read_treeCmd_lenBuf s hsym).trans ?_⟩
    simp [hs, treeDepths]
  case one =>
    refine ⟨_, exec_tree s, rfl, fun sym hsym => (read_treeCmd_lenBuf s hsym).trans ?_⟩
    by_cases h : sym = e.sym.toNat <;> simp [hs, treeDepths, h]

end Sys2Proof.Machine

namespace Sys2Proof.Machine

/-! ## The outcomes of ASSIGN, an equation each (R241, R242, R246, R248) -/

theorem tooLong_eq_some_iff {maxLen sym : Nat} {lens : List Nat} :
    tooLong maxLen lens = some sym ↔
      ∃ h : sym < lens.length, maxLen ≤ lens[sym] ∧ ∀ j (_ : j < sym), lens[j] < maxLen := by
  simp [tooLong, List.findIdx?_eq_some_iff_getElem]

theorem tooLong_eq_none {maxLen : Nat} {lens : List Nat} (h : ∀ l ∈ lens, l < maxLen) : tooLong maxLen lens = none := by
  simpa [tooLong, List.findIdx?_eq_none_iff] using h

section
variable {s : State}

theorem assignCmd_sizeMismatch (b : Bank) (h : s.lenSize ≠ 256#32) :
    assignCmd b s = .error s .lenSizeMismatch s.lenSize := if_pos h

variable (b : Bank) (hsize : s.lenSize = 256#32)
include hsize

theorem assignCmd_unwritten {f : Fault} (hr : s.mem.readBytes .lenBuf 0 alphabetSize = .error f) :
    assignCmd b s = .fault f := by
  rw [assignCmd, if_neg (not_not.mpr hsize), hr]

variable {bytes : List Byte} (hr : s.mem.readBytes .lenBuf 0 alphabetSize = .ok bytes)
include hr

theorem assignCmd_lenTooLong {sym : Nat} (hl : tooLong s.params.maxLen (bytes.map BitVec.toNat) = some sym) :
    assignCmd b s = .error s .lenTooLong (BitVec.ofNat 32 sym) := by
  rw [assignCmd, if_neg (not_not.mpr hsize), hr]
  simp only [hl]

variable (hl : tooLong s.params.maxLen (bytes.map BitVec.toNat) = none)
include hl

theorem assignCmd_walkError {code : ErrCode} {sym : Nat} (hc : canonical (bytes.map BitVec.toNat) = .error (code, sym)) :
    assignCmd b s = .error s code (BitVec.ofNat 32 sym) := by
  rw [assignCmd, if_neg (not_not.mpr hsize), hr]
  simp only [hl, hc]

theorem assignCmd_commit {tab : List Code} {m : Nat} (hc : canonical (bytes.map BitVec.toNat) = .ok (tab, m)) :
    assignCmd b s = .done (s.setBank b tab ⟨BitVec.ofNat 8 m, true⟩) := by
  rw [assignCmd, if_neg (not_not.mpr hsize), hr]
  simp only [hl, hc]

end

/-- LEN_BUF as ASSIGN reads it (R240). -/
theorem readBytes_lenBuf {s : State} {lens : List Byte} (hm : s.mem.wf) (hlen : lens.length = 256)
    (hh : holdsBytes s.mem .lenBuf lens) : s.mem.readBytes .lenBuf 0 alphabetSize = .ok lens := by
  rw [alphabetSize, ← hlen]
  exact readBytes_of_holdsBytes hm hh

/-- The lengths below MAXLEN, as ASSIGN checks them (R242). -/
theorem tooLong_bytes {maxLen : Nat} {lens : List Byte} (h : ∀ l ∈ lens, l.toNat < maxLen) :
    tooLong maxLen (lens.map BitVec.toNat) = none :=
  tooLong_eq_none (List.forall_mem_map.mpr h)

/-- An error of ASSIGN's rule completes the command with the class and the code of R352 (R353). -/
theorem exec_assign_error {s t : State} {b : Bank} {code : ErrCode} {info : Word}
    (h : assignCmd b s = .error t code info) :
    exec (.assign b) s = .next (t.failed (classBits (codeBits code)) (codeBits code) info) := by
  rw [exec_eq_finish, cmdRule, h]
  rfl

/-- Settles O30: the check of LEN_SIZE is ASSIGN's first action. -/
theorem assignSizeMismatch : Obligations.AssignSizeMismatch := by
  unfold Obligations.AssignSizeMismatch
  exact fun s b h => exec_assign_error (assignCmd_sizeMismatch b h)

/-- Settles O31: the search for a length not below MAXLEN comes first and finds the least symbol. -/
theorem assignLengthTooLong : Obligations.AssignLengthTooLong := by
  unfold Obligations.AssignLengthTooLong
  intro s b lens sym hsym hm hsize hlen hh hlong hbefore
  have hl : tooLong s.params.maxLen (lens.map BitVec.toNat) = some sym :=
    tooLong_eq_some_iff.mpr ⟨by simpa using hsym, by simpa using hlong, by simpa using hbefore⟩
  exact exec_assign_error (assignCmd_lenTooLong b hsize (readBytes_lenBuf hm hlen hh) hl)

/-! ## The commit (R248) -/

/-- The state in which ASSIGN has committed the table `tab` of maximum length `m` to bank `b` and has completed. -/
def State.committed (s : State) (b : Bank) (tab : List Code) (m : Nat) : State :=
  (s.setBank b tab ⟨BitVec.ofNat 8 m, true⟩).complete

section
variable (s : State) (b : Bank) (tab : List Code) (m : Nat)

theorem State.committed_bank : (s.committed b tab m).table b = tab ∧
    (s.committed b tab m).info b = ⟨BitVec.ofNat 8 m, true⟩ := by
  cases b <;> exact ⟨rfl, rfl⟩

theorem State.committed_other_bank {b' : Bank} (h : b' ≠ b) :
    (s.committed b tab m).table b' = s.table b' ∧ (s.committed b tab m).info b' = s.info b' := by
  obtain ⟨ht, hi⟩ := completes_banks (u := s.setBank b tab ⟨BitVec.ofNat 8 m, true⟩) (.inl rfl) b'
  exact ⟨ht.trans (State.setBank_table_ne _ _ _ _ h), hi.trans (State.setBank_info_ne _ _ _ _ h)⟩

@[simp] theorem State.committed_mem : (s.committed b tab m).mem = s.mem := s.setBank_mem b tab _

/-- The commit writes the banks and nothing else. -/
theorem State.committed_eq : s.committed b tab m =
    { s.succeeded with
      table0 := (s.committed b tab m).table0, table1 := (s.committed b tab m).table1,
      info0 := (s.committed b tab m).info0, info1 := (s.committed b tab m).info1 } := by
  cases b <;> rfl

end

theorem exec_assign_commit {s : State} {b : Bank} {bytes : List Byte} {tab : List Code} {m : Nat}
    (hsize : s.lenSize = 256#32) (hr : s.mem.readBytes .lenBuf 0 alphabetSize = .ok bytes)
    (hl : tooLong s.params.maxLen (bytes.map BitVec.toNat) = none)
    (hc : canonical (bytes.map BitVec.toNat) = .ok (tab, m)) :
    exec (.assign b) s = .next (s.committed b tab m) := by
  rw [exec_eq_finish, cmdRule, assignCmd_commit b hsize hr hl hc]
  rfl

/-- Settles O32: with every check passed, ASSIGN's rule is the commit. -/
theorem assignCommits : Obligations.AssignCommits := by
  unfold Obligations.AssignCommits
  intro s b lens tab m hm hsize hlen hh hmax hc
  obtain ⟨htab, hinfo⟩ := s.committed_bank b tab m
  exact ⟨_, exec_assign_commit hsize (readBytes_lenBuf hm hlen hh) (tooLong_bytes hmax) hc, htab, hinfo,
    fun _ => s.committed_other_bank b tab m, s.committed_eq b tab m⟩

end Sys2Proof.Machine

namespace Sys2Proof.Machine

/-! ## The checks of the walk, one pair at a time (R245, R246) -/

section
variable {s l : Nat} {ps : List (Nat × Nat)} {a : Assigner}

theorem assignWalk_notPrefixFree (h : (a.pc + 1) % 2 ^ (a.pl - l) ≠ 0) :
    assignWalk ((s, l) :: ps) a = .error (.notPrefixFree, s) := if_pos h

theorem assignWalk_oversubscribed (h : (a.pc + 1) % 2 ^ (a.pl - l) = 0) (hc : 2 ^ l ≤ (a.pc + 1) / 2 ^ (a.pl - l)) :
    assignWalk ((s, l) :: ps) a = .error (.oversubscribed, s) := by
  rw [assignWalk, if_neg (not_not.mpr h), Nat.shiftRight_eq_div_pow, if_pos hc]

/-- A pair that passes both checks gets its codeword, and the walk goes on. -/
theorem assignWalk_pass (h : (a.pc + 1) % 2 ^ (a.pl - l) = 0) (hc : (a.pc + 1) / 2 ^ (a.pl - l) < 2 ^ l) :
    ∃ staging, assignWalk ((s, l) :: ps) a = assignWalk ps ⟨(a.pc + 1) / 2 ^ (a.pl - l), l, staging⟩ := by
  rw [assignWalk, if_neg (not_not.mpr h), Nat.shiftRight_eq_div_pow, if_neg (Nat.not_le.mpr hc)]
  exact ⟨_, rfl⟩

end

/-- NOT_PREFIX_FREE and OVERSUBSCRIBED are the only errors of the walk (R246). -/
theorem assignWalk_error {ps : List (Nat × Nat)} {a : Assigner} {code : ErrCode} {sym : Nat}
    (h : assignWalk ps a = .error (code, sym)) : code = .notPrefixFree ∨ code = .oversubscribed := by
  induction ps generalizing a with
  | nil => cases h
  | cons p ps ih =>
    simp only [assignWalk] at h
    split at h
    · cases h; exact .inl rfl
    · split at h
      · cases h; exact .inr rfl
      · exact ih h

theorem canonical_error {lens : List Nat} {code : ErrCode} {sym : Nat} (h : canonical lens = .error (code, sym)) :
    code = .notPrefixFree ∨ code = .oversubscribed := by
  unfold canonical at h
  split at h
  · cases h
  · split at h
    · cases h; exact assignWalk_error ‹_›
    · cases h

/-! ## The walk as far as its pairs pass (R244 to R246) -/

/-- The order of R243 leaves one list of the present pairs. -/
theorem sortedPairs_of_inAssignOrder {lens : List Nat} {ps : List (Nat × Nat)} (h : inAssignOrder lens ps) :
    sortedPairs lens = ps := by
  obtain ⟨hmem, hord⟩ := h
  have hirrefl : Std.Irrefl (fun x y : Nat × Nat => y.2 < x.2 ∨ (x.2 = y.2 ∧ x.1 < y.1)) := ⟨fun x => by omega⟩
  have hantisymm : Std.Antisymm (fun x y : Nat × Nat => y.2 < x.2 ∨ (x.2 = y.2 ∧ x.1 < y.1)) :=
    ⟨fun x y => by omega⟩
  exact (sortedPairs_pairwise lens).eq_of_mem_iff hord fun p => mem_sortedPairs.trans (hmem p.1 p.2).symm

theorem canonical_of_sortedPairs_cons {lens : List Nat} {x : Nat × Nat} {ps : List (Nat × Nat)}
    (h : sortedPairs lens = x :: ps) :
    canonical lens = (assignWalk ps ⟨0, x.2, emptyTable.set x.1 ⟨0#32, BitVec.ofNat 8 x.2⟩⟩).map (·, x.2) := by
  obtain ⟨s, l⟩ := x
  rw [canonical, h]
  dsimp only
  cases assignWalk ps _ <;> rfl

theorem lengthDrop_eq {ps : List (Nat × Nat)} {n : Nat} (h : n + 1 < ps.length) :
    lengthDrop ps n = ps[n].2 - ps[n + 1].2 := by
  simp [lengthDrop, h, Nat.lt_of_succ_lt h]

section
variable {lens : List Nat} {ps : List (Nat × Nat)} (hps : sortedPairs lens = ps)
include hps

/-- When every pair before has passed, the walk stands after pair `n`, with its codeword and its length. -/
theorem canonical_reaches {n : Nat} (hn : n < ps.length) (hpass : ∀ j, j < n → walkPasses ps j) :
    ∃ staging m, canonical lens =
      (assignWalk (ps.drop (n + 1)) ⟨walkCode ps n, ps[n].2, staging⟩).map (·, m) := by
  induction n with
  | zero =>
    cases ps with
    | nil => cases hn
    | cons x rest => exact ⟨_, _, canonical_of_sortedPairs_cons hps⟩
  | succ n ih =>
    obtain ⟨staging, m, h⟩ := ih (Nat.lt_of_succ_lt hn) fun j hj => hpass j (Nat.lt_succ_of_lt hj)
    obtain ⟨hdvd, hfit⟩ := hpass n (Nat.lt_succ_self n)
    rw [← List.getElem_eq_getD (h := hn), walkCode] at hfit
    rw [lengthDrop_eq hn] at hdvd hfit
    obtain ⟨staging', hw⟩ := assignWalk_pass (s := ps[n + 1].1) (ps := ps.drop (n + 1 + 1))
      (a := ⟨walkCode ps n, ps[n].2, staging⟩) hdvd hfit
    refine ⟨staging', m, ?_⟩
    rw [h, List.drop_eq_getElem_cons hn, hw, walkCode, lengthDrop_eq hn]

/-- When every pair passes the assignment succeeds. -/
theorem canonical_ok_of_passes (hpass : ∀ j, j + 1 < ps.length → walkPasses ps j) :
    ∃ tab m, canonical lens = .ok (tab, m) := by
  obtain rfl | hne := eq_or_ne ps []
  · exact ⟨emptyTable, 0, by rw [canonical, hps]⟩
  · have hpos : 0 < ps.length := List.length_pos_iff.mpr hne
    obtain ⟨staging, m, h⟩ := canonical_reaches hps (n := ps.length - 1) (by omega) fun j hj => hpass j (by omega)
    rw [List.drop_eq_nil_of_le (by omega)] at h
    exact ⟨staging, m, h⟩

variable {n : Nat} (hn : n + 1 < ps.length) (hpass : ∀ j, j < n → walkPasses ps j)
include hn hpass

theorem canonical_notPrefixFree (h : (walkCode ps n + 1) % 2 ^ lengthDrop ps n ≠ 0) :
    canonical lens = .error (.notPrefixFree, ps[n + 1].1) := by
  obtain ⟨staging, m, hw⟩ := canonical_reaches hps (Nat.lt_of_succ_lt hn) hpass
  rw [lengthDrop_eq hn] at h
  rw [hw, List.drop_eq_getElem_cons hn, assignWalk_notPrefixFree h]
  rfl

theorem canonical_oversubscribed (h : (walkCode ps n + 1) % 2 ^ lengthDrop ps n = 0)
    (hc : 2 ^ ps[n + 1].2 ≤ walkCode ps (n + 1)) : canonical lens = .error (.oversubscribed, ps[n + 1].1) := by
  obtain ⟨staging, m, hw⟩ := canonical_reaches hps (Nat.lt_of_succ_lt hn) hpass
  rw [walkCode, lengthDrop_eq hn] at hc
  rw [lengthDrop_eq hn] at h
  rw [hw, List.drop_eq_getElem_cons hn, assignWalk_oversubscribed h hc]
  rfl

end

/-- An error of the walk ends ASSIGN with every earlier check passed (R246, R355). -/
theorem exec_assign_walkError {s : State} (b : Bank) {lens : List Byte} {code : ErrCode} {sym : Nat} (hm : s.mem.wf)
    (hsize : s.lenSize = 256#32) (hlen : lens.length = 256) (hh : holdsBytes s.mem .lenBuf lens)
    (hmax : ∀ l ∈ lens, l.toNat < s.params.maxLen) (hc : canonical (lens.map BitVec.toNat) = .error (code, sym)) :
    exec (.assign b) s = .next (s.failed (classBits (codeBits code)) (codeBits code) (BitVec.ofNat 32 sym)) :=
  exec_assign_error (assignCmd_walkError b hsize (readBytes_lenBuf hm hlen hh) (tooLong_bytes hmax) hc)

/-- Settles O33: the walk stands before the first pair that fails, and that pair's check is its error. -/
theorem assignRejectsBadLengths : Obligations.AssignRejectsBadLengths := by
  unfold Obligations.AssignRejectsBadLengths
  refine ⟨?only, ?first, ?passes⟩
  case only =>
    intro s b lens code sym hm hsize hlen hh hmax hc
    have hexec := exec_assign_walkError b hm hsize hlen hh hmax hc
    obtain rfl | rfl := canonical_error hc
    · exact .inl ⟨rfl, hexec⟩
    · exact .inr ⟨rfl, hexec⟩
  case first =>
    intro s b lens ps n x y hm hsize hlen hh hmax hord hx hy hpass
    have hps := sortedPairs_of_inAssignOrder hord
    obtain ⟨hn, rfl⟩ := List.getElem?_eq_some_iff.mp hy
    obtain ⟨-, rfl⟩ := List.getElem?_eq_some_iff.mp hx
    rw [← lengthDrop_eq hn]
    exact ⟨fun h => exec_assign_walkError b hm hsize hlen hh hmax (canonical_notPrefixFree hps hn hpass h),
      fun h hc => exec_assign_walkError b hm hsize hlen hh hmax (canonical_oversubscribed hps hn hpass h hc)⟩
  case passes =>
    intro lens ps _ hord hpass
    exact canonical_ok_of_passes (sortedPairs_of_inAssignOrder hord) hpass

/-! ## The rule of the canonical table (R243 to R247) -/

section
variable {lens : List Nat} {tab : List Code} {m : Nat}

/-- The first pair has codeword 0, and its length is the maximum (R244, R247). -/
theorem canonical_first (hlen : lens.length = 256) (h : canonical lens = .ok (tab, m)) {s l : Nat}
    {rest : List (Nat × Nat)} (hp : sortedPairs lens = (s, l) :: rest) : m = l ∧ cwOf tab s = 0 := by
  obtain ⟨hnil, -, -⟩ | ⟨s', l', rest', hp', rfl, hw⟩ := canonical_cases h
  · rw [hnil] at hp; cases hp
  rw [hp] at hp'
  cases hp'
  refine ⟨rfl, ?_⟩
  have hs : s < 256 := by
    obtain ⟨hs, -⟩ := mem_sortedPairs.mp (hp ▸ List.mem_cons_self : (s, m) ∈ sortedPairs lens)
    obtain ⟨hlt, -⟩ := List.getElem?_eq_some_iff.mp hs
    exact hlen ▸ hlt
  have hne : ∀ p ∈ rest, p.1 ≠ s := fun p hp' =>
    ((List.pairwise_cons.mp (hp ▸ sortedPairs_symbols_ne lens)).1 p hp').symm
  rw [cwOf, List.getD_eq_getElem?_getD, assignWalk_untouched hw hne,
    List.getElem?_set_self (length_emptyTable ▸ hs)]
  rfl

/-- Each next pair's codeword (R245). -/
theorem canonical_next (hlen : lens.length = 256) (h32 : ∀ l ∈ lens, l ≤ 32) (h : canonical lens = .ok (tab, m))
    {j : Nat} {x y : Nat × Nat} (hx : (sortedPairs lens)[j]? = some x) (hy : (sortedPairs lens)[j + 1]? = some y) :
    cwOf tab y.1 = (cwOf tab x.1 + 1) >>> (x.2 - y.2) := by
  obtain ⟨hj, rfl⟩ := List.getElem?_eq_some_iff.mp hy
  obtain ⟨-, rfl⟩ := List.getElem?_eq_some_iff.mp hx
  obtain ⟨-, hmul⟩ := List.isChain_iff_getElem.mp (canonical_chain hlen h32 h).1 j hj
  rw [← hmul, Nat.shiftRight_eq_div_pow, Nat.mul_div_cancel _ (Nat.two_pow_pos _)]

end

/-- Settles O34: a walk that ends well enters each pair after the one before it. -/
theorem canonicalRule : Obligations.CanonicalRule := by
  unfold Obligations.CanonicalRule
  intro lens tab m hlen h32 h
  refine ⟨canonical_length h, canonical_tableLens hlen h32 h, fun s hs h0 => ?absent, fun s l => ?mem,
    sortedPairs_pairwise lens, fun hnil => ?none, fun s l rest => canonical_first hlen h,
    fun j x y => canonical_next hlen h32 h⟩
  case absent => rw [List.getD_eq_getElem?_getD, canonical_absent h hs h0, Option.getD_some]
  case mem =>
    rw [mem_sortedPairs, iff_and_self]
    rintro ⟨hs, -⟩
    obtain ⟨hlt, -⟩ := List.getElem?_eq_some_iff.mp hs
    exact hlen ▸ hlt
  case none =>
    obtain ⟨-, -, hm⟩ | ⟨s, l, rest, hp, -, -⟩ := canonical_cases h
    · exact hm
    · rw [hnil] at hp; cases hp

end Sys2Proof.Machine

namespace Sys2Proof.Machine

/-! ## A full tree's depths have a canonical assignment (R218, R249) -/

theorem sum_presentPairs (m k : Nat) (lens : List Nat) :
    ((presentPairs k lens).map fun p => 2 ^ (m - p.2)).sum = kraft m lens := by
  induction lens generalizing k with
  | nil => rfl
  | cons l lens ih =>
    rw [presentPairs, kraft_eq_sum, List.map_cons, List.sum_cons, ← kraft_eq_sum, ← ih (k + 1)]
    split
    · rw [‹l = 0›, kraftTerm_zero, Nat.zero_add]
    · rw [List.map_cons, List.sum_cons, kraftTerm_of_pos m (Nat.pos_of_ne_zero ‹_›)]

theorem sum_sortedPairs (m : Nat) (lens : List Nat) :
    ((sortedPairs lens).map fun p => 2 ^ (m - p.2)).sum = kraft m lens :=
  (((List.perm_insertionSort _ _).map _).sum_eq).trans (sum_presentPairs m 0 lens)

/-- In units of 2^(-m), the codewords before the walk's next pair end at `(pc + 1) * 2^(m - pl)`, and the pairs still to
come fill the rest of the interval. Their lengths fall, so the next codeword starts at a whole number of its own units
(no NOT_PREFIX_FREE) and ends within the interval (no OVERSUBSCRIBED). -/
theorem assignWalk_ok_of_sum {m : Nat} {ps : List (Nat × Nat)} {a : Assigner} (hm : a.pl ≤ m)
    (hfall : ∀ p ∈ ps, p.2 ≤ a.pl) (hord : ps.Pairwise (fun x y => y.2 ≤ x.2))
    (hsum : (a.pc + 1) * 2 ^ (m - a.pl) + (ps.map fun p => 2 ^ (m - p.2)).sum = 2 ^ m) :
    ∃ tab, assignWalk ps a = .ok tab := by
  induction ps generalizing a with
  | nil => exact ⟨_, rfl⟩
  | cons p ps ih =>
    obtain ⟨s, l⟩ := p
    obtain ⟨hl, -⟩ := List.forall_mem_cons.mp hfall
    obtain ⟨hnext, hord⟩ := List.pairwise_cons.mp hord
    dsimp only at hl hnext
    rw [List.map_cons, List.sum_cons] at hsum
    have hunit : 2 ^ (m - l) = 2 ^ (a.pl - l) * 2 ^ (m - a.pl) := by rw [← Nat.pow_add]; congr 1; omega
    have htotal : 2 ^ m = 2 ^ l * 2 ^ (m - l) := by rw [← Nat.pow_add]; congr 1; omega
    have hrest : 2 ^ (m - l) ∣ (ps.map fun p => 2 ^ (m - p.2)).sum := List.dvd_sum <| List.forall_mem_map.mpr
      fun p hp => Nat.pow_dvd_pow 2 (Nat.sub_le_sub_left (hnext p hp) m)
    have hdvd : 2 ^ (a.pl - l) ∣ a.pc + 1 := by
      refine Nat.dvd_of_mul_dvd_mul_right (Nat.two_pow_pos (m - a.pl)) ?_
      rw [← hunit]
      refine (Nat.dvd_add_left (Nat.dvd_add (dvd_refl _) hrest)).mp ?_
      rw [hsum, htotal]
      exact Nat.dvd_mul_left _ _
    obtain ⟨c, hc⟩ := hdvd
    have hcode : (a.pc + 1) / 2 ^ (a.pl - l) = c := by rw [hc, Nat.mul_div_cancel_left _ (Nat.two_pow_pos _)]
    have hsum' : (c + 1) * 2 ^ (m - l) + (ps.map fun p => 2 ^ (m - p.2)).sum = 2 ^ m := by
      rw [← hsum, hc, hunit]; ring
    have hfit : c < 2 ^ l := Nat.lt_of_mul_lt_mul_right (a := 2 ^ (m - l)) <| by
      rw [← htotal, ← hsum']
      have := Nat.two_pow_pos (m - l)
      rw [Nat.succ_mul]; omega
    obtain ⟨staging, hw⟩ := assignWalk_pass (s := s) (ps := ps) (a := a)
      (Nat.mod_eq_zero_of_dvd ⟨c, hc⟩) (hcode ▸ hfit)
    rw [hw, hcode]
    exact ih (a := ⟨c, l, staging⟩) (hl.trans hm) hnext hord hsum'

section
variable {lens : List Nat}

theorem canonical_ok_of_walk {x : Nat × Nat} {ps : List (Nat × Nat)} (hp : sortedPairs lens = x :: ps)
    (hw : ∀ staging, ∃ tab, assignWalk ps ⟨0, x.2, staging⟩ = .ok tab) : ∃ tab m, canonical lens = .ok (tab, m) := by
  obtain ⟨tab, h⟩ := hw (emptyTable.set x.1 ⟨0#32, BitVec.ofNat 8 x.2⟩)
  exact ⟨tab, x.2, by rw [canonical_of_sortedPairs_cons hp, h]; rfl⟩

/-- Lengths whose sum of R218 is 1 have a canonical assignment. -/
theorem canonical_ok_of_kraft {m : Nat} (hm : ∀ l ∈ lens, l ≤ m) (hk : kraft m lens = 2 ^ m) :
    ∃ tab maxlen, canonical lens = .ok (tab, maxlen) := by
  cases hp : sortedPairs lens with
  | nil => exact ⟨emptyTable, 0, by rw [canonical, hp]⟩
  | cons x ps =>
    have hx : x.2 ≤ m := by
      obtain ⟨hx, -⟩ := mem_sortedPairs.mp (hp ▸ List.mem_cons_self : (x.1, x.2) ∈ sortedPairs lens)
      exact hm _ (List.mem_of_getElem? hx)
    have hsum : (0 + 1) * 2 ^ (m - x.2) + (ps.map fun p => 2 ^ (m - p.2)).sum = 2 ^ m := by
      rw [← hk, ← sum_sortedPairs, hp, List.map_cons, List.sum_cons, Nat.zero_add, Nat.one_mul]
    have hord : (x :: ps).Pairwise (fun x y => y.2 ≤ x.2) := hp ▸ (sortedPairs_pairwise lens).imp fun h => by omega
    obtain ⟨hfall, hord⟩ := List.pairwise_cons.mp hord
    exact canonical_ok_of_walk hp fun staging => assignWalk_ok_of_sum (a := ⟨0, x.2, staging⟩) hx hfall hord hsum

/-- Lengths of which at most one, that of `x`, is not 0 have a canonical assignment: there is no second pair to check
(R213, R246). -/
theorem canonical_ok_of_single {x : Nat} (h : ∀ s l, lens[s]? = some l → l ≠ 0 → s = x) :
    ∃ tab m, canonical lens = .ok (tab, m) := by
  refine canonical_ok_of_passes rfl fun j hj => ?_
  have hx : ∀ p ∈ sortedPairs lens, p.1 = x := fun p hp => by
    obtain ⟨hs, hl⟩ := mem_sortedPairs.mp hp
    exact h p.1 p.2 hs hl
  have hne := List.pairwise_iff_getElem.mp (sortedPairs_symbols_ne lens) j (j + 1) (by omega) hj (Nat.lt_succ_self j)
  rw [hx _ (List.getElem_mem _), hx _ (List.getElem_mem _)] at hne
  exact absurd rfl hne

end

/-! ## The lengths TREE writes for distinct symbols (R216) -/

section
variable {l : List FreqEntry}

/-- The depths of a single symbol (R213). -/
theorem treeDepths_single (e : FreqEntry) (s : Nat) :
    depthOf (treeDepths [e]) s = if s = e.sym.toNat then 1 else 0 := by
  rw [treeDepths, depthOf_cons, depthOf_nil]

variable (hn : (l.map FreqEntry.sym).Nodup)
include hn

/-- Every depth fits a byte of LEN_BUF. -/
theorem depthOf_treeDepths_lt_alphabetSize (s : Nat) : depthOf (treeDepths l) s < alphabetSize := by
  match l with
  | [] => exact (by decide : 0 < alphabetSize)
  | [e] =>
    rw [treeDepths_single]
    split <;> decide
  | e :: e' :: es =>
    exact Nat.lt_of_lt_of_le (depthOf_treeDepths_lt (by simp) s) (length_le_alphabetSize hn)

/-- The bytes TREE writes are the depths, however many symbols there are. -/
theorem treeLens_eq_depths :
    (treeLens l).map BitVec.toNat = (List.range alphabetSize).map (depthOf (treeDepths l)) := by
  rw [treeLens, List.map_map]
  exact List.map_congr_left fun s _ => Nat.mod_eq_of_lt (depthOf_treeDepths_lt_alphabetSize hn s)

/-- The lengths TREE writes have a canonical assignment: ASSIGN's walk accepts them all (R249). -/
theorem treeLens_canonical : ∃ tab m, canonical ((treeLens l).map BitVec.toNat) = .ok (tab, m) := by
  match l with
  | [] =>
    refine canonical_ok_of_single (x := 0) fun s d hs hd => ?_
    rw [treeLens_eq_depths hn] at hs
    obtain ⟨s', -, rfl⟩ := List.mem_map.mp (List.mem_of_getElem? hs)
    exact absurd rfl hd
  | [e] =>
    refine canonical_ok_of_single (x := e.sym.toNat) fun s d hs hd => ?_
    rw [treeLens_eq_depths hn, List.getElem?_map] at hs
    obtain ⟨s', hs', rfl⟩ := Option.map_eq_some_iff.mp hs
    obtain ⟨_, rfl⟩ := List.getElem?_eq_some_iff.mp hs'
    rw [List.getElem_range, treeDepths_single] at hd
    exact (ite_ne_right_iff.mp hd).1
  | e :: e' :: es =>
    refine canonical_ok_of_kraft (m := 255) (List.forall_mem_map.mpr fun d _ => ?_) (kraft_treeLens (by simp) hn)
    exact Nat.le_of_lt_succ d.isLt

end

theorem Params.maxLen_le {p : Params} (h : p.wf = true) : p.maxLen ≤ 33 := by
  simp only [Params.wf, Bool.and_eq_true, decide_eq_true_eq] at h
  omega

/-! ## BUILD after its COUNT and TREE stages (R250) -/

/-- The state between BUILD's TREE and ASSIGN stages. -/
def State.staged (s : State) (data : List Byte) : State := treeCmd { s with freq := countList data }

section
variable (s : State) (data : List Byte)

theorem State.staged_lenSize : (s.staged data).lenSize = 256#32 := rfl

theorem readBytes_staged :
    (s.staged data).mem.readBytes .lenBuf 0 alphabetSize = .ok (treeLens (countList data)) :=
  readBytes_treeCmd { s with freq := countList data }

theorem read_staged_of_outside {x : Nat} (h : x < Arr.base .lenBuf ∨ Arr.base .lenBuf + 256 ≤ x) :
    (s.staged data).mem.read x = s.mem.read x :=
  read_treeCmd_of_outside { s with freq := countList data } h

theorem holdsBytes_staged : holdsBytes (s.staged data).mem .lenBuf (treeLens (countList data)) := by
  intro k hk
  have hk' : k < 256 := by simpa [treeLens, alphabetSize] using hk
  refine (read_treeCmd_lenBuf { s with freq := countList data } hk').trans ?_
  simp [treeLens, alphabetSize, hk']

end

/-- BUILD of readable data is ASSIGN from the state its first two stages leave. -/
theorem exec_build_readable {s : State} {data : List Byte} (b : Bank) (hm : s.mem.wf)
    (hle : s.dataLen.toNat ≤ s.params.maxDataBytes) (hlen : data.length = s.dataLen.toNat)
    (hh : holdsBytes s.mem .dataBuf data) : exec (.build b) s = exec (.assign b) (s.staged data) := by
  have hr : s.mem.readBytes .dataBuf 0 s.dataLen.toNat = .ok data := hlen ▸ readBytes_of_holdsBytes hm hh
  rw [exec_eq_finish, exec_eq_finish, cmdRule, cmdRule, buildCmd, countCmd_readable hle hr]
  rfl

/-- The completion of an earlier stage makes no difference to ASSIGN's result. -/
theorem exec_assign_complete (b : Bank) (s : State) : exec (.assign b) s.complete = exec (.assign b) s := by
  rw [exec_eq_finish, exec_eq_finish, cmdRule, cmdRule]
  obtain ⟨h, e⟩ | ⟨h, ⟨f, hr, e⟩ | ⟨bytes, hr, ⟨sym, hl, e⟩ | ⟨hl, ⟨code, sym, hc, e⟩ | ⟨tab, m, hc, e⟩⟩⟩⟩ :=
    assignCmd_cases b s <;> rw [e]
  · rw [assignCmd_sizeMismatch (s := s.complete) b h]; rfl
  · rw [assignCmd_unwritten (s := s.complete) b h hr]
  · rw [assignCmd_lenTooLong (s := s.complete) b h hr hl]; rfl
  · rw [assignCmd_walkError (s := s.complete) b h hr hl hc]; rfl
  · rw [assignCmd_commit (s := s.complete) b h hr hl hc]
    cases b <;> rfl

/-- Settles O36: BUILD's rule is ASSIGN's after the first two, whose completions ASSIGN's own makes again. -/
theorem buildIsThreeStages : Obligations.BuildIsThreeStages := by
  unfold Obligations.BuildIsThreeStages
  intro s s₁ s₂ b _ hcount herr htree
  rw [exec_eq_finish] at hcount
  rw [exec_tree] at htree
  obtain ⟨u, hu, rfl⟩ | ⟨u, code, info, -, rfl⟩ := finish_next hcount
  · cases htree
    have hbuild : exec (.build b) s = exec (.assign b) (treeCmd u) := by
      rw [exec_eq_finish, exec_eq_finish, cmdRule, cmdRule, buildCmd, show countCmd s = .done u from hu]
    rw [hbuild, exec_assign_complete]
    exact (exec_assign_complete b (treeCmd u)).symm
  · cases herr

/-- Settles O37: the depths of the data's tree pass every check of ASSIGN. -/
theorem buildCompletes : Obligations.BuildCompletes := by
  unfold Obligations.BuildCompletes
  intro s b data hp hm hle hlen hh hdepth
  have hlens := treeLens_eq_depths (countList_symbols_nodup data)
  obtain ⟨tab, m, hc⟩ := treeLens_canonical (countList_symbols_nodup data)
  have hmax : ∀ l ∈ (treeLens (countList data)).map BitVec.toNat, l < s.params.maxLen := by
    rw [hlens]
    exact List.forall_mem_map.mpr fun sym _ => hdepth sym
  have hexec : exec (.build b) s = .next ((s.staged data).committed b tab m) :=
    (exec_build_readable b hm hle hlen hh).trans
      (exec_assign_commit (s.staged_lenSize data) (readBytes_staged s data) (tooLong_eq_none hmax) hc)
  obtain ⟨htab, hinfo⟩ := (s.staged data).committed_bank b tab m
  have hm8 : (BitVec.ofNat 8 m).toNat = m := by
    have h32 : m ≤ 32 := canonical_maxlen_le (fun l hl => by have := hmax l hl; have := Params.maxLen_le hp; omega) hc
    rw [BitVec.toNat_ofNat]
    omega
  refine ⟨_, hexec, ?valid, ?canonical, ?lens, fun x hx => ?outside, fun b' hb => ?other, ?frame⟩
  case valid => rw [hinfo]
  case canonical => rw [htab, hinfo, hm8, hc]
  case lens => exact (State.committed_mem ..).symm ▸ holdsBytes_staged s data
  case outside => rw [State.committed_mem, read_staged_of_outside s data hx]
  case other => exact (s.staged data).committed_other_bank b tab m hb
  case frame => cases b <;> rfl

/-- Settles O38: ASSIGN's check of the lengths fails after COUNT and TREE have written their results. -/
theorem buildDepthOverflow : Obligations.BuildDepthOverflow := by
  unfold Obligations.BuildDepthOverflow
  intro s b data sym hm hle hlen hh hsym hlong hbefore
  have hl : tooLong s.params.maxLen ((treeLens (countList data)).map BitVec.toNat) = some sym := by
    rw [treeLens_eq_depths (countList_symbols_nodup data), tooLong_eq_some_iff]
    exact ⟨by simpa [alphabetSize] using hsym, by simpa using hlong, by simpa using hbefore⟩
  refine ⟨(s.staged data).mem, ?_, holdsBytes_staged s data, fun x => read_staged_of_outside s data⟩
  rw [exec_build_readable b hm hle hlen hh]
  exact exec_assign_error (assignCmd_lenTooLong b (s.staged_lenSize data) (readBytes_staged s data) hl)

end Sys2Proof.Machine

namespace Sys2Proof.Machine

/-! ## The outcomes of COMPARE, an equation each (R281 to R283) -/

theorem sameEntries_iff {t₀ t₁ : List Code} : sameEntries t₀ t₁ = true ↔ ∀ sym, sym < 256 → t₀[sym]? = t₁[sym]? := by
  simp [sameEntries, alphabetSize]

/-- The state in which COMPARE has written EQUAL and has completed. -/
def State.compared (s : State) (eq : Bool) : State :=
  { s with cur := none, status := { s.status with done := true, equal := eq } }

section
variable {s : State}

theorem compareCmd_noTable_bank0 (h₀ : s.info0.valid = false) : compareCmd s = .error s .noTable 0#32 := if_pos h₀

variable (h₀ : s.info0.valid = true)
include h₀

theorem compareCmd_noTable_bank1 (h₁ : s.info1.valid = false) : compareCmd s = .error s .noTable 1#32 := by
  simp [compareCmd, h₀, h₁]

theorem compareCmd_valid (h₁ : s.info1.valid = true) :
    compareCmd s = .done { s with status := { s.status with equal := sameEntries s.table0 s.table1 } } := by
  simp [compareCmd, h₀, h₁]

theorem exec_compare_valid (h₁ : s.info1.valid = true) :
    exec .compare s = .next (s.compared (sameEntries s.table0 s.table1)) := by
  rw [exec_eq_finish, cmdRule, compareCmd_valid h₀ h₁]
  rfl

end

/-- NO_TABLE completes COMPARE with class 1 and code 0x15 (R352, R353). -/
theorem exec_compare_noTable {s : State} {bank : Word} (h : compareCmd s = .error s .noTable bank) :
    exec .compare s = .next (s.failed 1#3 0x15#8 bank) := by
  rw [exec_eq_finish, cmdRule, h]
  rfl

/-- Settles O39: with both banks VALID, COMPARE writes EQUAL and completes. -/
theorem compareWritesEqual : Obligations.CompareWritesEqual := by
  unfold Obligations.CompareWritesEqual
  exact fun s h₀ h₁ => ⟨_, exec_compare_valid h₀ h₁, sameEntries_iff⟩

/-- Settles O40: bank 0 is tested first, bank 1 only when bank 0 is VALID. -/
theorem compareWithoutTable : Obligations.CompareWithoutTable := by
  unfold Obligations.CompareWithoutTable
  exact ⟨fun s h₀ => exec_compare_noTable (compareCmd_noTable_bank0 h₀),
    fun s h₀ h₁ => exec_compare_noTable (compareCmd_noTable_bank1 h₀ h₁)⟩

/-! ## ASSIGN once more from the same LEN_BUF (R248, R284) -/

/-- A commit leaves alone what ASSIGN reads (LEN_SIZE, LEN_BUF, MAXLEN), so after an ASSIGN without error another one
commits the same table, to whichever bank. -/
theorem exec_assign_again {s t : State} {b : Bank} (h : exec (.assign b) s = .next t) (herr : t.status.err = false) :
    ∃ tab m, t = s.committed b tab m ∧ ∀ b', exec (.assign b') t = .next (t.committed b' tab m) := by
  rw [exec_eq_finish] at h
  obtain ⟨u, hu, rfl⟩ | ⟨u, code, info, -, rfl⟩ := finish_next h
  · replace hu : assignCmd b s = .done u := hu
    obtain ⟨-, e⟩ | ⟨hsize, ⟨f, -, e⟩ | ⟨bytes, hr, ⟨sym, -, e⟩ | ⟨hl, ⟨code, sym, -, e⟩ | ⟨tab, m, hc, e⟩⟩⟩⟩ :=
      assignCmd_cases b s <;> rw [e] at hu <;> cases hu
    refine ⟨tab, m, rfl, fun b' => exec_assign_commit ?_ ?_ ?_ hc⟩
    · simpa using hsize
    · simpa using hr
    · simpa using hl
  · cases herr

/-- Settles O41: both banks hold the table that the one LEN_BUF determines, and COMPARE finds them equal. -/
theorem rebuiltTableIsEqual : Obligations.RebuiltTableIsEqual := by
  unfold Obligations.RebuiltTableIsEqual
  intro s t₁ _ h herr
  obtain ⟨tab, m, ht₁, hagain⟩ := exec_assign_again h herr
  obtain ⟨htab₀, hinfo₀⟩ := ht₁ ▸ s.committed_bank .bank0 tab m
  obtain ⟨htab₁, hinfo₁⟩ := t₁.committed_bank .bank1 tab m
  obtain ⟨htab_kept, hinfo_kept⟩ := t₁.committed_other_bank .bank1 tab m (b' := .bank0) (by decide)
  have htables : (t₁.committed .bank1 tab m).table0 = (t₁.committed .bank1 tab m).table1 :=
    (htab_kept.trans htab₀).trans htab₁.symm
  have hcompare := exec_compare_valid (congrArg TableInfo.valid (hinfo_kept.trans hinfo₀))
    (congrArg TableInfo.valid hinfo₁)
  exact ⟨_, _, hagain .bank1, hcompare, herr, sameEntries_iff.mpr fun sym _ => by rw [htables]⟩

end Sys2Proof.Machine

namespace Sys2Proof.Machine

/-! ## The invocation checks, an equation each (R304) -/

theorem legalWidth_iff (v : Word) : legalWidth v.toNat = true ↔ v ∈ [8#32, 16#32, 32#32] := by
  simp [legalWidth, ← BitVec.toNat_inj, or_assoc]

/-- The running sum first exceeds the limit at the block `j` places on. -/
theorem firstOver_eq_some {limit : Nat} {ns : List Nat} {i acc j : Nat} (hj : j < ns.length)
    (hover : limit < acc + (ns.take (j + 1)).sum) (hbefore : ∀ k, k < j → acc + (ns.take (k + 1)).sum ≤ limit) :
    firstOver limit i acc ns = some (i + j) := by
  induction ns generalizing i acc j with
  | nil => cases hj
  | cons n ns ih =>
    rw [firstOver]
    cases j with
    | zero => rw [if_pos (by simpa using hover), Nat.add_zero]
    | succ j =>
      have hfirst : acc + n ≤ limit := by simpa using hbefore 0 (Nat.succ_pos j)
      rw [if_neg (by omega), ih (by simpa using hj), Nat.add_assoc, Nat.add_comm 1]
      · simpa [Nat.add_assoc] using hover
      · intro k hk
        simpa [Nat.add_assoc] using hbefore (k + 1) (Nat.succ_lt_succ hk)

theorem firstOver_eq_none {limit : Nat} {ns : List Nat} {i acc : Nat} (h : acc + ns.sum ≤ limit) :
    firstOver limit i acc ns = none := by
  induction ns generalizing i acc with
  | nil => rfl
  | cons n ns ih =>
    rw [List.sum_cons] at h
    rw [firstOver, if_neg (by omega), ih (by omega)]

theorem badTrailing_iff {words trailing width : Nat} :
    badTrailing words trailing width = true ↔ (0 < words ∧ width ≤ trailing) ∨ (words = 0 ∧ trailing ≠ 0) := by
  simp [badTrailing]

/-- Words that are all written are read (R392). -/
theorem readElems_of_holdsWords {m : Memory} {a : Arr} {vs : List Word} (h : holdsWords m a vs) :
    m.readElems a 0 vs.length = .ok (vs.map BitVec.toNat) :=
  (readElems_ok _).mpr ⟨List.length_map _, fun k hk => by rw [Nat.zero_add, h k hk, List.getElem?_map]⟩

section
variable {s : State} {b : Bank}

theorem invocationChecks_noTable (h : (s.info b).valid = false) :
    invocationChecks b s = .error .noTable (BitVec.ofNat 32 (bankNumber b)) := if_pos h

variable (hvalid : (s.info b).valid = true)
include hvalid

theorem invocationChecks_badWordWidth (h : s.wordWidth ∉ [8#32, 16#32, 32#32]) :
    invocationChecks b s = .error .badWordWidth s.wordWidth := by
  rw [← legalWidth_iff, Bool.not_eq_true] at h
  simp only [invocationChecks, hvalid, h, reduceCtorEq, if_true, if_false]

variable (hwidth : s.wordWidth ∈ [8#32, 16#32, 32#32])
include hwidth

theorem invocationChecks_streamTooLong (h : s.params.maxStreamWords < s.streamWords.toNat) :
    invocationChecks b s = .error .streamTooLong s.streamWords := by
  rw [← legalWidth_iff] at hwidth
  simp only [invocationChecks, hvalid, hwidth, h, reduceCtorEq, if_true, if_false]

variable (hwords : s.streamWords.toNat ≤ s.params.maxStreamWords)
include hwords

theorem invocationChecks_tooManyBlocks (h : s.params.maxBlocks < s.numBlocks.toNat) :
    invocationChecks b s = .error .tooManyBlocks s.numBlocks := by
  rw [← legalWidth_iff] at hwidth
  simp only [invocationChecks, hvalid, hwidth, Nat.not_lt.mpr hwords, h, reduceCtorEq, if_true, if_false]

variable (hblocks : s.numBlocks.toNat ≤ s.params.maxBlocks) {counts : List Nat}
  (hread : s.mem.readElems .blkCount 0 s.numBlocks.toNat = .ok counts)
include hblocks hread

theorem invocationChecks_outputTooLong {i : Nat} (h : firstOver s.params.maxOutBytes 0 0 counts = some i) :
    invocationChecks b s = .error .outputTooLong (BitVec.ofNat 32 i) := by
  rw [← legalWidth_iff] at hwidth
  simp only [invocationChecks, hvalid, hwidth, Nat.not_lt.mpr hwords, Nat.not_lt.mpr hblocks, hread, h, reduceCtorEq,
    if_false]

theorem invocationChecks_badTrailing (hsum : firstOver s.params.maxOutBytes 0 0 counts = none)
    (h : badTrailing s.streamWords.toNat s.trailing.toNat s.wordWidth.toNat = true) :
    invocationChecks b s = .error .badTrailing s.trailing := by
  rw [← legalWidth_iff] at hwidth
  simp only [invocationChecks, hvalid, hwidth, Nat.not_lt.mpr hwords, Nat.not_lt.mpr hblocks, hread, hsum, h,
    reduceCtorEq, if_true, if_false]

end

/-- A failing invocation check completes DECODE with the class and the code of R352 and no other write (R304, R353). -/
theorem exec_decode_error {s : State} {b : Bank} {code : ErrCode} {info : Word}
    (h : invocationChecks b s = .error code info) :
    exec (.decode b) s = .next (s.failed (classBits (codeBits code)) (codeBits code) info) := by
  rw [exec_eq_finish, cmdRule, decodeRule, h]
  rfl

/-- Settles O42: each clause is the equation of its check. -/
theorem decodeChecksInOrder : Obligations.DecodeChecksInOrder := by
  unfold Obligations.DecodeChecksInOrder
  intro s b
  refine ⟨fun h => exec_decode_error (invocationChecks_noTable h),
    fun hv h => exec_decode_error (invocationChecks_badWordWidth hv h),
    fun hv hw h => exec_decode_error (invocationChecks_streamTooLong hv hw h),
    fun hv hw hs h => exec_decode_error (invocationChecks_tooManyBlocks hv hw hs h),
    fun counts hv hw hs hb hlen hcounts => ?_⟩
  have hread := hlen ▸ readElems_of_holdsWords hcounts
  refine ⟨fun i hi hover hbefore => ?outputTooLong, fun hsum htrailing => ?badTrailing⟩
  case outputTooLong =>
    refine exec_decode_error (invocationChecks_outputTooLong hv hw hs hb hread ?_)
    simp only [List.map_take] at hover hbefore
    rw [firstOver_eq_some (j := i) (by simpa using hi) (by rwa [Nat.zero_add])
      (fun k hk => by rw [Nat.zero_add]; exact hbefore k hk), Nat.zero_add]
  case badTrailing =>
    have hnone : firstOver s.params.maxOutBytes 0 0 (counts.map BitVec.toNat) = none :=
      firstOver_eq_none (by rwa [Nat.zero_add])
    refine exec_decode_error (invocationChecks_badTrailing hv hw hs hb hread hnone (badTrailing_iff.mpr ?_))
    refine htrailing.imp_right fun ⟨hzero, hne⟩ => ⟨by rw [hzero]; rfl, fun h => hne (BitVec.eq_of_toNat_eq h)⟩

end Sys2Proof.Machine

namespace Sys2Proof.Machine

/-! ## A block that ends before its first bit (R306, R309, R310) -/

/-- An address in no block's result entries is outside those of block `i`. -/
theorem outside_of_not_inResultEntry {n i x : Nat} (hi : i < n) (hx : ¬ inResultEntry n x) :
    ∀ a ∈ [Arr.blkStatus, Arr.blkErrpos, Arr.blkDone, Arr.blkEnd], x < a.base + 4 * i ∨ a.base + 4 * i + 4 ≤ x := by
  unfold inResultEntry at hx
  simp only [List.forall_mem_cons, List.not_mem_nil, false_imp_iff, implies_true, and_true]
  have := not_exists.mp hx i
  omega

/-- A block whose walk ends at its start has the result entries of its offset with nothing decoded, and writes no other
byte. -/
theorem decodeBlock_of_ended_at_start {env : DecodeEnv} {m : Memory} {i : Nat} {off : Word} {r : BlockEnd} {w : Walk}
    (hi : i < 4096) (hoff : m.readElem .blkOffset i = some off) (hw : w = ⟨i, off.toNat, 0, 0, 0, off.toNat, env.base i⟩)
    (h : env.iterate w m = .ended (endBlock r w m)) :
    ∃ m', env.decodeBlock i m = .ok m' ∧
      m'.readElem .blkStatus i = some (blockStatus r) ∧
      m'.readElem .blkErrpos i = some (if r = .ok then 0#32 else off) ∧
      m'.readElem .blkDone i = some 0#32 ∧ m'.readElem .blkEnd i = some off ∧
      ∀ x, ¬ inResultEntry 4096 x → m'.read x = m.read x := by
  subst hw
  have hrun := (runJob_of_start (startWalk_of_offset env hoff)).trans (runJob_of_ended h)
  obtain ⟨hstatus, herrpos, hdone, hend⟩ := endBlock_entries r ⟨i, off.toNat, 0, 0, 0, off.toNat, env.base i⟩ m hi
  rw [BitVec.ofNat_toNat, BitVec.setWidth_eq] at herrpos hend
  exact ⟨_, hrun, hstatus, herrpos, hdone, hend, fun x hx => read_endBlock (outside_of_not_inResultEntry hi hx)⟩

/-- Settles O45: the count is reached before the first bit. -/
theorem zeroCountBlock : Obligations.ZeroCountBlock := by
  unfold Obligations.ZeroCountBlock
  intro env m i off hcount hi hoff
  exact decodeBlock_of_ended_at_start (r := .ok) hi hoff rfl (iterate_count_reached hcount.le)

/-- Settles O46: the stream is exhausted before the first bit. -/
theorem offsetBeyondStream : Obligations.OffsetBeyondStream := by
  unfold Obligations.OffsetBeyondStream
  intro env m i off hcount hi hoff hbits
  exact decodeBlock_of_ended_at_start (r := .truncated) hi hoff rfl (iterate_stream_exhausted hcount hbits)

end Sys2Proof.Machine

namespace Sys2Proof.Machine

/-! ## A walk to its end (R306) -/

/-- Iterations that go on lead from one walk and memory to another. -/
inductive DecodeEnv.Goes (env : DecodeEnv) : Walk → Memory → Walk → Memory → Prop where
  | refl (w : Walk) (m : Memory) : Goes env w m w m
  | step {w w₁ v : Walk} {m m₁ m' : Memory} (h : env.iterate w m = .running w₁ m₁) (hs : Goes env w₁ m₁ v m') :
      Goes env w m v m'

section
variable {env : DecodeEnv} {w v : Walk} {m m₁ m' : Memory}

theorem iterate_running_p {w' : Walk} (h : env.iterate w m = .running w' m') :
    w.p < env.totalBits ∧ w'.p = w.p + 1 := by
  obtain ⟨hp, -, ⟨_, rfl, -⟩ | ⟨_, -, -, rfl, -⟩⟩ := iterate_running h <;> exact ⟨hp, rfl⟩

theorem runJob_of_fault {f : Fault} (h : env.iterate w m = .fault f) : env.runJob (.walk w) m = .error f := by
  obtain ⟨n, hn⟩ : ∃ n, env.totalBits - w.p = n + 1 := by
    obtain ⟨-, e⟩ | ⟨-, -, e⟩ | ⟨-, hp, -⟩ := iterate_cases env w m
    · rw [e] at h; cases h
    · rw [e] at h; cases h
    · exact ⟨env.totalBits - w.p - 1, by omega⟩
  rw [DecodeEnv.runJob, hn, DecodeEnv.finishWalk, h]

/-- A walk done goes on to some walk whose iteration ends the block. -/
theorem runJob_goes {w : Walk} {m m' : Memory} (h : env.runJob (.walk w) m = .ok m') :
    ∃ v m₁, env.Goes w m v m₁ ∧ env.iterate v m₁ = .ended m' := by
  cases hit : env.iterate w m with
  | fault f => rw [runJob_of_fault hit] at h; cases h
  | ended m₁ =>
    rw [runJob_of_ended hit] at h
    cases h
    exact ⟨w, m, .refl w m, hit⟩
  | running w₁ m₁ =>
    have hp := iterate_running_p hit
    rw [runJob_of_running hit] at h
    obtain ⟨v, m₂, hgoes, hend⟩ := runJob_goes h
    exact ⟨v, m₂, .step hit hgoes, hend⟩
termination_by env.totalBits - w.p

/-- An iteration that ends writes the result entries of its block with the count so far; with BAD_CODE, a codeword of
the maximum length has matched no symbol (R310). -/
theorem iterate_ended (h : env.iterate w m = .ended m') :
    ∃ r v, m' = endBlock r v m ∧ v.block = w.block ∧ v.k = w.k ∧
      (r = .badCode → env.maxlen ≤ w.l + 1 ∧
        ∃ bit, bit < 2 ∧ findSymbol env.table (w.l + 1) (2 * w.c + bit) = none) := by
  obtain ⟨-, e⟩ | ⟨-, -, e⟩ | ⟨-, -, ⟨-, e⟩ | ⟨bit, hbit, e⟩⟩ := iterate_cases env w m <;> rw [e] at h
  · cases h; exact ⟨.ok, w, rfl, rfl, rfl, nofun⟩
  · cases h; exact ⟨.truncated, w, rfl, rfl, rfl, nofun⟩
  · cases h
  obtain ⟨sym, -, e⟩ | ⟨hnone, hmax, e⟩ | ⟨-, -, e⟩ := takeBit_cases env w m bit <;> rw [e] at h
  · cases h
  · cases h; exact ⟨.badCode, _, rfl, rfl, rfl, fun _ => ⟨hmax, bit, streamBit_lt hbit, hnone⟩⟩
  · cases h

/-- The start of a block: its cursor at its offset, nothing read, nothing emitted. -/
theorem startWalk_ok {i : Nat} (h : env.startWalk i m = .ok w) :
    ∃ off : Word, w = ⟨i, off.toNat, 0, 0, 0, off.toNat, env.base i⟩ := by
  unfold DecodeEnv.startWalk at h
  split at h
  · cases h
  · cases h; exact ⟨_, rfl⟩

theorem decodeBlock_ok {i : Nat} (h : env.decodeBlock i m = .ok m') :
    ∃ w, env.startWalk i m = .ok w ∧ env.runJob (.walk w) m = .ok m' := by
  unfold DecodeEnv.decodeBlock at h
  split at h
  · cases h
  · exact ⟨_, ‹_›, h⟩

theorem goes_block (h : env.Goes w m v m') : v.block = w.block ∧ v.base = w.base := by
  induction h with
  | refl => exact ⟨rfl, rfl⟩
  | step hit _ ih =>
    obtain ⟨-, -, ⟨_, rfl, -⟩ | ⟨_, -, -, rfl, -⟩⟩ := iterate_running hit <;> exact ih

/-- A walk emits its symbols one after another, up to its block's count (R306, R307). -/
theorem goes_emits (h : env.Goes w m v m') :
    w.k ≤ v.k ∧ (w.k ≤ env.count w.block → v.k ≤ env.count w.block) ∧
      ∀ y, Arr.base .outBuf + (w.base + v.k) ≤ y → m'.read y = m.read y := by
  induction h with
  | refl => exact ⟨le_rfl, id, fun _ _ => rfl⟩
  | step hit _ ih =>
    obtain ⟨hk, hcount, hread⟩ := ih
    obtain ⟨-, hlt, ⟨sym, rfl, rfl⟩ | ⟨bit, -, -, rfl, rfl⟩⟩ := iterate_running hit
    · refine ⟨(Nat.le_succ _).trans hk, fun _ => hcount hlt, fun y hy => ?_⟩
      rw [hread y hy, (read_setRange_singleton _ _ sym).2 y]
      dsimp only at hk
      omega
    · exact ⟨hk, hcount, hread⟩

end

/-! ## A complete code matches every codeword of the maximum length (R316) -/

/-- The codewords of a chain of pairs, in units of 2^(-M), fill without a gap the interval that starts where the first
begins. -/
theorem chain_covers {t : List Code} {M c : Nat} {x : Nat × Nat} {ps : List (Nat × Nat)}
    (hchain : (x :: ps).IsChain (follows t)) (hM : x.2 ≤ M) (hlow : cwOf t x.1 * 2 ^ (M - x.2) ≤ c)
    (hhigh : c < cwOf t x.1 * 2 ^ (M - x.2) + ((x :: ps).map fun p => 2 ^ (M - p.2)).sum) :
    ∃ p ∈ x :: ps, c >>> (M - p.2) = cwOf t p.1 := by
  have hend : (cwOf t x.1 + 1) * 2 ^ (M - x.2) = cwOf t x.1 * 2 ^ (M - x.2) + 2 ^ (M - x.2) := Nat.succ_mul ..
  rw [List.map_cons, List.sum_cons, ← Nat.add_assoc, ← hend] at hhigh
  obtain hin | hout := Nat.lt_or_ge c ((cwOf t x.1 + 1) * 2 ^ (M - x.2))
  · exact ⟨x, List.mem_cons_self, by rw [Nat.shiftRight_eq_div_pow, Nat.div_eq_of_lt_le hlow hin]⟩
  · cases ps with
    | nil => exact absurd hhigh (Nat.not_lt.mpr hout)
    | cons y ps =>
      obtain ⟨⟨hle, hmul⟩, hrest⟩ := List.isChain_cons_cons.mp hchain
      have hstart : (cwOf t x.1 + 1) * 2 ^ (M - x.2) = cwOf t y.1 * 2 ^ (M - y.2) := by
        rw [← hmul, Nat.mul_assoc, ← Nat.pow_add]
        congr 2
        omega
      rw [hstart] at hout hhigh
      obtain ⟨p, hp, hcode⟩ := chain_covers hrest (hle.trans hM) hout hhigh
      exact ⟨p, List.mem_cons_of_mem x hp, hcode⟩

/-- With a complete code, any bits of the maximum length or more begin with a codeword. -/
theorem canonical_covers {lens : List Nat} {tab : List Code} {m : Nat} (hlen : lens.length = 256)
    (h32 : ∀ l ∈ lens, l ≤ 32) (h : canonical lens = .ok (tab, m)) (hk : kraft 32 lens = 2 ^ 32) {l c : Nat}
    (hml : m ≤ l) (hl : l ≤ 32) (hc : c < 2 ^ l) :
    ∃ k j, 0 < k ∧ k ≤ l ∧ isEntry tab j k (c >>> (l - k)) := by
  obtain ⟨hchain, hentered⟩ := canonical_chain hlen h32 h
  have hsum := (sum_sortedPairs 32 lens).trans hk
  have hcover : ∃ p ∈ sortedPairs lens, (c <<< (32 - l)) >>> (32 - p.2) = cwOf tab p.1 := by
    cases hp : sortedPairs lens with
    | nil => rw [hp] at hsum; cases hsum
    | cons x ps =>
      rw [hp] at hchain hsum
      have hx := (mem_sortedPairs.mp (hp ▸ List.mem_cons_self : (x.1, x.2) ∈ sortedPairs lens)).1
      refine chain_covers hchain (h32 _ (List.mem_of_getElem? hx)) ?_ ?_
      · rw [(canonical_first hlen h hp).2, Nat.zero_mul]
        exact Nat.zero_le _
      · rw [(canonical_first hlen h hp).2, Nat.zero_mul, Nat.zero_add, hsum, Nat.shiftLeft_eq]
        calc c * 2 ^ (32 - l)
          _ < 2 ^ l * 2 ^ (32 - l) := Nat.mul_lt_mul_of_pos_right hc (Nat.two_pow_pos _)
          _ = 2 ^ 32 := by rw [← Nat.pow_add, Nat.add_sub_cancel' hl]
  obtain ⟨⟨j, k⟩, hp, hcode⟩ := hcover
  obtain ⟨hj, hk0⟩ := mem_sortedPairs.mp hp
  have hkl : k ≤ l := (canonical_le_maxlen h (List.mem_of_getElem? hj)).trans hml
  refine ⟨k, j, Nat.pos_of_ne_zero hk0, hkl, ?_⟩
  have hshift : (c <<< (32 - l)) >>> (32 - k) = c >>> (l - k) := by
    rw [show 32 - k = (32 - l) + (l - k) by omega, Nat.shiftRight_add, Nat.shiftLeft_shiftRight]
  rw [← hshift, hcode]
  exact (hentered _ hp).1

/-! ## The running codeword of a walk (R306) -/

/-- No codeword is a beginning of the first `l` bits read, whose value is `c`. -/
def unmatched (t : List Code) (l c : Nat) : Prop := ∀ k j, 0 < k → k ≤ l → ¬ isEntry t j k (c >>> (l - k))

theorem unmatched_zero (t : List Code) (c : Nat) : unmatched t 0 c := fun _ _ h0 hk => absurd h0 (Nat.not_lt.mpr hk)

/-- One more bit, with which no symbol is found. -/
theorem unmatched_succ {t : List Code} {l c bit : Nat} (h : unmatched t l c) (hbit : bit < 2)
    (hnone : findSymbol t (l + 1) (2 * c + bit) = none) : unmatched t (l + 1) (2 * c + bit) := by
  intro k j h0 hk
  obtain hlt | rfl := Nat.lt_or_eq_of_le hk
  · have hshift : (2 * c + bit) >>> (l + 1 - k) = c >>> (l - k) := by
      rw [show l + 1 - k = 1 + (l - k) by omega, Nat.shiftRight_add]
      congr 1
      omega
    rw [hshift]
    exact h k j h0 (Nat.le_of_lt_succ hlt)
  · rw [Nat.sub_self, Nat.shiftRight_zero]
    exact findSymbol_eq_none.mp hnone j

/-- The running codeword of a walk under a table whose maximum length is at most 32. -/
structure Walk.unfinished (t : List Code) (w : Walk) : Prop where
  short : w.l < 32
  fits : w.c < 2 ^ w.l
  noCodeword : unmatched t w.l w.c

theorem bit_fits {l c bit : Nat} (hc : c < 2 ^ l) (hbit : bit < 2) : 2 * c + bit < 2 ^ (l + 1) := by
  rw [Nat.pow_succ]
  omega

/-- A new codeword has no bits yet. -/
theorem unfinished_of_empty {t : List Code} {w : Walk} (hl : w.l = 0) (hc : w.c = 0) : w.unfinished t where
  short := by omega
  fits := by rw [hl, hc]; exact Nat.one_pos
  noCodeword := by rw [hl]; exact unmatched_zero t w.c

theorem iterate_unfinished {env : DecodeEnv} {w w' : Walk} {m m' : Memory} (hmax : env.maxlen ≤ 32)
    (hw : w.unfinished env.table) (h : env.iterate w m = .running w' m') : w'.unfinished env.table := by
  obtain ⟨-, e⟩ | ⟨-, -, e⟩ | ⟨-, -, ⟨-, e⟩ | ⟨bit, hbit, e⟩⟩ := iterate_cases env w m <;> rw [e] at h
  · cases h
  · cases h
  · cases h
  have hbit := streamBit_lt hbit
  obtain ⟨sym, -, e⟩ | ⟨-, -, e⟩ | ⟨hnone, hl, e⟩ := takeBit_cases env w m bit <;> rw [e] at h <;> cases h
  · exact unfinished_of_empty rfl rfl
  · exact ⟨hl.trans_le hmax, bit_fits hw.fits hbit, unmatched_succ hw.noCodeword hbit hnone⟩

theorem goes_unfinished {env : DecodeEnv} {w v : Walk} {m m' : Memory} (hmax : env.maxlen ≤ 32)
    (hw : w.unfinished env.table) (h : env.Goes w m v m') : v.unfinished env.table := by
  induction h with
  | refl => exact hw
  | step hit _ ih => exact ih (iterate_unfinished hmax hw hit)

theorem blockStatus_ne_badCode {r : BlockEnd} (h : r ≠ .badCode) : blockStatus r ≠ 0x32#32 := by
  cases r with
  | badCode => exact absurd rfl h
  | _ => decide

/-- Settles O48: BAD_CODE needs bits of the maximum length that begin with no codeword, and a complete code has none. -/
theorem completeCodeNeverBad : Obligations.CompleteCodeNeverBad := by
  unfold Obligations.CompleteCodeNeverBad
  rintro lens tab ml env m m' i hlen h32 hcan hk rfl rfl hi h
  have hmax := canonical_maxlen_le h32 hcan
  obtain ⟨w, hstart, hrun⟩ := decodeBlock_ok h
  obtain ⟨off, rfl⟩ := startWalk_ok hstart
  obtain ⟨v, m₁, hgoes, hend⟩ := runJob_goes hrun
  obtain ⟨r, u, rfl, hu, -, hbad⟩ := iterate_ended hend
  obtain rfl : u.block = i := hu.trans (goes_block hgoes).1
  have hv := goes_unfinished hmax (unfinished_of_empty rfl rfl) hgoes
  have hr : r ≠ .badCode := fun e => by
    obtain ⟨hml, bit, hbit, hnone⟩ := hbad e
    obtain ⟨k, j, h0, hk, hentry⟩ := canonical_covers hlen h32 hcan hk hml hv.short (bit_fits hv.fits hbit)
    exact unmatched_succ hv.noCodeword hbit hnone k j h0 hk hentry
  rw [(endBlock_entries r u m₁ hi).1]
  exact fun e => blockStatus_ne_badCode hr (Option.some.inj e)

end Sys2Proof.Machine

namespace Sys2Proof.Machine

/-! ## Every read of a DECODE finds its element written (R392) -/

/-- The offsets of all blocks and all bits of the stream are written. -/
structure DecodeEnv.Readable (env : DecodeEnv) (m : Memory) : Prop where
  offset : ∀ i, i < env.counts.length → m.readElem .blkOffset i ≠ none
  bit : ∀ p, p < env.totalBits → streamBit m env.width p ≠ none

/-- Written stream slots give all the bits below total_bits (R87, R88). -/
theorem checked_readable {s : State} {b : Bank} {env : DecodeEnv} (hp : invocationChecks b s = .pass env)
    (hoff : ∀ i, i < env.counts.length → s.mem.readElem .blkOffset i ≠ none)
    (hslot : ∀ j, j < s.streamWords.toNat → s.mem.readElem .stream j ≠ none) : env.Readable s.mem := by
  refine ⟨hoff, fun p hlt => ?_⟩
  obtain ⟨-, -, -, -, -, -, -, -, -, hwidth, hbits⟩ := invocationChecks_pass hp
  have hin : p / env.width < s.streamWords.toNat :=
    Nat.div_lt_of_lt_mul (by rw [hwidth, Nat.mul_comm]; omega)
  rw [streamBit, Option.map_eq_none_iff.ne]
  exact hslot _ hin

section
variable {env : DecodeEnv} {j : Job} {js : List Job} {m n : Memory}

theorem DecodeEnv.Readable.alike (hr : env.Readable m) (hf : env.fits) (h : readAlike m n) : env.Readable n := by
  refine ⟨fun i hi => ?_, fun p hp => by rw [streamBit_alike hf.bits h hp]; exact hr.bit p hp⟩
  have hblocks := hf.blocks
  rw [readElem_congr fun x _ hu => h x (.inl ?_)]
  · exact hr.offset i hi
  · simp only [Arr.base] at *
    omega

theorem iterate_ne_fault (hr : env.Readable m) (w : Walk) (f : Fault) : env.iterate w m ≠ .fault f := by
  obtain ⟨-, e⟩ | ⟨-, -, e⟩ | ⟨-, hp, ⟨hnone, -⟩ | ⟨bit, -, e⟩⟩ := iterate_cases env w m
  · rw [e]; exact nofun
  · rw [e]; exact nofun
  · exact absurd hnone (hr.bit _ hp)
  · obtain ⟨_, -, e'⟩ | ⟨-, -, e'⟩ | ⟨-, -, e'⟩ := takeBit_cases env w m bit <;> rw [e, e'] <;> exact nofun

theorem runJob_walk_total (hf : env.fits) {w : Walk} {m : Memory} (hw : env.placed w) (hr : env.Readable m) :
    ∃ m', env.runJob (.walk w) m = .ok m' := by
  cases hit : env.iterate w m with
  | fault f => exact absurd hit (iterate_ne_fault hr w f)
  | ended m' => exact ⟨m', runJob_of_ended hit⟩
  | running w₁ m₁ =>
    have hp := iterate_running_p hit
    rw [runJob_of_running hit]
    exact runJob_walk_total hf (iterate_running_placed hw hit).1
      (hr.alike hf (iterate_memory hf.blocks hw (.inl ⟨w₁, hit⟩)).1)
termination_by env.totalBits - w.p

theorem runJob_total (hf : env.fits) (hj : env.placedJob j) (hr : env.Readable m) : ∃ m', env.runJob j m = .ok m' := by
  cases j with
  | walk w => exact runJob_walk_total hf hj hr
  | block i =>
    obtain ⟨off, hoff⟩ := Option.ne_none_iff_exists'.mp (hr.offset i hj)
    have hw := startWalk_of_offset env hoff
    rw [runJob_of_start hw]
    exact runJob_walk_total hf (startWalk_placed hj hw) hr

theorem runs_total (hf : env.fits) (hjs : ∀ j ∈ js, env.placedJob j) (hr : env.Readable m) :
    ∃ m', env.Runs js m m' := by
  induction js generalizing m with
  | nil => exact ⟨m, .nil m⟩
  | cons j js ih =>
    obtain ⟨hj, hjs⟩ := List.forall_mem_cons.mp hjs
    obtain ⟨m₁, h₁⟩ := runJob_total hf hj hr
    obtain ⟨m', hs⟩ := ih hjs (hr.alike hf (runJob_readAlike hf hj h₁))
    exact ⟨m', .cons h₁ hs⟩

end

/-! ## What each block contributes (R310, R311, R314) -/

section
variable {env : DecodeEnv} {j : Job} {js : List Job} {i : Nat} {m m' : Memory}

/-- A job writes its own block's bytes only (R98). -/
theorem runJob_of_not_owns (hf : env.fits) (hj : env.placedJob j) (h : env.runJob j m = .ok m') {x : Nat}
    (hx : ¬ env.owns j.index x) : m'.read x = m.read x := by
  obtain ⟨_, -, hs⟩ := runJob_alike hf hj (fun _ _ => rfl) h
  exact (hs.read_eq hx).1

/-- Jobs on other blocks leave a block's bytes alone. -/
theorem runs_of_owns (hf : env.fits) (hi : i < env.counts.length)
    (hjs : ∀ j ∈ js, env.placedJob j ∧ j.index ≠ i) (h : env.Runs js m m') {x : Nat} (hx : env.owns i x) :
    m'.read x = m.read x := by
  induction h with
  | nil m => rfl
  | cons h _ ih =>
    obtain ⟨⟨hj, hne⟩, hjs⟩ := List.forall_mem_cons.mp hjs
    have hown := owns_disjoint (hi.trans_le hf.blocks) ((placedJob_index_lt hj).trans_le hf.blocks) hne.symm hx
    rw [ih hjs, runJob_of_not_owns hf hj h hown]

/-- A job's bytes are, at the end, those the job alone gives on the memory before (R314). -/
theorem runs_job (hf : env.fits) (ha : env.Apart js) (hm : m.wf) (h : env.Runs js m m') (hj : j ∈ js) :
    ∃ m₁, env.runJob j m = .ok m₁ ∧ ∀ x, env.owns j.index x → m'.read x = m₁.read x := by
  obtain ⟨as, bs, rfl⟩ := List.append_of_mem hj
  have ha' := ha.perm List.perm_middle
  obtain ⟨m₁, h₁, hs⟩ := runs_cons.mp (runs_perm hf List.perm_middle ha hm h)
  obtain ⟨hplaced, hrest⟩ := List.forall_mem_cons.mp ha'.placed
  obtain ⟨hnot, -⟩ := List.nodup_cons.mp ha'.nodup
  exact ⟨m₁, h₁, fun x => runs_of_owns hf (placedJob_index_lt hplaced)
    (fun k hk => ⟨hrest k hk, fun e => hnot (List.mem_map.mpr ⟨k, hk, e⟩)⟩) hs⟩

/-- Block `i` has ended in `m'`, and its output bytes at or beyond its BLK_DONE are as in `m` (R310, R311). -/
structure DecodeEnv.Finishes (env : DecodeEnv) (i : Nat) (m m' : Memory) : Prop where
  finished : blockFinished m' i
  kept : ∀ (j : Nat) (k : Word), m'.readElem .blkDone i = some k → k.toNat ≤ j → j < env.count i →
    m'.read (Arr.base .outBuf + (env.base i + j)) = m.read (Arr.base .outBuf + (env.base i + j))

/-- A walk in order finishes its block. -/
theorem runJob_walk_finishes (hf : env.fits) {w : Walk} (hw : env.walkOk w) (hcount : env.count w.block < 2 ^ 32)
    (h : env.runJob (.walk w) m = .ok m') : env.Finishes w.block m m' := by
  obtain ⟨hlt, hbase, hk, -⟩ := hw
  have hb := hlt.trans_le hf.blocks
  obtain ⟨v, m₁, hgoes, hend⟩ := runJob_goes h
  obtain ⟨r, u, rfl, hu, huk, -⟩ := iterate_ended hend
  have hblock : u.block = w.block := hu.trans (goes_block hgoes).1
  obtain ⟨-, hvk, hread⟩ := goes_emits hgoes
  obtain ⟨hstatus, -, hdone, -⟩ := endBlock_entries r u m₁ (hblock ▸ hb)
  rw [hblock] at hstatus hdone
  refine ⟨⟨r, hstatus⟩, fun j k hk' hj hjc => ?_⟩
  rw [hdone, Option.some.injEq] at hk'
  have hv := hvk hk
  have hkj : v.k ≤ j := by
    rwa [← hk', huk, BitVec.toNat_ofNat, Nat.mod_eq_of_lt (by omega)] at hj
  rw [read_endBlock, hread _ (by omega)]
  rw [hblock]
  simp only [List.forall_mem_cons, List.not_mem_nil, false_imp_iff, implies_true, and_true, Arr.base]
  omega

/-- What a block's bytes tell does not depend on other bytes. -/
theorem readElem_of_owns {n : Memory} (h : ∀ x, env.owns i x → n.read x = m.read x) {a : Arr}
    (ha : a ∈ [Arr.blkStatus, Arr.blkErrpos, Arr.blkDone, Arr.blkEnd]) : n.readElem a i = m.readElem a i :=
  readElem_congr fun x hl hu => h x (.inr ⟨a, ha, hl, hu⟩)

theorem read_output_of_owns {n : Memory} (h : ∀ x, env.owns i x → n.read x = m.read x) {j : Nat}
    (hj : j < env.count i) :
    n.read (Arr.base .outBuf + (env.base i + j)) = m.read (Arr.base .outBuf + (env.base i + j)) :=
  h _ (.inl (by omega))

theorem DecodeEnv.Finishes.congr {n : Memory} (h : env.Finishes i m m')
    (hown : ∀ x, env.owns i x → n.read x = m'.read x) : env.Finishes i m n where
  finished := by
    unfold blockFinished
    rw [readElem_of_owns hown (by simp)]
    exact h.finished
  kept j k hk hj hjc := by
    rw [readElem_of_owns hown (by simp)] at hk
    rw [read_output_of_owns hown hjc]
    exact h.kept j k hk hj hjc

end

/-- A job is a walk in order, under way or still to begin. -/
theorem State.decodingOk.job_walk {s : State} {env : DecodeEnv} (h : s.decodingOk env) {j : Job} (hj : j ∈ env.jobs s)
    {m m' : Memory} (hrun : env.runJob j m = .ok m') :
    ∃ w, env.walkOk w ∧ w.block = j.index ∧ env.runJob (.walk w) m = .ok m' := by
  have hplaced := h.apart.placed j hj
  cases j with
  | walk w =>
    obtain hj | hj := List.mem_append.mp hj
    · obtain ⟨x, hx, he⟩ := List.mem_filterMap.mp hj
      obtain ⟨w', rfl, he⟩ := Option.map_eq_some_iff.mp he
      cases he
      exact ⟨w, h.walkOk hx, rfl, hrun⟩
    · obtain ⟨_, -, he⟩ := List.mem_map.mp hj
      cases he
  | block i =>
    obtain ⟨w, hstart, hw⟩ := decodeBlock_ok hrun
    obtain ⟨hok, hb⟩ := startWalk_walkOk hplaced hstart
    exact ⟨w, hok, hb, hw⟩

section
variable {s : State} {env : DecodeEnv} {i : Nat} {m : Memory} (h : s.decodingOk env) (hf : env.fits) (hm : s.mem.wf)
  (hi : i < env.counts.length) (hall : env.finishAll s = .ok m)
include h hf hm hi hall

/-- The completion of a DECODE finishes each block that is not finished yet and leaves the others alone (R311, R312). -/
theorem finishAll_finishes (hcount : env.count i < 2 ^ 32) : env.Finishes i s.mem m := by
  have hruns := finishAll_ok.mp hall
  by_cases hin : i ∈ (env.jobs s).map Job.index
  · obtain ⟨j, hj, rfl⟩ := List.mem_map.mp hin
    obtain ⟨m₁, hrun, hown⟩ := runs_job hf h.apart hm hruns hj
    obtain ⟨w, hok, hb, hw⟩ := h.job_walk hj hrun
    rw [← hb] at hown hcount ⊢
    exact (runJob_walk_finishes hf hok hcount hw).congr hown
  · have hown : ∀ x, env.owns i x → m.read x = s.mem.read x := fun x =>
      runs_of_owns hf hi (fun j hj => ⟨h.apart.placed j hj, fun e => hin (List.mem_map.mpr ⟨j, hj, e⟩)⟩) hruns
    rw [DecodeEnv.jobs, List.map_append, engineJobs_index, openJobs_index, List.mem_append, not_or] at hin
    have htaken : i ∈ s.taken := by simpa [hi] using hin.2
    obtain ⟨-, -, -, -, -, hfin⟩ := h
    exact DecodeEnv.Finishes.congr ⟨hfin i htaken hin.1, fun _ _ _ _ _ => rfl⟩ hown

/-- A block no engine has taken ends as DecodeBlock of it alone on the memory before does (R306, R314). -/
theorem finishAll_untaken (hnew : i ∉ s.taken) :
    ∃ m₁, env.decodeBlock i s.mem = .ok m₁ ∧ ∀ x, env.owns i x → m.read x = m₁.read x := by
  have hj : Job.block i ∈ env.jobs s :=
    List.mem_append_right _ (List.mem_map.mpr ⟨i, List.mem_filter.mpr ⟨List.mem_range.mpr hi, by simpa using hnew⟩, rfl⟩)
  exact runs_job hf h.apart hm (finishAll_ok.mp hall) hj

end

/-! ## The report of a DECODE (R300, R313) -/

theorem mem_failingBlocks {m : Memory} {n i : Nat} :
    i ∈ failingBlocks m n ↔ i < n ∧ m.readElem .blkStatus i ≠ some (blockStatus .ok) := by
  simp [failingBlocks]

theorem length_failingBlocks_le (m : Memory) (n : Nat) : (failingBlocks m n).length ≤ n := by
  simpa [failingBlocks] using List.length_filter_le _ (List.range n)

/-- The error of a failing block is of class 3 and its code is its BLK_STATUS (R55, R352). -/
theorem failureCode_of_finished {m : Memory} {i : Nat} (h : blockFinished m i)
    (hfail : m.readElem .blkStatus i ≠ some (blockStatus .ok)) :
    classBits (codeBits (failureCode m i)) = 3#3 ∧
      (m.readElem .blkStatus i).map (fun v => v.setWidth 8) = some (codeBits (failureCode m i)) := by
  obtain ⟨r, hr⟩ := h
  unfold failureCode
  rw [hr] at hfail ⊢
  cases r with
  | ok => exact absurd rfl hfail
  | truncated => exact ⟨by decide, by decide⟩
  | badCode => exact ⟨by decide, by decide⟩

/-- `t` is a state in which a DECODE has completed with memory `m`: OUT_LEN, BLK_FAILS, and the error of the least
failing block, if there is one. -/
structure DecodeEnv.Reported (env : DecodeEnv) (m : Memory) (t : State) : Prop where
  mem : t.mem = m
  done : t.status.done = true
  outLen : t.outLen = BitVec.ofNat 32 env.counts.sum
  blkFails : t.blkFails = BitVec.ofNat 32 (failingBlocks m env.counts.length).length
  noError : failingBlocks m env.counts.length = [] → t.status.err = false ∧ t.errInfo = 0#32
  error : ∀ i rest, failingBlocks m env.counts.length = i :: rest →
    t.status.err = true ∧ t.status.errClass = classBits (codeBits (failureCode m i)) ∧
      t.errInfo = BitVec.ofNat 32 i ∧ t.status.errCode = codeBits (failureCode m i)

/-- A DECODE all of whose blocks end completes, and reports so. -/
theorem exec_decode_reported {s : State} {b : Bank} {env : DecodeEnv} {m : Memory} (hclean : s.reportClean)
    (hp : invocationChecks b s = .pass env) (hm : env.finishAll s = .ok m) :
    ∃ t, exec (.decode b) s = .next t ∧ env.Reported m t := by
  obtain ⟨herr, -, -, hinfo⟩ := hclean
  rw [exec_eq_finish, cmdRule]
  obtain ⟨f, hp', -⟩ | ⟨code, info, hp', -⟩ | ⟨env', hp', ⟨f, hm', -⟩ | ⟨m', hm', ⟨hnil, e⟩ | ⟨i, rest, hcons, e⟩⟩⟩ :=
    decodeRule_cases b s <;> rw [hp] at hp' <;> cases hp'
  · rw [hm] at hm'; cases hm'
  · rw [hm] at hm'; cases hm'
    rw [e]
    exact ⟨_, rfl, rfl, rfl, rfl, rfl, fun _ => ⟨herr, hinfo⟩, fun j rest h => by rw [hnil] at h; cases h⟩
  · rw [hm] at hm'; cases hm'
    rw [e]
    refine ⟨_, rfl, rfl, rfl, rfl, rfl, fun h => absurd (hcons.symm.trans h) (List.cons_ne_nil i rest),
      fun j rest' h => ?_⟩
    rw [hcons] at h; cases h
    exact ⟨rfl, rfl, rfl, rfl⟩

/-- Settles O43: no read faults, each block ends as its own job gives it, and the report is that of the memory they end
in. -/
theorem decodeCompletes : Obligations.DecodeCompletes := by
  unfold Obligations.DecodeCompletes
  intro s b env hinv hc hp hoff hslot
  have hd := hinv.decoding hc hp
  have hf := checked_fits hinv.params hp
  have hwf := hinv.mem.1
  obtain ⟨m, hruns⟩ := runs_total hf hd.apart.placed (checked_readable hp hoff hslot)
  have hall := finishAll_ok.mpr hruns
  have hblock : ∀ i, i < env.counts.length → env.Finishes i s.mem m := fun i hi => by
    have hsum := checked_sum_le hp
    have hout := (Params.wf_bounds hinv.params).2
    have hcount := base_add_count_le env i
    exact finishAll_finishes hd hf hwf hi hall (by omega)
  obtain ⟨t, hexec, hmem, hdone, houtLen, hfails, hnone, herror⟩ :=
    exec_decode_reported (hinv.report.clean (by rw [State.busy, hc]; rfl)) hp hall
  rw [← hmem] at hblock hfails hnone herror hall
  refine ⟨t, hexec, hdone, houtLen, fun i hi => (hblock i hi).finished, ?fails, hnone, ?error,
    fun i j k hi => (hblock i hi).kept j k, fun htaken i hi => ?alone⟩
  case fails =>
    have hle := length_failingBlocks_le t.mem env.counts.length
    have hblocks := hf.blocks
    rw [hfails, BitVec.toNat_ofNat, Nat.mod_eq_of_lt (by omega)]
  case error =>
    intro i rest hcons
    obtain ⟨herr, hclass, hinfo, hcode⟩ := herror i rest hcons
    obtain ⟨hi, hfail⟩ := mem_failingBlocks.mp (hcons ▸ List.mem_cons_self)
    obtain ⟨hthree, hstatus⟩ := failureCode_of_finished (hblock i hi).finished hfail
    exact ⟨herr, hclass.trans hthree, hinfo, hstatus.trans (congrArg some hcode.symm)⟩
  case alone =>
    obtain ⟨m₁, hm₁, hown⟩ := finishAll_untaken hd hf hwf hi hall (by rw [htaken]; exact List.not_mem_nil)
    exact ⟨m₁, hm₁, fun a ha => readElem_of_owns hown ha, fun j hj => read_output_of_owns hown hj⟩

end Sys2Proof.Machine

namespace Sys2Proof.Machine

/-! ## The interrupt level (R360) -/

section
variable (s : State)

@[simp] theorem State.complete_irq : s.complete.irq = s.ie := by simp [State.irq]
@[simp] theorem State.completeError_irq (code : ErrCode) (info : Word) : (s.completeError code info).irq = s.ie := by
  simp [State.irq]
@[simp] theorem State.reject_irq (v : Word) : (s.reject v).irq = s.ie := by simp [State.irq]
@[simp] theorem State.accept_irq (i : Instr) : (s.accept i).irq = false := by simp [State.irq, clearReport]

/-- A 1 written to STATUS.DONE is the acknowledgement (R36). -/
theorem State.acknowledge_irq {v : Word} (hv : v.getLsbD 1 = true) : (s.acknowledge v).irq = false := by
  simp [State.irq, clearStatus, hv]

end

/-! ## No command writes CTRL.IE -/

/-- The states with the CTRL.IE of `s`. -/
def State.SameIe (s u : State) : Prop := u.ie = s.ie

section
variable (b : Bank) (s : State)

theorem countCmd_sameIe : (countCmd s).leaves s.SameIe := by
  obtain ⟨-, e⟩ | ⟨-, ⟨f, -, e⟩ | ⟨data, -, e⟩⟩ := countCmd_cases s <;> rw [e]
  · exact rfl
  · trivial
  · exact rfl

theorem assignCmd_sameIe : (assignCmd b s).leaves s.SameIe := by
  obtain ⟨-, e⟩ | ⟨-, ⟨f, -, e⟩ | ⟨bytes, -, ⟨sym, -, e⟩ | ⟨-, ⟨code, sym, -, e⟩ | ⟨tab, m, -, e⟩⟩⟩⟩ :=
    assignCmd_cases b s <;> rw [e]
  · exact rfl
  · trivial
  · exact rfl
  · exact rfl
  · exact s.setBank_ie b tab _

/-- COUNT and TREE do not write CTRL.IE either, so ASSIGN's stage starts from the IE of `s` (R250). -/
theorem buildCmd_sameIe : (buildCmd b s).leaves s.SameIe := by
  obtain ⟨-, e⟩ | ⟨f, -, e⟩ | ⟨-, data, -, e⟩ := buildCmd_cases b s <;> rw [e]
  · exact rfl
  · trivial
  · exact assignCmd_sameIe b (treeCmd { s with freq := countList data })

theorem decodeRule_sameIe : (decodeRule b s).leaves s.SameIe := by
  obtain ⟨f, -, e⟩ | ⟨code, info, -, e⟩ | ⟨env, -, ⟨f, -, e⟩ | ⟨m, -, ⟨-, e⟩ | ⟨i, rest, -, e⟩⟩⟩ :=
    decodeRule_cases b s <;> rw [e]
  · trivial
  · exact rfl
  · trivial
  · exact rfl
  · exact rfl

theorem compareCmd_sameIe : (compareCmd s).leaves s.SameIe := by
  obtain ⟨-, e⟩ | ⟨-, -, e⟩ | ⟨-, -, e⟩ := compareCmd_cases s <;> rw [e] <;> exact rfl

theorem cmdRule_sameIe (i : Instr) : (cmdRule i s).leaves s.SameIe := by
  cases i with
  | assign b => exact assignCmd_sameIe b s
  | count => exact countCmd_sameIe s
  | tree => exact rfl
  | build b => exact buildCmd_sameIe b s
  | decode b => exact decodeRule_sameIe b s
  | compare => exact compareCmd_sameIe s

end

/-- Every completion, with or without an error, raises IRQ if it is enabled. -/
theorem exec_irq {i : Instr} {s t : State} (h : exec i s = .next t) : t.irq = s.ie := by
  obtain ⟨u, hu, -, rfl | ⟨code, info, rfl⟩⟩ := exec_completes (cmdRule_sameIe s i) h
  · exact u.complete_irq.trans hu
  · exact (u.completeError_irq code info).trans hu

/-! ## The two registers that the host can write in every state -/

theorem hostWrite_status (s : State) (v : Word) : s.hostWrite 0x00C#22 v = s.acknowledge v := rfl

theorem hostWrite_ctrl (s : State) (v : Word) : s.hostWrite 0x010#22 v = { s with ie := v.getLsbD 0 } := rfl

/-- Settles O19: no rule writes CTRL.IE and every completion sets DONE; each other event is one of the operations whose
level is given above. -/
theorem interruptLevel : Obligations.InterruptLevel := by
  unfold Obligations.InterruptLevel
  refine ⟨fun _ => rfl, fun _ _ _ => exec_irq, fun v s hc hv => ?rejected, fun v i s hc hv => ?accepted,
    fun v s hv => ?acknowledged, fun v s => ?enabled⟩
  case rejected => rw [commandWrite_illegal hc hv, State.reject_irq]
  case accepted => rw [commandWrite_legal hc hv, State.accept_irq]
  case acknowledged => rw [hostWrite_status, s.acknowledge_irq hv]
  case enabled => rw [hostWrite_ctrl, State.irq]

end Sys2Proof.Machine

namespace Sys2Proof.Machine

/-! ## Host writes while BUSY = 1 (R401, R402) -/

section
variable {s : State} {v : Word}

theorem commandWrite_busy (hb : s.busy = true) : s.commandWrite v = s.overrun := if_pos hb

/-- A write to an input location is subject to BUSY, whatever it would store (R151). -/
theorem writeLocation_input {l : Location} (hin : isInputLocation l = true) :
    ∃ store, s.writeLocation v l = s.inputWrite store := by
  obtain ⟨r, rfl, hr⟩ | ⟨a, i, rfl, ha⟩ := (isInputLocation_iff l).mp hin
  · refine ⟨s.storeReg r v, ?_⟩
    cases r <;> simp [Reg.isInput] at hr <;> rfl
  · exact ⟨s.storeArray a i v, if_pos ha⟩

theorem hostWrite_input_busy {off : BitVec 22} (hb : s.busy = true)
    (hin : isInputLocation (locate s.params off.toNat) = true) : s.hostWrite off v = s.overrun := by
  obtain ⟨store, hw⟩ := writeLocation_input (s := s) (v := v) hin
  rw [State.hostWrite, hw, State.inputWrite, if_pos hb]

end

/-- Settles O8: the host's turn is the CommandWrite of R155, which BUSY turns into OVERRUN before the word is decoded. -/
theorem busyCommandWriteIgnored : Obligations.BusyCommandWriteIgnored := by
  unfold Obligations.BusyCommandWriteIgnored
  intro s v ops ts hb hs hw
  rw [step_scheduled hs, runTurn, hostTurn_write_cmd (s := { s with schedule := ts }) hw,
    commandWrite_busy (s := { s with schedule := ts }) hb]
  rfl

/-- Settles O9: BUSY comes before the store of every input location, and does not concern STATUS and CTRL. -/
theorem busyInputWriteIgnored : Obligations.BusyInputWriteIgnored := by
  unfold Obligations.BusyInputWriteIgnored
  exact ⟨fun s off v => hostWrite_input_busy, hostWrite_ctrl, hostWrite_status⟩

end Sys2Proof.Machine

namespace Sys2Proof.Machine

/-! ## Host reads while a command is in progress (R403) -/

section
variable {s : State} {l : Location}

theorem State.inFlight_busy {i : Instr} (hc : s.cur = some i) (l : Location) : s.inFlight l = cmdWrites i l := by
  simp [State.inFlight, hc]

theorem cmdWrites_reserved (i : Instr) : cmdWrites i .reserved = false := by cases i <;> rfl

theorem State.inFlight_reserved (s : State) : s.inFlight .reserved = false := by
  unfold State.inFlight
  split
  · exact cmdWrites_reserved _
  · rfl

/-- A whole word of an output in flight reads as the free value. -/
theorem readLocation_inFlight (free : Word) (hf : s.inFlight l = true) (hw : wholeWord s.params l = true) :
    s.readLocation free l = free := by
  cases l with
  | array a i =>
    rw [State.readLocation, if_pos hf, if_pos (of_decide_eq_true hw)]
  | reg r => exact if_pos hf
  | freqSym i => exact if_pos hf
  | freqCnt i => exact if_pos hf
  | tableCw b sym => exact if_pos hf
  | tableLen b sym => exact if_pos hf
  | reserved => rw [s.inFlight_reserved] at hf; cases hf

/-- STATUS.BUSY is all that a register shows of the command in progress. -/
theorem regRead_idle {r : Reg} (hr : r ≠ .status) : State.regRead { s with cur := none } r = s.regRead r := by
  cases r <;> simp at hr <;> rfl

/-- What is not in flight reads as with no command in progress, but for STATUS. -/
theorem readLocation_idle (free : Word) (hf : s.inFlight l = false) (hl : l ≠ .reg .status) :
    State.readLocation { s with cur := none } free l = s.readLocation free l := by
  have hidle : State.inFlight { s with cur := none } l = false := State.inFlight_idle rfl l
  cases l with
  | array a i => simp only [State.readLocation, hf, hidle]; rfl
  | reg r =>
    simp only [State.readLocation, hf, hidle]
    exact regRead_idle fun hr => hl (congrArg Location.reg hr)
  | freqSym i => simp only [State.readLocation, hf, hidle]
  | freqCnt i => simp only [State.readLocation, hf, hidle]
  | tableCw b sym => simp only [State.readLocation, hf, hidle]; cases b <;> rfl
  | tableLen b sym => simp only [State.readLocation, hf, hidle]; cases b <;> rfl
  | reserved => rfl

end

/-- Settles O16: a location of the command's is in flight and reads as the free value; any other shows of the command
no more than STATUS.BUSY. -/
theorem busyReadsOfOutputs : Obligations.BusyReadsOfOutputs := by
  unfold Obligations.BusyReadsOfOutputs
  refine ⟨fun s i off hc hin hw => ?outputs, fun s i off hc hout hl => ?others⟩
  case outputs => exact readLocation_inFlight _ ((State.inFlight_busy hc _).trans hin) hw
  case others => exact (readLocation_idle _ ((State.inFlight_busy hc _).trans hout) hl).symm

end Sys2Proof.Machine

namespace Sys2Proof.Machine

/-! ## The reset input (R390) -/

theorem step_reset {s : State} {ts : List Turn} (hs : s.schedule = .reset :: ts) :
    step s = .next (State.platformReset { s with schedule := ts }) :=
  step_scheduled hs

/-- The register fields that are put together from stored ones read 0 when those are 0. -/
theorem regRead_zero {s : State} (hst : s.status = ⟨false, false, false, false, 0#3, 0#8⟩) (hc : s.cur = none)
    (hie : s.ie = false) (hf : s.freq = []) (h₀ : s.info0 = ⟨0#8, false⟩) (h₁ : s.info1 = ⟨0#8, false⟩) :
    s.regRead .status = 0#32 ∧ s.regRead .ctrl = 0#32 ∧ s.regRead .freqN = 0#32 ∧
      s.regRead .tableInfo0 = 0#32 ∧ s.regRead .tableInfo1 = 0#32 := by
  simp only [State.regRead, statusWord, State.busy, State.freqN, hst, hc, hie, hf, h₀, h₁]
  decide

/-- Settles O20: the state is `resetOf` the parameters, whose fields R390 gives, with the host's script and the rest of
the schedule. -/
theorem resetInput : Obligations.ResetInput := by
  unfold Obligations.ResetInput
  intro s ts hs
  obtain ⟨hstatus, hctrl, hfreqN, hinfo0, hinfo1⟩ :=
    regRead_zero (s := State.platformReset { s with schedule := ts }) rfl rfl rfl rfl rfl rfl
  exact ⟨_, step_reset hs, rfl, rfl, rfl, hstatus, hctrl, rfl, rfl, rfl, rfl, rfl, rfl, rfl, hfreqN, rfl, rfl, rfl,
    fun free i => ⟨rfl, rfl⟩, hinfo0, hinfo1, fun x => rfl, rfl, (resetOf_allIdle s.params).1, rfl⟩

end Sys2Proof.Machine

namespace Sys2Proof.Machine

/-! ## The element a fault names is unwritten (R392) -/

/-- The element that the fault names is unwritten. -/
def Fault.genuine (m : Memory) : Fault → Prop
  | .unwritten a n => elementUnwritten m a n

/-- The fault names the first unwritten byte of `arr` from element `i` on (log 12). -/
def Fault.firstUnwritten (m : Memory) (arr : Arr) (i : Nat) (f : Fault) : Prop :=
  ∃ j, f = .unwritten arr j ∧ i ≤ j ∧ m.read (arr.base + j) = none ∧
    ∀ k, i ≤ k → k < j → m.read (arr.base + k) ≠ none

section
variable {m : Memory} {arr : Arr} {i n : Nat} {f : Fault}

/-- If the cell of element `i` is not the first one, nothing has written the element. -/
theorem firstUnwritten_here (h : ∀ c ∈ m, arr.base + i < c.1) :
    (Fault.unwritten arr i).firstUnwritten m arr i :=
  ⟨i, rfl, le_rfl, read_eq_none_of_lt h, fun _ hl hu => absurd hu (Nat.not_lt.mpr hl)⟩

theorem takeBytes_firstUnwritten (hm : m.wf) (hge : ∀ c ∈ m, arr.base + i ≤ c.1)
    (h : takeBytes arr i n m = .error f) : f.firstUnwritten m arr i := by
  induction n generalizing i m with
  | zero => rw [takeBytes] at h; cases h
  | succ n ih =>
    cases m with
    | nil => cases h; exact firstUnwritten_here nofun
    | cons c m =>
      obtain ⟨x, b⟩ := c
      obtain ⟨hx, hm'⟩ := List.pairwise_cons.mp hm
      rw [takeBytes] at h
      split at h
      case isTrue e =>
        subst e
        have hge' : ∀ c ∈ m, arr.base + (i + 1) ≤ c.1 := fun c hc => hx c hc
        split at h
        · cases h
          obtain ⟨j, rfl, hj, hnone, hbelow⟩ := ih hm' hge' ‹_›
          refine ⟨j, rfl, by omega, by rwa [read_cons, if_neg (by omega)], fun k hl hu => ?_⟩
          rw [read_cons]
          split
          · exact nofun
          · exact hbelow k (by omega) hu
        · cases h
      case isFalse e =>
        cases h
        have hlt : arr.base + i < x := Nat.lt_of_le_of_ne (hge _ List.mem_cons_self) (Ne.symm e)
        exact firstUnwritten_here (List.forall_mem_cons.mpr ⟨hlt, fun c hc => hlt.trans (hx c hc)⟩)

/-- `readBytes` faults at the first byte that nothing has written. -/
theorem readBytes_firstUnwritten (hm : m.wf) (h : m.readBytes arr i n = .error f) : f.firstUnwritten m arr i := by
  obtain ⟨j, rfl, hj, hnone, hbelow⟩ :=
    takeBytes_firstUnwritten (List.Pairwise.sublist (List.dropWhile_sublist _) hm) (dropWhile_ge hm _) h
  rw [read_dropWhile hm (by omega)] at hnone
  refine ⟨j, rfl, hj, hnone, fun k hl hu => ?_⟩
  have hread := hbelow k hl hu
  rwa [read_dropWhile hm (by omega)] at hread

theorem readBytes_unwritten_fault {k : Nat} (hm : m.wf) (hk : k < n) (hnone : m.read (arr.base + k) = none)
    (hbelow : ∀ j, j < k → m.read (arr.base + j) ≠ none) : m.readBytes arr 0 n = .error (.unwritten arr k) := by
  cases h : m.readBytes arr 0 n with
  | ok bs =>
    obtain ⟨hlen, hbs⟩ := (readBytes_ok hm arr 0 n bs).mp h
    have hread := hbs k hk
    rw [Nat.zero_add, hnone, eq_comm, List.getElem?_eq_none_iff] at hread
    omega
  | error f =>
    obtain ⟨j, rfl, -, hj, hbefore⟩ := readBytes_firstUnwritten hm h
    obtain hlt | rfl | hgt := Nat.lt_trichotomy j k
    · exact absurd hj (hbelow j hlt)
    · rfl
    · exact absurd hnone (hbefore k (Nat.zero_le k) hgt)

theorem readBytes_genuine (hm : m.wf) (hw : ∀ j, m.read (arr.base + j) = none → elementUnwritten m arr j)
    (h : m.readBytes arr i n = .error f) : f.genuine m := by
  obtain ⟨j, rfl, -, hnone, -⟩ := readBytes_firstUnwritten hm h
  exact hw j hnone

theorem readElems_genuine (hw : ∀ j, m.readElem arr j = none → elementUnwritten m arr j)
    (h : m.readElems arr i n = .error f) : f.genuine m := by
  induction n generalizing i with
  | zero => cases h
  | succ n ih =>
    rw [Memory.readElems] at h
    split at h
    · cases h; exact hw i ‹_›
    · split at h
      · cases h; exact ih ‹_›
      · cases h

end

/-- Settles O25: COUNT passes its size check, and its read of DATA_BUF faults at the first unwritten byte. -/
theorem countOfUnwrittenFaults : Obligations.CountOfUnwrittenFaults := by
  unfold Obligations.CountOfUnwrittenFaults
  intro s k hm hle hk hnone hbelow
  rw [exec_eq_finish, cmdRule, countCmd, if_neg (Nat.not_lt.mpr hle), readBytes_unwritten_fault hm hk hnone hbelow]
  rfl

/-! ## The faults of a DECODE name elements unwritten at its start (R98, R392) -/

/-- The invocation checks fault only where their read of BLK_COUNT does (R304). -/
theorem invocationChecks_fault_read {b : Bank} {s : State} {f : Fault} (h : invocationChecks b s = .fault f) :
    s.mem.readElems .blkCount 0 s.numBlocks.toNat = .error f := by
  unfold invocationChecks at h
  iterate 4
    split at h
    · cases h
  split at h
  · cases h; assumption
  · split at h
    · cases h
    · split at h <;> cases h

/-- What a part of a DECODE that began at memory `m₀` may lead to: a memory in which all that a DECODE reads is as in `m₀`,
or the fault of an element unwritten in `m₀`. -/
def soundFrom (m₀ : Memory) : Except Fault Memory → Prop
  | .ok m => readAlike m₀ m
  | .error f => f.genuine m₀

section
variable {env : DecodeEnv} {w : Walk} {m₀ m : Memory} {f : Fault} {i : Nat}

theorem iterate_genuine (hf : env.fits) (hm : readAlike m₀ m) (h : env.iterate w m = .fault f) : f.genuine m₀ := by
  obtain ⟨-, e⟩ | ⟨-, -, e⟩ | ⟨-, hp, ⟨hnone, e⟩ | ⟨bit, -, e⟩⟩ := iterate_cases env w m <;> rw [e] at h
  · cases h
  · cases h
  · cases h
    rw [streamBit_alike hf.bits hm hp] at hnone
    exact Option.map_eq_none_iff.mp hnone
  · obtain ⟨sym, -, e⟩ | ⟨-, -, e⟩ | ⟨-, -, e⟩ := takeBit_cases env w m bit <;> rw [e] at h <;> cases h

theorem finishWalk_sound (hf : env.fits) (n : Nat) (hw : env.placed w) (hm : readAlike m₀ m) :
    soundFrom m₀ (env.finishWalk n w m) := by
  have keeps := decode_keeps_readOnly hf.blocks m₀
  induction n generalizing w m with
  | zero => exact keeps.ended _ w m hw hm
  | succ n ih =>
    have hi := iterate_keeps keeps hw hm
    rw [DecodeEnv.finishWalk]
    cases he : env.iterate w m with
    | running w' m' => rw [he] at hi; exact ih hi.1 hi.2
    | ended m' => rw [he] at hi; exact hi
    | fault f => exact iterate_genuine hf hm he

theorem startWalk_genuine (h : env.startWalk i m = .error f) : f.genuine m := by
  unfold DecodeEnv.startWalk at h
  split at h
  · cases h; assumption
  · cases h

theorem decodeBlock_sound (hf : env.fits) (hi : i < env.counts.length) (hm : readAlike m₀ m) :
    soundFrom m₀ (env.decodeBlock i m) := by
  unfold DecodeEnv.decodeBlock
  rw [startWalk_alike (hi.trans_le hf.blocks) hm]
  cases hs : env.startWalk i m₀ with
  | error f => exact startWalk_genuine hs
  | ok w => exact finishWalk_sound hf _ (startWalk_placed hi hs) hm

theorem finishEngines_sound (hf : env.fits) {es : List (Option Walk)} (hes : ∀ w, some w ∈ es → env.placed w)
    (hm : readAlike m₀ m) : soundFrom m₀ (env.finishEngines es m) := by
  induction es generalizing m with
  | nil => exact hm
  | cons e es ih =>
    have hes' : ∀ w, some w ∈ es → env.placed w := fun w hw => hes w (List.mem_cons_of_mem _ hw)
    cases e with
    | none => exact ih hes' hm
    | some w =>
      have hw := finishWalk_sound hf (env.totalBits - w.p) (hes w List.mem_cons_self) hm
      rw [DecodeEnv.finishEngines]
      cases hr : env.finishWalk (env.totalBits - w.p) w m with
      | error f => rw [hr] at hw; exact hw
      | ok m' => rw [hr] at hw; exact ih hes' hw

theorem decodeBlocks_sound (hf : env.fits) {is : List Nat} (his : ∀ i ∈ is, i < env.counts.length)
    (hm : readAlike m₀ m) : soundFrom m₀ (env.decodeBlocks is m) := by
  induction is generalizing m with
  | nil => exact hm
  | cons i is ih =>
    obtain ⟨hi, his'⟩ := List.forall_mem_cons.mp his
    have hb := decodeBlock_sound hf hi hm
    rw [DecodeEnv.decodeBlocks]
    cases hr : env.decodeBlock i m with
    | error f => rw [hr] at hb; exact hb
    | ok m' => rw [hr] at hb; exact ih his' hb

theorem finishAll_sound {s : State} (hf : env.fits) (hes : ∀ w, some w ∈ s.engines → env.placed w) :
    soundFrom s.mem (env.finishAll s) := by
  have he := finishEngines_sound hf hes (m₀ := s.mem) fun _ _ => rfl
  unfold DecodeEnv.finishAll
  cases hr : env.finishEngines s.engines s.mem with
  | error f => rw [hr] at he; exact he
  | ok m =>
    rw [hr] at he
    exact decodeBlocks_sound hf (fun i hi => List.mem_range.mp (List.mem_of_mem_filter hi)) he

end

/-! ## Every fault of a command is genuine (R392) -/

section
variable {b : Bank} {s : State} {f : Fault}

theorem countCmd_genuine (hm : s.mem.wf) (h : countCmd s = .fault f) : f.genuine s.mem := by
  obtain ⟨-, e⟩ | ⟨-, ⟨g, hr, e⟩ | ⟨data, -, e⟩⟩ := countCmd_cases s <;> rw [e] at h <;> cases h
  exact readBytes_genuine hm (fun _ => id) hr

theorem assignCmd_genuine (hm : s.mem.wf) (h : assignCmd b s = .fault f) : f.genuine s.mem :=
  readBytes_genuine hm (fun _ => id) (assignCmd_fault h)

/-- BUILD's ASSIGN stage finds all of LEN_BUF written, so BUILD faults only where its COUNT stage does (R250). -/
theorem buildCmd_genuine (hm : s.mem.wf) (h : buildCmd b s = .fault f) : f.genuine s.mem := by
  obtain ⟨-, e⟩ | ⟨g, hr, e⟩ | ⟨-, data, -, e⟩ := buildCmd_cases b s <;> rw [e] at h
  · cases h
  · cases h
    exact readBytes_genuine hm (fun _ => id) hr
  · have hlen := assignCmd_fault h
    rw [readBytes_treeCmd] at hlen
    cases hlen

theorem decodeRule_genuine (hi : s.Inv) (hc : s.cur = some (.decode b)) (h : decodeRule b s = .fault f) :
    f.genuine s.mem := by
  obtain ⟨g, hp, e⟩ | ⟨code, info, -, e⟩ | ⟨env, hp, ⟨g, hg, e⟩ | ⟨m, -, ⟨-, e⟩ | ⟨i, rest, -, e⟩⟩⟩ :=
    decodeRule_cases b s <;> rw [e] at h <;> cases h
  · exact readElems_genuine (fun _ => id) (invocationChecks_fault_read hp)
  · have hs := finishAll_sound (checked_fits hi.params hp) fun w => (hi.decoding hc hp).placed
    rw [hg] at hs
    exact hs

theorem cmdRule_genuine {i : Instr} (hi : s.Inv) (hc : s.cur = some i) (h : cmdRule i s = .fault f) :
    f.genuine s.mem := by
  have hm : s.mem.wf := hi.mem.1
  cases i with
  | assign b => exact assignCmd_genuine hm h
  | count => exact countCmd_genuine hm h
  | tree => cases h
  | build b => exact buildCmd_genuine hm h
  | decode b => exact decodeRule_genuine hi hc h
  | compare => exact absurd h (compareCmd_ne_fault s f)

end

/-- Settles O22: the fault is that of the command's rule, which names an element unwritten in the starting state. -/
theorem faultsOnlyOnUnwritten : Obligations.FaultsOnlyOnUnwritten := by
  unfold Obligations.FaultsOnlyOnUnwritten
  intro i s a n hi hc h
  rw [exec_eq_finish] at h
  exact cmdRule_genuine hi hc (finish_fault h)

end Sys2Proof.Machine
